-- ==== Sys2Proof/Word.lean ====
section
/-! DEFINITION. The word types of BinaryPack CORE: bytes, 64-bit operands, the 32-bit command word. -/

namespace Sys2Proof

/-- A byte of a buffer or of a payload (spec/20_memory.md R61). -/
abbrev Byte := BitVec 8

/-- A 64-bit operand or result, `XLEN = 64` (spec/00_scope.md R8, spec/10_state.md R21). -/
abbrev Word := BitVec 64

/-- The 32-bit command word `CW` (spec/30_encoding.md R100). -/
abbrev CommandWord := BitVec 32

/-- The field `n` of a command word, an unsigned 8-bit count or selector (R105). -/
abbrev Count := BitVec 8

end Sys2Proof
end

