-- ==== Sys2Proof/Config.lean ====
section
/-! DEFINITION. The implementation parameters of spec/00_scope.md R8: the OPEN ones as a record the
state carries (log 1), the fixed ones as constants. -/

namespace Sys2Proof

/-- The OPEN parameters of R8.  A model takes them as an argument; here every state carries them and
no step changes them (DESIGN CHOICE, log 1). -/
structure Params where
  /-- `VARW`, the width in bits of the varint integer domain, 1 … 64. -/
  varw : Nat
  /-- `W_CAP_INIT`, the Writer capacity after reset and after `WINIT` with A = 0. -/
  wCapInit : Nat
  /-- `W_CAP_MAX`, the physical size in bytes of the Writer buffer memory. -/
  wCapMax : Nat
  /-- `R_CAP_MAX`, the physical size in bytes of the Reader buffer memory. -/
  rCapMax : Nat
deriving DecidableEq, Repr

/-- R8's defaults: the values the test vectors use. -/
def Params.standard : Params :=
  { varw := 64, wCapInit := 256, wCapMax := 65536, rCapMax := 65536 }

namespace Config

/-- `BITS_MAX`: the largest bit count of a bit-field command (R8). -/
def bitsMax : Nat := 32

/-- `PREC_MAX`: the largest precision bit width (R8). -/
def precMax : Nat := 32

/-- The valid widths in bytes of a length prefix (R8; C4). -/
def prefixWidths : List Nat := [0, 1, 2, 4]

/-- The last valid `RDCSR` index (spec/10_state.md R28). -/
def csrMax : Nat := 9

end Config

end Sys2Proof
end

