-- ==== Sys2Proof/Syntax.lean ====
section
/-! DEFINITION. The command set: one constructor for each of the 57 rows of spec/opcode_table.json, in
the table's order (spec/30_encoding.md R102).  The operands A, B and PIN come with the transaction
(R101) and are not part of the command word. -/

namespace Sys2Proof

/-- The commands.  A constructor has the field `n` exactly when the command uses it (R101). -/
inductive Instr where
  | rdcsr (n : Count)   -- RDCSR, op 0x01, R287
  | clrerr   -- CLRERR, op 0x02, R288
  | winit (n : Count)   -- WINIT, op 0x10, R280
  | walign   -- WALIGN, op 0x11, R133
  | wbits (n : Count)   -- WBITS, op 0x12, R134
  | wvaru   -- WVARU, op 0x13, R236
  | wvars   -- WVARS, op 0x14, R237
  | wbuf (n : Count)   -- WBUF, op 0x15, R150
  | wview   -- WVIEW, op 0x16, R281
  | handoff   -- HANDOFF, op 0x17, R282
  | wu8   -- WU8, op 0x20, R136
  | wu16   -- WU16, op 0x21, R137
  | wu32   -- WU32, op 0x22, R138
  | wu64   -- WU64, op 0x23, R139
  | wi8   -- WI8, op 0x24, R140
  | wi16   -- WI16, op 0x25, R141
  | wi32   -- WI32, op 0x26, R142
  | wi64   -- WI64, op 0x27, R143
  | wf16   -- WF16, op 0x29, R144
  | wf32   -- WF32, op 0x2A, R145
  | wf64   -- WF64, op 0x2B, R146
  | rload   -- RLOAD, op 0x30, R286
  | ralign   -- RALIGN, op 0x31, R171
  | rbits (n : Count)   -- RBITS, op 0x32, R172
  | rvaru   -- RVARU, op 0x33, R238
  | rvars   -- RVARS, op 0x34, R239
  | rbuf (n : Count)   -- RBUF, op 0x35, R184
  | ru8   -- RU8, op 0x40, R173
  | ru16   -- RU16, op 0x41, R174
  | ru32   -- RU32, op 0x42, R175
  | ru64   -- RU64, op 0x43, R176
  | ri8   -- RI8, op 0x44, R177
  | ri16   -- RI16, op 0x45, R178
  | ri32   -- RI32, op 0x46, R179
  | ri64   -- RI64, op 0x47, R180
  | rf16   -- RF16, op 0x49, R181
  | rf32   -- RF32, op 0x4A, R182
  | rf64   -- RF64, op 0x4B, R183
  | pbits (n : Count)   -- PBITS, op 0x52, R187
  | pvaru   -- PVARU, op 0x53, R240
  | pvars   -- PVARS, op 0x54, R241
  | pbuf (n : Count)   -- PBUF, op 0x55, R188
  | pu8   -- PU8, op 0x60, R189
  | pu16   -- PU16, op 0x61, R190
  | pu32   -- PU32, op 0x62, R191
  | pu64   -- PU64, op 0x63, R192
  | pi8   -- PI8, op 0x64, R193
  | pi16   -- PI16, op 0x65, R194
  | pi32   -- PI32, op 0x66, R195
  | pi64   -- PI64, op 0x67, R196
  | pf16   -- PF16, op 0x69, R197
  | pf32   -- PF32, op 0x6A, R198
  | pf64   -- PF64, op 0x6B, R199
  | toprec (n : Count)   -- TOPREC, op 0x70, R264
  | fromprec (n : Count)   -- FROMPREC, op 0x71, R265
  | zigzag   -- ZIGZAG, op 0x72, R242
  | unzigzag   -- UNZIGZAG, op 0x73, R243
deriving DecidableEq, Repr

end Sys2Proof
end

