-- ==== Sys2Proof/WellFormed.lean ====
section
/-! DEFINITION. Well-formedness checks: the count `n` of a command inside its domain
(spec/60_exceptions.md R303), and a parameter record inside the ranges of spec/00_scope.md R8.

A command whose count is outside its domain has a command word all the same and is executed (it
completes `InvalidParameter`, R106): decoding, encoding and `exec` never ask for `Instr.wellFormed`. -/

namespace Sys2Proof

/-- `n` is a bit count of `WBITS`, `RBITS` or `PBITS`. -/
def bitCountValid (n : Count) : Bool := n.toNat ≤ Config.bitsMax

/-- `n` is a length-prefix width of `WBUF`, `RBUF` or `PBUF`. -/
def prefixValid (n : Count) : Bool := n.toNat ∈ Config.prefixWidths

/-- `n` is a bit width of `TOPREC` or `FROMPREC`. -/
def precisionValid (n : Count) : Bool := 1 ≤ n.toNat && n.toNat ≤ Config.precMax

/-- The count is inside the command's domain (R303); a command without a count is well formed. -/
def Instr.wellFormed : Instr → Bool
  | .rdcsr n => n.toNat ≤ Config.csrMax
  | .winit n => n.toNat ≤ 1
  | .wbits n | .rbits n | .pbits n => bitCountValid n
  | .wbuf n | .rbuf n | .pbuf n => prefixValid n
  | .toprec n | .fromprec n => precisionValid n
  | .clrerr | .walign | .wvaru | .wvars | .wview | .handoff
  | .wu8 | .wu16 | .wu32 | .wu64 | .wi8 | .wi16 | .wi32 | .wi64 | .wf16 | .wf32 | .wf64
  | .rload | .ralign | .rvaru | .rvars
  | .ru8 | .ru16 | .ru32 | .ru64 | .ri8 | .ri16 | .ri32 | .ri64 | .rf16 | .rf32 | .rf64
  | .pvaru | .pvars
  | .pu8 | .pu16 | .pu32 | .pu64 | .pi8 | .pi16 | .pi32 | .pi64 | .pf16 | .pf32 | .pf64
  | .zigzag | .unzigzag => true

/-- The parameters lie in the ranges of R8. -/
def Params.wellFormed (p : Params) : Bool :=
  (1 ≤ p.varw && p.varw ≤ 64) && (1 ≤ p.wCapMax && p.wCapMax ≤ 2 ^ 32 - 1) &&
  (1 ≤ p.wCapInit && p.wCapInit ≤ p.wCapMax) && p.rCapMax ≤ 2 ^ 32 - 1

end Sys2Proof
end

