-- ==== Sys2Proof/Decode.lean ====
section
/-! DEFINITION. The decoder of a command word, total on all 32-bit words and rejecting by name, and after
it the encoder (spec/30_encoding.md R100, R102, R106, R109). -/

namespace Sys2Proof

/-- Why a command word is no command: tests 1 to 3 of R106, in their order.  Each completes
`IllegalCommand`. -/
inductive BadWord where
  /-- `CW[31:24]` is not an opcode of R102. -/
  | unassignedOpcode
  /-- `CW[15:0]` is not 0. -/
  | reservedBits
  /-- The command does not use `n` and `CW[23:16]` is not 0. -/
  | unusedCount
deriving DecidableEq, Repr

/-- How a row of the opcode map is completed to a command: with the field `n`, or without it. -/
inductive Form where
  | counted (make : Count → Instr)
  | plain (i : Instr)

/-- `op = CW[31:24]` (R100). -/
def opField (cw : CommandWord) : BitVec 8 := cw.extractLsb' 24 8

/-- `n = CW[23:16]` (R100, R105). -/
def countField (cw : CommandWord) : Count := cw.extractLsb' 16 8

/-- The reserved field `CW[15:0]` (R100). -/
def zeroField (cw : CommandWord) : BitVec 16 := cw.extractLsb' 0 16

/-- The opcode map of R102, in its order. -/
def opcodeMap : List (BitVec 8 × Form) := [
  (0x01#8, .counted .rdcsr),
  (0x02#8, .plain .clrerr),
  (0x10#8, .counted .winit),
  (0x11#8, .plain .walign),
  (0x12#8, .counted .wbits),
  (0x13#8, .plain .wvaru),
  (0x14#8, .plain .wvars),
  (0x15#8, .counted .wbuf),
  (0x16#8, .plain .wview),
  (0x17#8, .plain .handoff),
  (0x20#8, .plain .wu8),
  (0x21#8, .plain .wu16),
  (0x22#8, .plain .wu32),
  (0x23#8, .plain .wu64),
  (0x24#8, .plain .wi8),
  (0x25#8, .plain .wi16),
  (0x26#8, .plain .wi32),
  (0x27#8, .plain .wi64),
  (0x29#8, .plain .wf16),
  (0x2A#8, .plain .wf32),
  (0x2B#8, .plain .wf64),
  (0x30#8, .plain .rload),
  (0x31#8, .plain .ralign),
  (0x32#8, .counted .rbits),
  (0x33#8, .plain .rvaru),
  (0x34#8, .plain .rvars),
  (0x35#8, .counted .rbuf),
  (0x40#8, .plain .ru8),
  (0x41#8, .plain .ru16),
  (0x42#8, .plain .ru32),
  (0x43#8, .plain .ru64),
  (0x44#8, .plain .ri8),
  (0x45#8, .plain .ri16),
  (0x46#8, .plain .ri32),
  (0x47#8, .plain .ri64),
  (0x49#8, .plain .rf16),
  (0x4A#8, .plain .rf32),
  (0x4B#8, .plain .rf64),
  (0x52#8, .counted .pbits),
  (0x53#8, .plain .pvaru),
  (0x54#8, .plain .pvars),
  (0x55#8, .counted .pbuf),
  (0x60#8, .plain .pu8),
  (0x61#8, .plain .pu16),
  (0x62#8, .plain .pu32),
  (0x63#8, .plain .pu64),
  (0x64#8, .plain .pi8),
  (0x65#8, .plain .pi16),
  (0x66#8, .plain .pi32),
  (0x67#8, .plain .pi64),
  (0x69#8, .plain .pf16),
  (0x6A#8, .plain .pf32),
  (0x6B#8, .plain .pf64),
  (0x70#8, .counted .toprec),
  (0x71#8, .counted .fromprec),
  (0x72#8, .plain .zigzag),
  (0x73#8, .plain .unzigzag)]

/-- The row of an opcode, if it is assigned. -/
def formOf (op : BitVec 8) : Option Form :=
  (opcodeMap.find? fun row => row.1 == op).map Prod.snd

/-- The decoding procedure of R109 with tests 1, 2, 3 of R106 in that order (test 4, the payload
framing, needs the operands and is made by `State.perform`). -/
def decode (cw : CommandWord) : Except BadWord Instr :=
  match formOf (opField cw) with
  | none => .error .unassignedOpcode
  | some form =>
    if zeroField cw ≠ 0 then .error .reservedBits
    else match form with
      | .counted make => .ok (make (countField cw))
      | .plain i => if countField cw ≠ 0 then .error .unusedCount else .ok i

/-- The opcode of a command (R102). -/
def Instr.opcode : Instr → BitVec 8
  | .rdcsr _ => 0x01
  | .clrerr => 0x02
  | .winit _ => 0x10
  | .walign => 0x11
  | .wbits _ => 0x12
  | .wvaru => 0x13
  | .wvars => 0x14
  | .wbuf _ => 0x15
  | .wview => 0x16
  | .handoff => 0x17
  | .wu8 => 0x20
  | .wu16 => 0x21
  | .wu32 => 0x22
  | .wu64 => 0x23
  | .wi8 => 0x24
  | .wi16 => 0x25
  | .wi32 => 0x26
  | .wi64 => 0x27
  | .wf16 => 0x29
  | .wf32 => 0x2A
  | .wf64 => 0x2B
  | .rload => 0x30
  | .ralign => 0x31
  | .rbits _ => 0x32
  | .rvaru => 0x33
  | .rvars => 0x34
  | .rbuf _ => 0x35
  | .ru8 => 0x40
  | .ru16 => 0x41
  | .ru32 => 0x42
  | .ru64 => 0x43
  | .ri8 => 0x44
  | .ri16 => 0x45
  | .ri32 => 0x46
  | .ri64 => 0x47
  | .rf16 => 0x49
  | .rf32 => 0x4A
  | .rf64 => 0x4B
  | .pbits _ => 0x52
  | .pvaru => 0x53
  | .pvars => 0x54
  | .pbuf _ => 0x55
  | .pu8 => 0x60
  | .pu16 => 0x61
  | .pu32 => 0x62
  | .pu64 => 0x63
  | .pi8 => 0x64
  | .pi16 => 0x65
  | .pi32 => 0x66
  | .pi64 => 0x67
  | .pf16 => 0x69
  | .pf32 => 0x6A
  | .pf64 => 0x6B
  | .toprec _ => 0x70
  | .fromprec _ => 0x71
  | .zigzag => 0x72
  | .unzigzag => 0x73

/-- The field `n` of a command: its operand where it uses one, 0 where it does not (R101, R106). -/
def Instr.count : Instr → Count
  | .rdcsr n => n
  | .clrerr => 0
  | .winit n => n
  | .walign => 0
  | .wbits n => n
  | .wvaru => 0
  | .wvars => 0
  | .wbuf n => n
  | .wview => 0
  | .handoff => 0
  | .wu8 => 0
  | .wu16 => 0
  | .wu32 => 0
  | .wu64 => 0
  | .wi8 => 0
  | .wi16 => 0
  | .wi32 => 0
  | .wi64 => 0
  | .wf16 => 0
  | .wf32 => 0
  | .wf64 => 0
  | .rload => 0
  | .ralign => 0
  | .rbits n => n
  | .rvaru => 0
  | .rvars => 0
  | .rbuf n => n
  | .ru8 => 0
  | .ru16 => 0
  | .ru32 => 0
  | .ru64 => 0
  | .ri8 => 0
  | .ri16 => 0
  | .ri32 => 0
  | .ri64 => 0
  | .rf16 => 0
  | .rf32 => 0
  | .rf64 => 0
  | .pbits n => n
  | .pvaru => 0
  | .pvars => 0
  | .pbuf n => n
  | .pu8 => 0
  | .pu16 => 0
  | .pu32 => 0
  | .pu64 => 0
  | .pi8 => 0
  | .pi16 => 0
  | .pi32 => 0
  | .pi64 => 0
  | .pf16 => 0
  | .pf32 => 0
  | .pf64 => 0
  | .toprec n => n
  | .fromprec n => n
  | .zigzag => 0
  | .unzigzag => 0

/-- The command word of a command: op in 31:24, n in 23:16, 0 in 15:0 (R100). -/
def encode (i : Instr) : CommandWord := i.opcode ++ i.count ++ 0#16

/-- What the decoder reads from a command word given as a number (a command is one 32-bit word, so a
shorter `nbits` leaves the upper bits 0 and a longer one is no command word). -/
def decodeTableWord (nbits w : Nat) : Option Instr :=
  if nbits ≤ 32 ∧ w < 2 ^ nbits then
    match decode (BitVec.ofNat 32 w) with
    | .ok i => some i
    | .error _ => none
  else none

end Sys2Proof
end

