-- ==== Sys2Proof/Machine/State.lean ====
section
/-! DEFINITION. The machine's state as plain data: the block's own record (spec/10_state.md R20), and
beside it the operands of the command in execution (R21, R23), the parameters and the host's side of the
command port (log 1, 2, 3). -/

namespace Sys2Proof.Machine

/-- A buffer memory: the (address, byte) pairs that hold a value, addresses strictly rising.  An
unlisted address has NO value (spec/10_state.md R34: a byte no command has written is not defined;
log 6), so no entry can equal what an unlisted address reads as. -/
abbrev Memory := List Host.Cell

/-- The status codes of spec/60_exceptions.md R300; the codes 6 … 255 are never produced and have no
name here. -/
inductive Status where
  | ok
  | overflow
  | outOfBounds
  | invalidParameter
  | noSpace
  | illegalCommand
deriving DecidableEq, Repr

/-- The Writer: its cursor pair, its capacity and its buffer (R29 to R34). -/
structure Writer where
  /-- `W.offset`, "the next byte to write" (R29). -/
  offset : Nat
  /-- `W.bitOffset`, "the next unused bit position within the byte at offset" (R30). -/
  bitOffset : Nat
  /-- `W.cap`, the allocated capacity in bytes (R31). -/
  cap : Nat
  /-- `W.expand`: the buffer may grow (R32). -/
  expand : Bool
  /-- `WB`, defined exactly on addresses 0 … W_LEN − 1 (R34). -/
  mem : Memory
deriving DecidableEq, Repr

/-- The Reader: its cursor pair, its length and its buffer (R36 to R39). -/
structure Reader where
  /-- `R.offset` (R36). -/
  offset : Nat
  /-- `R.bitOffset` (R37). -/
  bitOffset : Nat
  /-- `R.len`, the bytes the Reader was loaded with (R38). -/
  len : Nat
  /-- `RB` (R39). -/
  mem : Memory
deriving DecidableEq, Repr

/-- The status register `STATUS` (R26). -/
structure StatusReg where
  /-- `STATUS.LAST`: the status of the most recent command. -/
  last : Status
  /-- `STATUS.SEEN`, sticky: some command ended in error. -/
  seen : Bool
deriving DecidableEq, Repr

/-- The operands of the command in execution: the registers A and B (R21) and the payload PIN (R23).
They come with the command and no command writes them (log 3). -/
structure Operands where
  a : Word
  b : Word
  pin : List Byte
deriving DecidableEq, Repr

/-- No operands: what stands in their place while no command is in execution (log 3). -/
def Operands.absent : Operands := { a := 0, b := 0, pin := [] }

/-- A command transaction as the host presents it (spec/00_scope.md R7). -/
structure Command where
  cw : CommandWord
  a : Word
  b : Word
  pin : List Byte
deriving DecidableEq, Repr

/-- What the block answers to one command (R7; spec/60_exceptions.md R304). -/
structure Completion where
  st : Status
  q : Word
  pout : List Byte
deriving DecidableEq, Repr

/-- What the host can do to the block: issue a command, or reset it, "the one event besides a command
that changes the state" (spec/70_reset_and_hazards.md R340; log 5). -/
inductive HostEvent where
  | command (c : Command)
  | reset
deriving DecidableEq, Repr

/-- The whole architectural state of the block: the record of R20, these fields and nothing else. -/
structure Block where
  w : Writer
  r : Reader
  status : StatusReg
  /-- `Q`, the result of the most recent command (R22). -/
  q : Word
deriving DecidableEq, Repr

/-- The state a step works on: the block and, what R20 says is no state of the block, the operands of
the command in execution (log 3), the parameters (log 1), the events the host has still to deliver and
the completions it has been given (log 2). -/
structure State extends Block where
  /-- The operands of the command in execution; `Operands.absent` after every command: no copy is kept
  (R21, R23; log 3). -/
  op : Operands
  params : Params
  /-- The host's events still to come, oldest first. -/
  pending : List HostEvent
  /-- The completions produced so far, oldest first. -/
  completions : List Completion
deriving DecidableEq, Repr

/-- Why the machine stops.  No state that keeps the invariants R35 and R40 can raise either, and both
are safe: the model stops where the spec gives no value to go on with (log 6). -/
inductive Fault where
  /-- Raised by `WBITS`, `WVIEW` and `HANDOFF` at an address of WB below W_LEN that holds no byte.
  Safe: R35 item 4 says that every such byte is defined, so only a state no run reaches raises it. -/
  | undefinedWriterByte
  /-- Raised by a read or a peek at an address of RB below R.len that holds no byte.  Safe: R39 says
  that all R.len bytes are defined, so only a state no run reaches raises it. -/
  | undefinedReaderByte
deriving DecidableEq, Repr

/-- Why an instruction has no meaning. -/
inductive Refusal where
  /-- Raised by an arm of `exec` whose instruction has no meaning yet.  Safe: nothing is claimed of
  it.  No arm answers it: every command of the opcode table has its meaning. -/
  | notModelled (mnemonic : String)
deriving DecidableEq, Repr

/-- The reset state of R44 for the parameters `p`; no command's operands present
(DESIGN CHOICE, log 3), and nothing pending or completed (DESIGN CHOICE, log 2). -/
def State.resetWith (p : Params) : State :=
  { w := { offset := 0, bitOffset := 0, cap := p.wCapInit, expand := true, mem := [] }
    r := { offset := 0, bitOffset := 0, len := 0, mem := [] }
    status := { last := .ok, seen := false }
    q := 0
    op := .absent
    params := p
    pending := []
    completions := [] }

/-- The machine right after reset, with R8's default parameters (log 1). -/
def State.reset : State := State.resetWith Params.standard

end Sys2Proof.Machine
end

