-- ==== Sys2Proof/Machine/Flags.lean ====
section
/-! DEFINITION. The status register: the numbering of the codes, the word `RDCSR 0` reads, and how a
completion and `CLRERR` change it (spec/10_state.md R26, spec/60_exceptions.md R300, R304).  The block
has no other flag (R27). -/

namespace Sys2Proof.Machine

/-- The 8-bit code of a status (R300). -/
def Status.code : Status → BitVec 8
  | .ok => 0
  | .overflow => 1
  | .outOfBounds => 2
  | .invalidParameter => 3
  | .noSpace => 4
  | .illegalCommand => 5

/-- `STATUS` as read: SEEN in bit 8, LAST in bits 7:0, bits 63:9 zero (R26). -/
def StatusReg.word (r : StatusReg) : Word :=
  (BitVec.ofBool r.seen ++ r.last.code).setWidth 64

/-- A command ends `OK`: LAST is OK, SEEN is unchanged (R26). -/
def StatusReg.succeed (r : StatusReg) : StatusReg := { r with last := .ok }

/-- A command ends with the error `e`: LAST is `e`, SEEN is set (R26). -/
def StatusReg.fail (_ : StatusReg) (e : Status) : StatusReg := { last := e, seen := true }

/-- `STATUS.SEEN <- 0` (spec/44_system.md R288). -/
def StatusReg.clearSeen (r : StatusReg) : StatusReg := { r with seen := false }

end Sys2Proof.Machine
end

