-- ==== Sys2Proof/Machine/Operands.lean ====
section
/-! DEFINITION. How a command reads its operands and how numbers become bytes: unsigned and signed
readings (spec/30_encoding.md R105, spec/00_scope.md R9), the big-endian byte lists of R11, the payload
framing of R108, and the binary64 patterns of spec/43_precision.md R260. -/

namespace Sys2Proof.Machine

/-- `be(bytes)`: the integer whose most significant byte is the first list element (R11). -/
def be (bytes : List Byte) : Nat := bytes.foldl (fun v b => v * 256 + b.toNat) 0

/-- `bytes_be(v, k)`: the low `k` bytes of `v`, most significant first (R11, R63). -/
def bytesBE (v : Nat) : Nat → List Byte
  | 0 => []
  | k + 1 => BitVec.ofNat 8 (v / 256 ^ k) :: bytesBE v k

/-- `signed_w(v)`: the integer that the `w`-bit two's complement pattern `v` denotes (R9). -/
def signedOf (w v : Nat) : Int := if v < 2 ^ (w - 1) then v else (v : Int) - 2 ^ w

/-- The `w`-bit two's complement pattern of `s` (R9). -/
def patternOf (w : Nat) (s : Int) : Nat := (s % 2 ^ w).toNat

/-- `sext_64(v, w)`: the `w`-bit pattern `v` sign-extended to 64 bits (R9). -/
def sext64 (v w : Nat) : Word := BitVec.ofInt 64 (signedOf w v)

/-- `s` lies in the `w`-bit signed range −2^(w−1) … 2^(w−1) − 1 (spec/60_exceptions.md R301). -/
def inSignedRange (w : Nat) (s : Int) : Bool := -(2 ^ (w - 1)) ≤ s && s ≤ 2 ^ (w - 1) - 1

/-- The payload framing of every command but `WBUF` and `RLOAD`: no payload (R108). -/
def Operands.noPayload (o : Operands) : Bool := o.pin.length == 0

/-- The payload framing of `WBUF` and `RLOAD`: |PIN| = A (R108). -/
def Operands.payloadOfLengthA (o : Operands) : Bool := o.pin.length == o.a.toNat

/-- What a binary64 pattern denotes (R260).  A finite value is ±`mag` · 2^(−1074): the unit is the
smallest positive binary64, of which every finite value is a whole multiple (log 8). -/
inductive Binary64 where
  | finite (negative : Bool) (mag : Nat)
  | infinite (negative : Bool)
  | nan
deriving DecidableEq, Repr

/-- The sign `s`, bit 63 (R260). -/
def signBit (p : Word) : Bool := p.getLsbD 63

/-- The biased exponent `e`, bits 62:52 (R260). -/
def exponentField (p : Word) : Nat := (p.extractLsb' 52 11).toNat

/-- The fraction `f`, bits 51:0 (R260). -/
def fractionField (p : Word) : Nat := (p.extractLsb' 0 52).toNat

/-- The reading of a binary64 pattern (R260): f · 2^(−1074) for e = 0, and
(2^52 + f) · 2^(e − 1075) = ((2^52 + f) · 2^(e − 1)) · 2^(−1074) for 1 ≤ e ≤ 2046. -/
def binary64 (p : Word) : Binary64 :=
  if exponentField p = 2047 then
    if fractionField p = 0 then .infinite (signBit p) else .nan
  else if exponentField p = 0 then .finite (signBit p) (fractionField p)
  else .finite (signBit p) ((2 ^ 52 + fractionField p) * 2 ^ (exponentField p - 1))

/-- A `maxValue` operand: the magnitude, in units of 2^(−1074), of a positive finite pattern; `none`
for NaN, an infinity, a zero or a negative number (spec/43_precision.md R264, R265). -/
def maxValueOf (p : Word) : Option Nat :=
  match binary64 p with
  | .finite false mag => if 0 < mag then some mag else none
  | _ => none

/-- The value operand of `TOPREC` clamped to 0 … M (R264), in units of 2^(−1074); `none` for NaN.
A negative value, −0 and −∞ give 0; +∞ gives M. -/
def clampedValue (p : Word) (M : Nat) : Option Nat :=
  match binary64 p with
  | .nan => none
  | .infinite true => some 0
  | .infinite false => some M
  | .finite true _ => some 0
  | .finite false mag => some (min mag M)

end Sys2Proof.Machine
end

