-- ==== Sys2Proof/Machine/Ops.lean ====
section
/-! DEFINITION. The named operations: reads and writes of a buffer memory, the Writer's and the
Reader's cursor operations, and the common completion of spec/60_exceptions.md R304: `State.complete`
and `State.raise`, the one shared operation by which a command ends in error. -/

namespace Sys2Proof.Machine

/-! ### Buffer memories -/

/-- The byte at an address; `none` where no byte is defined. -/
def Memory.read : Memory → Nat → Option Byte
  | [], _ => none
  | (a', b) :: m, a => if a' = a then some b else Memory.read m a

/-- Store a byte, keeping the addresses strictly rising. -/
def Memory.write : Memory → Nat → Byte → Memory
  | [], a, b => [(a, b)]
  | (a', b') :: m, a, b =>
    if a < a' then (a, b) :: (a', b') :: m
    else if a = a' then (a, b) :: m
    else (a', b') :: Memory.write m a b

/-- `MemRead(S, addr, k)` (spec/00_scope.md R11); `none` if one of the bytes is not defined. -/
def Memory.readBytes (m : Memory) (a : Nat) : Nat → Option (List Byte)
  | 0 => some []
  | k + 1 =>
    match m.read a, Memory.readBytes m (a + 1) k with
    | some b, some bs => some (b :: bs)
    | _, _ => none

/-- `MemWrite(S, addr, k, bytes)`: the first list element at the lowest address (R11). -/
def Memory.writeBytes (m : Memory) (a : Nat) : List Byte → Memory
  | [] => m
  | b :: bs => Memory.writeBytes (m.write a b) (a + 1) bs

/-- The memory that holds exactly the list `bytes` from address `a` on. -/
def Memory.ofBytesAt (a : Nat) : List Byte → Memory
  | [] => []
  | b :: bs => (a, b) :: Memory.ofBytesAt (a + 1) bs

/-- The addresses are strictly rising: the canonical form. -/
def Memory.wf : Memory → Bool
  | [] => true
  | [_] => true
  | (a, _) :: (a', b') :: m => a < a' && Memory.wf ((a', b') :: m)

/-- `bit(S, p)`: the bit at stream bit position `p`, bit 7 − (p mod 8) of byte p div 8 (R10, R11). -/
def Memory.bit (m : Memory) (p : Nat) : Option Bool :=
  (m.read (p / 8)).map fun b => b.getLsbD (7 - p % 8)

/-! ### How a rule ends -/

/-- How a command's rule stops before `complete`: it raises an error status (R304), or it meets a byte
that is not defined (log 6). -/
inductive Stop where
  | raise (e : Status)
  | fault (f : Fault)
deriving DecidableEq, Repr

/-- The result of a part of a rule. -/
abbrev Result (α : Type) := Except Stop α

/-- A byte that must be defined. -/
def defined {α : Type} (f : Fault) : Option α → Result α
  | some x => .ok x
  | none => .error (.fault f)

/-! ### The Writer -/

/-- `W_LEN = W.offset + (1 if W.bitOffset ≠ 0 else 0)` (spec/10_state.md R33, C1). -/
def Writer.len (w : Writer) : Nat := w.offset + if w.bitOffset = 0 then 0 else 1

/-- The stream bit position of the cursor (R10, R30). -/
def Writer.position (w : Writer) : Nat := 8 * w.offset + w.bitOffset

/-- The byte address a byte-level write starts at: the cursor after auto-align
(spec/40_writer.md R130; spec/20_memory.md R68). -/
def Writer.start (w : Writer) : Nat := w.offset + if w.bitOffset = 0 then 0 else 1

/-- The loop of `Ensure`: `while c < k: c = min(2*c, W_CAP_MAX)` (R131), at most `fuel` times round.
`Writer.ensure` gives it `k` rounds, which are enough from any c ≥ 1 (log 9). -/
def growTo (capMax k : Nat) : (fuel : Nat) → (c : Nat) → Nat
  | 0, c => c
  | fuel + 1, c => if c < k then growTo capMax k fuel (min (2 * c) capMax) else c

/-- `Ensure(k)`: the capacity becomes at least `k` bytes, or `NoSpace` (R131). -/
def Writer.ensure (p : Params) (w : Writer) (k : Nat) : Result Writer :=
  if k ≤ w.cap then .ok w
  else if w.expand = false ∨ p.wCapMax < k then .error (.raise .noSpace)
  else .ok { w with cap := growTo p.wCapMax k k w.cap }

/-- `ByteWrite(bytes)`: align, ensure, store, advance (R130). -/
def Writer.byteWrite (p : Params) (w : Writer) (bytes : List Byte) : Result Writer :=
  match w.ensure p (w.start + bytes.length) with
  | .error e => .error e
  | .ok w' =>
    .ok { w' with
      mem := w'.mem.writeBytes w.start bytes
      offset := w.start + bytes.length
      bitOffset := 0 }

/-- The effect of `WALIGN` (R133). -/
def Writer.align (w : Writer) : Writer :=
  if w.bitOffset = 0 then w else { w with offset := w.offset + 1, bitOffset := 0 }

/-- Put one bit at stream bit position `q`: the byte is zeroed at its first bit, then the bit is ORed
in (R134, R135). -/
def Memory.putBit (m : Memory) (q : Nat) (bit : Bool) : Result Memory :=
  match if q % 8 = 0 then some 0 else m.read (q / 8) with
  | none => .error (.fault .undefinedWriterByte)
  | some old => .ok (m.write (q / 8) (old ||| ((BitVec.ofBool bit).setWidth 8 <<< (7 - q % 8))))

/-- The bit loop of `WBITS`: the `n` low bits of `v`, most significant first, from position `q` on
(R134). -/
def Memory.putBits (m : Memory) (q v : Nat) : Nat → Result Memory
  | 0 => .ok m
  | n + 1 =>
    match m.putBit q (v.testBit n) with
    | .error e => .error e
    | .ok m' => Memory.putBits m' (q + 1) v n

/-- `WBITS n, A` on the Writer (R134): `n = 0` asks for no capacity. -/
def Writer.writeBits (p : Params) (w : Writer) (n v : Nat) : Result Writer :=
  if Config.bitsMax < n then .error (.raise .invalidParameter)
  else if 2 ^ n ≤ v then .error (.raise .overflow)
  else
    match if n = 0 then .ok w else w.ensure p ((w.position + n + 7) / 8) with
    | .error e => .error e
    | .ok w' =>
      match w'.mem.putBits w.position v n with
      | .error e => .error e
      | .ok m =>
        .ok { w' with
          mem := m
          offset := (w.position + n) / 8
          bitOffset := (w.position + n) % 8 }

/-- An unsigned field of `k` bytes, or a float pattern of that width (R136 to R139, R144 to R147). -/
def Writer.writeUnsigned (p : Params) (w : Writer) (k : Nat) (a : Word) : Result Writer :=
  if 2 ^ (8 * k) ≤ a.toNat then .error (.raise .overflow) else w.byteWrite p (bytesBE a.toNat k)

/-- A signed field of `k` bytes: its two's complement pattern (R140 to R143). -/
def Writer.writeSigned (p : Params) (w : Writer) (k : Nat) (a : Word) : Result Writer :=
  if inSignedRange (8 * k) a.toInt then w.byteWrite p (bytesBE a.toNat k)
  else .error (.raise .overflow)

/-- `WBUF n, A, PIN` on the Writer: prefix of `n` bytes, then the payload (R150). -/
def Writer.writeBuffer (p : Params) (w : Writer) (n : Nat) (a : Word) (pin : List Byte) :
    Result Writer :=
  if n ∉ Config.prefixWidths then .error (.raise .invalidParameter)
  else if 0 < n ∧ 2 ^ (8 * n) ≤ a.toNat then .error (.raise .overflow)
  else w.byteWrite p (bytesBE a.toNat n ++ pin)

/-- The written bytes `WB[0 .. W_LEN)` (spec/44_system.md R281, R282). -/
def Writer.view (w : Writer) : Result (List Byte) :=
  defined .undefinedWriterByte (w.mem.readBytes 0 w.len)

/-- A fresh Writer of the same configuration: no byte defined, cursors 0 (R282). -/
def Writer.restart (w : Writer) : Writer := { w with offset := 0, bitOffset := 0, mem := [] }

/-! ### The Reader -/

/-- The stream bit position of the cursor (R10, R37). -/
def Reader.position (r : Reader) : Nat := 8 * r.offset + r.bitOffset

/-- The byte address a byte-level read starts at: the cursor after auto-align
(spec/41_reader.md R170). -/
def Reader.start (r : Reader) : Nat := r.offset + if r.bitOffset = 0 then 0 else 1

/-- `R_REMBITS = 8·(R.len − R.offset) − R.bitOffset` (spec/10_state.md R41). -/
def Reader.remainingBits (r : Reader) : Nat := 8 * (r.len - r.offset) - r.bitOffset

/-- The cursor at a byte boundary. -/
def Reader.seekByte (r : Reader) (a : Nat) : Reader := { r with offset := a, bitOffset := 0 }

/-- What a Reader command returns, with the Reader as it is when the cursor advances. -/
structure Reading where
  reader : Reader
  q : Word
  pout : List Byte
deriving DecidableEq, Repr

/-- `ByteRead(k, false)`: the next `k` bytes after alignment, and the advanced Reader (R170). -/
def Reader.byteRead (r : Reader) (k : Nat) : Result (List Byte × Reader) :=
  if r.len < r.start + k then .error (.raise .outOfBounds)
  else
    match r.mem.readBytes r.start k with
    | none => .error (.fault .undefinedReaderByte)
    | some bytes => .ok (bytes, r.seekByte (r.start + k))

/-- The effect of `RALIGN` (R171). -/
def Reader.align (r : Reader) : Reader :=
  if r.bitOffset = 0 then r else r.seekByte (r.offset + 1)

/-- The bit loop of `RBITS`: `v = 2*v + bit(RB, p + i)`, first bit most significant (R172). -/
def Memory.getBits (m : Memory) (p v : Nat) : Nat → Option Nat
  | 0 => some v
  | n + 1 =>
    match m.bit p with
    | none => none
    | some b => Memory.getBits m (p + 1) (2 * v + b.toNat) n

/-- `RBITS n` on the Reader (R172). -/
def Reader.readBits (r : Reader) (n : Nat) : Result Reading :=
  if Config.bitsMax < n then .error (.raise .invalidParameter)
  else if 8 * r.len < r.position + n then .error (.raise .outOfBounds)
  else
    match r.mem.getBits r.position 0 n with
    | none => .error (.fault .undefinedReaderByte)
    | some v =>
      .ok { reader := { r with offset := (r.position + n) / 8, bitOffset := (r.position + n) % 8 }
            q := BitVec.ofNat 64 v
            pout := [] }

/-- An unsigned field of `k` bytes, or a float pattern, zero-extended (R173 to R176, R181 to R183). -/
def Reader.readUnsigned (r : Reader) (k : Nat) : Result Reading :=
  match r.byteRead k with
  | .error e => .error e
  | .ok (bytes, r') => .ok { reader := r', q := BitVec.ofNat 64 (be bytes), pout := [] }

/-- A signed field of `k` bytes, sign-extended to 64 bits (R177 to R180). -/
def Reader.readSigned (r : Reader) (k : Nat) : Result Reading :=
  match r.byteRead k with
  | .error e => .error e
  | .ok (bytes, r') => .ok { reader := r', q := sext64 (be bytes) (8 * k), pout := [] }

/-- The length of a buffer about to be read: its prefix of `n` bytes at the aligned cursor, or the
operand A where there is none (R184). -/
def Reader.bufferLength (r : Reader) (n : Nat) (a : Word) : Result Nat :=
  if 0 < n then
    match r.mem.readBytes r.start n with
    | none => .error (.fault .undefinedReaderByte)
    | some bytes => .ok (be bytes)
  else .ok a.toNat

/-- `RBUF n, A` on the Reader (R184). -/
def Reader.readBuffer (r : Reader) (n : Nat) (a : Word) : Result Reading :=
  if n ∉ Config.prefixWidths then .error (.raise .invalidParameter)
  else if r.len < r.start + n then .error (.raise .outOfBounds)
  else
    match r.bufferLength n a with
    | .error e => .error e
    | .ok len =>
      if r.len < r.start + n + len then .error (.raise .outOfBounds)
      else
        match r.mem.readBytes (r.start + n) len with
        | none => .error (.fault .undefinedReaderByte)
        | some bytes =>
          .ok { reader := r.seekByte (r.start + n + len), q := BitVec.ofNat 64 len, pout := bytes }

/-- A Reader over the bytes `bytes` (spec/44_system.md R282, R286). -/
def Reader.load (bytes : List Byte) : Reader :=
  { offset := 0, bitOffset := 0, len := bytes.length, mem := Memory.ofBytesAt 0 bytes }

/-! ### Completion -/

/-- What a command's rule hands to `complete(q, pout)`: the state with the rule's writes made. -/
structure Effect where
  state : State
  q : Word
  pout : List Byte
deriving DecidableEq, Repr

/-- `complete(q, pout)`: the common success completion (R304).  The command's operands leave with it:
the state keeps no copy (R21, R23). -/
def State.complete (s : State) (q : Word) (pout : List Byte) : State :=
  { s with
    status := s.status.succeed
    q := q
    op := .absent
    completions := s.completions ++ [{ st := .ok, q := q, pout := pout }] }

/-- `raise E`: the common error completion.  It is the machine's one way of taking an error: nothing
but STATUS and Q changes, Q is 0 and the completion carries the status alone (R304, R310).  The command's operands leave with it. -/
def State.raise (s : State) (e : Status) : State :=
  { s with
    status := s.status.fail e
    q := 0
    op := .absent
    completions := s.completions ++ [{ st := e, q := 0, pout := [] }] }

/-- How the result of a rule ends the command begun in `s`: all of its writes or none (R72, R304). -/
def State.finish (s : State) : Result Effect → Host.Outcome State Fault Refusal
  | .ok e => .next (e.state.complete e.q e.pout)
  | .error (.raise st) => .next (s.raise st)
  | .error (.fault f) => .fault f

/-- A command: test 4 of R106, the payload framing, then the command's own rule. -/
def State.perform (s : State) (framed : Bool) (rule : Result Effect) :
    Host.Outcome State Fault Refusal :=
  s.finish (if framed then rule else .error (.raise .illegalCommand))

/-- A rule that writes the Writer only and returns nothing. -/
def State.writing (s : State) : Result Writer → Result Effect
  | .ok w => .ok { state := { s with w := w }, q := 0, pout := [] }
  | .error e => .error e

/-- A rule of the Reader; with `peek` the cursor does not move (spec/41_reader.md R186). -/
def State.reading (s : State) (peek : Bool) : Result Reading → Result Effect
  | .ok d => .ok { state := if peek then s else { s with r := d.reader }, q := d.q, pout := d.pout }
  | .error e => .error e

/-- A rule of unit P: a value from the operands, no state. -/
def State.computing (s : State) : Result Word → Result Effect
  | .ok q => .ok { state := s, q := q, pout := [] }
  | .error e => .error e

/-! ### The command port -/

/-- The host's next event, and the state with it taken off the list. -/
def State.takeEvent (s : State) : Option (HostEvent × State) :=
  match s.pending with
  | [] => none
  | e :: rest => some (e, { s with pending := rest })

/-- The command is in execution: its operands are there to be read until it completes (spec/10_state.md
R21, R23; log 3). -/
def State.latch (s : State) (c : Command) : State :=
  { s with op := { a := c.a, b := c.b, pin := c.pin } }

/-- Reset as an event: the block goes to the reset state whatever it was (R340); the parameters, and
what the host still holds and has received, are not the block's (log 5). -/
def State.hostReset (s : State) : State :=
  { State.resetWith s.params with pending := s.pending, completions := s.completions }

end Sys2Proof.Machine
end

