-- ==== Sys2Proof/Machine/PeekCommands.lean ====
section
/-! DEFINITION. The peeks but the varints': the read command's rule with the cursor left where it is
(spec/41_reader.md R186 to R199). -/

namespace Sys2Proof.Machine

/-- `PBITS n`: peek an n-bit field (R187). -/
def execPbits (n : Count) (s : State) : Host.Outcome State Fault Refusal :=
  s.perform s.op.noPayload (s.reading true (s.r.readBits n.toNat))

/-- `PU8`: peek an unsigned 8-bit integer (R189). -/
def execPu8 (s : State) : Host.Outcome State Fault Refusal :=
  s.perform s.op.noPayload (s.reading true (s.r.readUnsigned 1))

/-- `PU16`: peek an unsigned 16-bit integer (R190). -/
def execPu16 (s : State) : Host.Outcome State Fault Refusal :=
  s.perform s.op.noPayload (s.reading true (s.r.readUnsigned 2))

/-- `PU32`: peek an unsigned 32-bit integer (R191). -/
def execPu32 (s : State) : Host.Outcome State Fault Refusal :=
  s.perform s.op.noPayload (s.reading true (s.r.readUnsigned 4))

/-- `PU64`: peek an unsigned 64-bit integer (R192). -/
def execPu64 (s : State) : Host.Outcome State Fault Refusal :=
  s.perform s.op.noPayload (s.reading true (s.r.readUnsigned 8))

/-- `PI8`: peek a signed 8-bit integer (R193). -/
def execPi8 (s : State) : Host.Outcome State Fault Refusal :=
  s.perform s.op.noPayload (s.reading true (s.r.readSigned 1))

/-- `PI16`: peek a signed 16-bit integer (R194). -/
def execPi16 (s : State) : Host.Outcome State Fault Refusal :=
  s.perform s.op.noPayload (s.reading true (s.r.readSigned 2))

/-- `PI32`: peek a signed 32-bit integer (R195). -/
def execPi32 (s : State) : Host.Outcome State Fault Refusal :=
  s.perform s.op.noPayload (s.reading true (s.r.readSigned 4))

/-- `PI64`: peek a signed 64-bit integer (R196). -/
def execPi64 (s : State) : Host.Outcome State Fault Refusal :=
  s.perform s.op.noPayload (s.reading true (s.r.readSigned 8))

/-- `PF16`: peek a binary16 pattern (R197). -/
def execPf16 (s : State) : Host.Outcome State Fault Refusal :=
  s.perform s.op.noPayload (s.reading true (s.r.readUnsigned 2))

/-- `PF32`: peek a binary32 pattern (R198). -/
def execPf32 (s : State) : Host.Outcome State Fault Refusal :=
  s.perform s.op.noPayload (s.reading true (s.r.readUnsigned 4))

/-- `PF64`: peek a binary64 pattern (R199). -/
def execPf64 (s : State) : Host.Outcome State Fault Refusal :=
  s.perform s.op.noPayload (s.reading true (s.r.readUnsigned 8))

/-- `PBUF n, A`: peek a buffer (R188). -/
def execPbuf (n : Count) (s : State) : Host.Outcome State Fault Refusal :=
  s.perform s.op.noPayload (s.reading true (s.r.readBuffer n.toNat s.op.a))

end Sys2Proof.Machine
end

