-- ==== Sys2Proof/Machine/Precision.lean ====
section
/-! DEFINITION. The quantized fixed-point codec: `TOPREC` and `FROMPREC` (spec/43_precision.md R261 to
R265).  Real values are held exactly, as whole numbers or fractions of the unit 2^(−1074) (log 8). -/

namespace Sys2Proof.Machine

/-- `quant(c, M, n)` = floor(c / M · (2^n − 1) + 1/2) in exact arithmetic (R261), `c` and `M` in one
unit: floor((2·c·(2^n − 1) + M) / (2·M)). -/
def quant (c M n : Nat) : Nat := (2 * c * (2 ^ n - 1) + M) / (2 * M)

/-- The rounded significand `r` of `rne64` (R263): num / (den · 2^x) to the nearest integer, ties to
the even one. -/
def roundHalfEven (num den : Nat) : Nat :=
  let r := num / den
  let d := num % den
  if den < 2 * d ∨ (2 * d = den ∧ r % 2 = 1) then r + 1 else r

/-- `rne64(y)` for y = (num / den) · 2^(−1074) (R263).  Here `x` is the spec's exponent plus 1074:
max(E, −1022) − 52 with E = floor(log2 y), so E + 1074 = floor(log2 (num / den)) where num ≥ den, and
x = 0 below 2^52 units. -/
def rne64 (num den : Nat) : Word :=
  let x := (num / den).log2 - 52
  let r := roundHalfEven num (den * 2 ^ x)
  if r = 2 ^ 53 then BitVec.ofNat 64 ((x + 2) * 2 ^ 52)
  else if r < 2 ^ 52 then BitVec.ofNat 64 r
  else BitVec.ofNat 64 ((x + 1) * 2 ^ 52 + (r - 2 ^ 52))

/-- `rne64(dequant(q, M, n))` with dequant(q, M, n) = q / (2^n − 1) · M (R262), M in units of
2^(−1074). -/
def dequantWord (q M n : Nat) : Word := rne64 (q * M) (2 ^ n - 1)

/-- The value of `TOPREC n, A, B` (R264): the width, `maxValue` and NaN are tested in that order. -/
def toPrecision (n : Nat) (a b : Word) : Result Word :=
  if n < 1 ∨ Config.precMax < n then .error (.raise .invalidParameter)
  else
    match maxValueOf b with
    | none => .error (.raise .invalidParameter)
    | some M =>
      match clampedValue a M with
      | none => .error (.raise .invalidParameter)
      | some c => .ok (BitVec.ofNat 64 (quant c M n))

/-- The value of `FROMPREC n, A, B` (R265): parameters before the range of A. -/
def fromPrecision (n : Nat) (a b : Word) : Result Word :=
  if n < 1 ∨ Config.precMax < n then .error (.raise .invalidParameter)
  else
    match maxValueOf b with
    | none => .error (.raise .invalidParameter)
    | some M =>
      if 2 ^ n - 1 < a.toNat then .error (.raise .overflow)
      else .ok (dequantWord a.toNat M n)

/-- `TOPREC n, A, B`: quantize a bounded value (R264). -/
def execToprec (n : Count) (s : State) : Host.Outcome State Fault Refusal :=
  s.perform s.op.noPayload (s.computing (toPrecision n.toNat s.op.a s.op.b))

/-- `FROMPREC n, A, B`: reconstruct a value from its quantized integer (R265). -/
def execFromprec (n : Count) (s : State) : Host.Outcome State Fault Refusal :=
  s.perform s.op.noPayload (s.computing (fromPrecision n.toNat s.op.a s.op.b))

end Sys2Proof.Machine
end

