-- ==== Sys2Proof/Machine/ReaderCommands.lean ====
section
/-! DEFINITION. The Reader's data commands but the varints: `RALIGN`, `RBITS`, the fixed-width and float
reads, `RBUF` (spec/41_reader.md R171 to R184). -/

namespace Sys2Proof.Machine

/-- `RALIGN`: force the Reader to a byte boundary (R171). -/
def execRalign (s : State) : Host.Outcome State Fault Refusal :=
  s.perform s.op.noPayload
    (s.reading false (.ok { reader := s.r.align, q := 0, pout := [] }))

/-- `RBITS n`: read an n-bit field (R172). -/
def execRbits (n : Count) (s : State) : Host.Outcome State Fault Refusal :=
  s.perform s.op.noPayload (s.reading false (s.r.readBits n.toNat))

/-- `RU8`: read an unsigned 8-bit integer (R173). -/
def execRu8 (s : State) : Host.Outcome State Fault Refusal :=
  s.perform s.op.noPayload (s.reading false (s.r.readUnsigned 1))

/-- `RU16`: read an unsigned 16-bit integer (R174). -/
def execRu16 (s : State) : Host.Outcome State Fault Refusal :=
  s.perform s.op.noPayload (s.reading false (s.r.readUnsigned 2))

/-- `RU32`: read an unsigned 32-bit integer (R175). -/
def execRu32 (s : State) : Host.Outcome State Fault Refusal :=
  s.perform s.op.noPayload (s.reading false (s.r.readUnsigned 4))

/-- `RU64`: read an unsigned 64-bit integer (R176). -/
def execRu64 (s : State) : Host.Outcome State Fault Refusal :=
  s.perform s.op.noPayload (s.reading false (s.r.readUnsigned 8))

/-- `RI8`: read a signed 8-bit integer (R177). -/
def execRi8 (s : State) : Host.Outcome State Fault Refusal :=
  s.perform s.op.noPayload (s.reading false (s.r.readSigned 1))

/-- `RI16`: read a signed 16-bit integer (R178). -/
def execRi16 (s : State) : Host.Outcome State Fault Refusal :=
  s.perform s.op.noPayload (s.reading false (s.r.readSigned 2))

/-- `RI32`: read a signed 32-bit integer (R179). -/
def execRi32 (s : State) : Host.Outcome State Fault Refusal :=
  s.perform s.op.noPayload (s.reading false (s.r.readSigned 4))

/-- `RI64`: read a signed 64-bit integer (R180). -/
def execRi64 (s : State) : Host.Outcome State Fault Refusal :=
  s.perform s.op.noPayload (s.reading false (s.r.readSigned 8))

/-- `RF16`: read a binary16 pattern (R181). -/
def execRf16 (s : State) : Host.Outcome State Fault Refusal :=
  s.perform s.op.noPayload (s.reading false (s.r.readUnsigned 2))

/-- `RF32`: read a binary32 pattern (R182). -/
def execRf32 (s : State) : Host.Outcome State Fault Refusal :=
  s.perform s.op.noPayload (s.reading false (s.r.readUnsigned 4))

/-- `RF64`: read a binary64 pattern (R183). -/
def execRf64 (s : State) : Host.Outcome State Fault Refusal :=
  s.perform s.op.noPayload (s.reading false (s.r.readUnsigned 8))

/-- `RBUF n, A`: read a byte buffer with an optional length prefix (R184). -/
def execRbuf (n : Count) (s : State) : Host.Outcome State Fault Refusal :=
  s.perform s.op.noPayload (s.reading false (s.r.readBuffer n.toNat s.op.a))

end Sys2Proof.Machine
end

