-- ==== Sys2Proof/Machine/System.lean ====
section
/-! DEFINITION. The system commands `RDCSR`, `CLRERR`, `WINIT`, `WVIEW`, `HANDOFF`, `RLOAD`
(spec/44_system.md R280 to R288). -/

namespace Sys2Proof.Machine

/-- The register `CSR[n]`, each at its width and zero above it (spec/10_state.md R28); `none` above
index 9. -/
def State.csr (s : State) (n : Nat) : Option Word :=
  match n with
  | 0 => some s.status.word
  | 1 => some ((BitVec.ofNat 32 s.w.offset).setWidth 64)
  | 2 => some ((BitVec.ofNat 3 s.w.bitOffset).setWidth 64)
  | 3 => some ((BitVec.ofNat 32 s.w.cap).setWidth 64)
  | 4 => some ((BitVec.ofBool s.w.expand).setWidth 64)
  | 5 => some ((BitVec.ofNat 32 s.w.len).setWidth 64)
  | 6 => some ((BitVec.ofNat 32 s.r.offset).setWidth 64)
  | 7 => some ((BitVec.ofNat 3 s.r.bitOffset).setWidth 64)
  | 8 => some ((BitVec.ofNat 32 s.r.len).setWidth 64)
  | 9 => some ((BitVec.ofNat 36 s.r.remainingBits).setWidth 64)
  | _ => none

/-- The value of `RDCSR n`, as the register was before the command (R287). -/
def State.readCsr (s : State) (n : Nat) : Result Word :=
  match s.csr n with
  | none => .error (.raise .invalidParameter)
  | some v => .ok v

/-- `WINIT n, A`: a new, empty message (R280). -/
def Writer.init (p : Params) (n : Nat) (a : Word) : Result Writer :=
  let cap := if a.toNat = 0 then p.wCapInit else a.toNat
  if 1 < n then .error (.raise .invalidParameter)
  else if p.wCapMax < cap then .error (.raise .invalidParameter)
  else .ok { offset := 0, bitOffset := 0, cap := cap, expand := n == 1, mem := [] }

/-- The rule of `WVIEW` (R281). -/
def State.viewRule (s : State) : Result Effect :=
  match s.w.view with
  | .error e => .error e
  | .ok bytes => .ok { state := s, q := BitVec.ofNat 64 s.w.len, pout := bytes }

/-- The rule of `HANDOFF`: copy the written bytes into the Reader, restart the Writer (R282). -/
def State.handoffRule (s : State) : Result Effect :=
  if s.params.rCapMax < s.w.len then .error (.raise .noSpace)
  else
    match s.w.view with
    | .error e => .error e
    | .ok bytes =>
      .ok { state := { s with r := Reader.load bytes, w := s.w.restart }
            q := BitVec.ofNat 64 s.w.len
            pout := [] }

/-- The rule of `RLOAD` (R286); the framing test has made |PIN| = A. -/
def State.loadRule (s : State) : Result Effect :=
  if s.params.rCapMax < s.op.a.toNat then .error (.raise .noSpace)
  else .ok { state := { s with r := Reader.load s.op.pin }, q := 0, pout := [] }

/-- The rule of `CLRERR` (R288). -/
def State.clearRule (s : State) : Result Effect :=
  .ok { state := { s with status := s.status.clearSeen }, q := 0, pout := [] }

/-- `RDCSR n`: read a register (R287). -/
def execRdcsr (n : Count) (s : State) : Host.Outcome State Fault Refusal :=
  s.perform s.op.noPayload (s.computing (s.readCsr n.toNat))

/-- `CLRERR`: clear the sticky error bit (R288). -/
def execClrerr (s : State) : Host.Outcome State Fault Refusal :=
  s.perform s.op.noPayload s.clearRule

/-- `WINIT n, A`: create a Writer (R280). -/
def execWinit (n : Count) (s : State) : Host.Outcome State Fault Refusal :=
  s.perform s.op.noPayload (s.writing (Writer.init s.params n.toNat s.op.a))

/-- `WVIEW`: return the written bytes (R281). -/
def execWview (s : State) : Host.Outcome State Fault Refusal :=
  s.perform s.op.noPayload s.viewRule

/-- `HANDOFF`: give the written bytes to the Reader (R282). -/
def execHandoff (s : State) : Host.Outcome State Fault Refusal :=
  s.perform s.op.noPayload s.handoffRule

/-- `RLOAD A, PIN`: create a Reader over the host's bytes (R286). -/
def execRload (s : State) : Host.Outcome State Fault Refusal :=
  s.perform s.op.payloadOfLengthA s.loadRule

end Sys2Proof.Machine
end

