-- ==== Sys2Proof/Machine/Varint.lean ====
section
/-! DEFINITION. LEB128 and zigzag (spec/42_varint_zigzag.md R230 to R234) and the commands built on them:
`WVARU`, `WVARS`, `RVARU`, `RVARS`, `PVARU`, `PVARS`, `ZIGZAG`, `UNZIGZAG` (R236 to R243). -/

namespace Sys2Proof.Machine

/-- The loop of `leb(u)` (R230), at most `fuel` times round. -/
def lebGroups : (fuel : Nat) → (u : Nat) → List Byte
  | 0, _ => []
  | fuel + 1, u =>
    if u / 128 = 0 then [BitVec.ofNat 8 (u % 128)]
    else BitVec.ofNat 8 (u % 128 + 128) :: lebGroups fuel (u / 128)

/-- `leb(u)`: low 7 bits first, bit 7 set on every byte but the last (R230).  A round consumes 7 bits,
so as many rounds as `u` has bits are enough (log 9). -/
def leb (u : Nat) : List Byte := lebGroups (u.log2 + 1) u

/-- `unleb(S, start, limit)` (R231) with `k = limit − start` bytes left to scan: the decoded value, a
mathematical integer of any size, and the number of bytes consumed. -/
def unleb (m : Memory) (start : Nat) : (k : Nat) → Result (Nat × Nat)
  | 0 => .error (.raise .outOfBounds)
  | k + 1 =>
    match m.read start with
    | none => .error (.fault .undefinedReaderByte)
    | some b =>
      if b.toNat < 128 then .ok (b.toNat, 1)
      else
        match unleb m (start + 1) k with
        | .error e => .error e
        | .ok (v, i) => .ok (b.toNat % 128 + 128 * v, i + 1)

/-- `zz(s)`: ((s << 1) mod 2^VARW) XOR (s >> (VARW − 1)), the shift arithmetic (R233). -/
def zz (varw : Nat) (s : Int) : Nat :=
  ((patternOf varw s * 2) % 2 ^ varw) ^^^ (if s < 0 then 2 ^ varw - 1 else 0)

/-- `unzz(u)`: signed_VARW((u >> 1) XOR (2^VARW − 1 if u is odd else 0)) (R234). -/
def unzz (varw u : Nat) : Int :=
  signedOf varw ((u / 2) ^^^ (if u % 2 = 1 then 2 ^ varw - 1 else 0))

/-- The 64-bit two's complement pattern of the signed result of `unzz` (R239, R243; log 10). -/
def unzzWord (varw u : Nat) : Word := BitVec.ofInt 64 (unzz varw u)

/-- `WVARU` on the Writer (R236). -/
def Writer.writeVarUnsigned (p : Params) (w : Writer) (a : Word) : Result Writer :=
  if 2 ^ p.varw ≤ a.toNat then .error (.raise .overflow) else w.byteWrite p (leb a.toNat)

/-- `WVARS` on the Writer (R237). -/
def Writer.writeVarSigned (p : Params) (w : Writer) (a : Word) : Result Writer :=
  if inSignedRange p.varw a.toInt then w.byteWrite p (leb (zz p.varw a.toInt))
  else .error (.raise .overflow)

/-- The varint at the aligned cursor and the advanced Reader; the range test comes after the scan
(R238, R239, R307). -/
def Reader.readVarint (p : Params) (r : Reader) : Result (Nat × Reader) :=
  match unleb r.mem r.start (r.len - r.start) with
  | .error e => .error e
  | .ok (v, k) =>
    if 2 ^ p.varw ≤ v then .error (.raise .overflow) else .ok (v, r.seekByte (r.start + k))

/-- `RVARU` on the Reader (R238). -/
def Reader.readVarUnsigned (p : Params) (r : Reader) : Result Reading :=
  match r.readVarint p with
  | .error e => .error e
  | .ok (v, r') => .ok { reader := r', q := BitVec.ofNat 64 v, pout := [] }

/-- `RVARS` on the Reader (R239). -/
def Reader.readVarSigned (p : Params) (r : Reader) : Result Reading :=
  match r.readVarint p with
  | .error e => .error e
  | .ok (v, r') => .ok { reader := r', q := unzzWord p.varw v, pout := [] }

/-- The value of `ZIGZAG` (R242). -/
def zigzagValue (p : Params) (a : Word) : Result Word :=
  if inSignedRange p.varw a.toInt then .ok (BitVec.ofNat 64 (zz p.varw a.toInt))
  else .error (.raise .overflow)

/-- The value of `UNZIGZAG` (R243). -/
def unzigzagValue (p : Params) (a : Word) : Result Word :=
  if 2 ^ p.varw ≤ a.toNat then .error (.raise .overflow) else .ok (unzzWord p.varw a.toNat)

/-- `WVARU`: write an unsigned varint (R236). -/
def execWvaru (s : State) : Host.Outcome State Fault Refusal :=
  s.perform s.op.noPayload (s.writing (s.w.writeVarUnsigned s.params s.op.a))

/-- `WVARS`: write a signed varint (R237). -/
def execWvars (s : State) : Host.Outcome State Fault Refusal :=
  s.perform s.op.noPayload (s.writing (s.w.writeVarSigned s.params s.op.a))

/-- `RVARU`: read an unsigned varint (R238). -/
def execRvaru (s : State) : Host.Outcome State Fault Refusal :=
  s.perform s.op.noPayload (s.reading false (s.r.readVarUnsigned s.params))

/-- `RVARS`: read a signed varint (R239). -/
def execRvars (s : State) : Host.Outcome State Fault Refusal :=
  s.perform s.op.noPayload (s.reading false (s.r.readVarSigned s.params))

/-- `PVARU`: peek an unsigned varint (R240). -/
def execPvaru (s : State) : Host.Outcome State Fault Refusal :=
  s.perform s.op.noPayload (s.reading true (s.r.readVarUnsigned s.params))

/-- `PVARS`: peek a signed varint (R241). -/
def execPvars (s : State) : Host.Outcome State Fault Refusal :=
  s.perform s.op.noPayload (s.reading true (s.r.readVarSigned s.params))

/-- `ZIGZAG`: map a signed integer to its code (R242). -/
def execZigzag (s : State) : Host.Outcome State Fault Refusal :=
  s.perform s.op.noPayload (s.computing (zigzagValue s.params s.op.a))

/-- `UNZIGZAG`: map a code back to the signed integer (R243). -/
def execUnzigzag (s : State) : Host.Outcome State Fault Refusal :=
  s.perform s.op.noPayload (s.computing (unzigzagValue s.params s.op.a))

end Sys2Proof.Machine
end

