-- ==== Sys2Proof/Machine/WriterCommands.lean ====
section
/-! DEFINITION. The Writer's data commands but the varints: `WALIGN`, `WBITS`, the fixed-width and float
writes, `WBUF` (spec/40_writer.md R133 to R150). -/

namespace Sys2Proof.Machine

/-- `WALIGN`: force the Writer to a byte boundary (R133). -/
def execWalign (s : State) : Host.Outcome State Fault Refusal :=
  s.perform s.op.noPayload (s.writing (.ok s.w.align))

/-- `WBITS n, A`: write an n-bit field (R134). -/
def execWbits (n : Count) (s : State) : Host.Outcome State Fault Refusal :=
  s.perform s.op.noPayload (s.writing (s.w.writeBits s.params n.toNat s.op.a.toNat))

/-- `WU8 A`: write an unsigned 8-bit integer (R136). -/
def execWu8 (s : State) : Host.Outcome State Fault Refusal :=
  s.perform s.op.noPayload (s.writing (s.w.writeUnsigned s.params 1 s.op.a))

/-- `WU16 A`: write an unsigned 16-bit integer (R137). -/
def execWu16 (s : State) : Host.Outcome State Fault Refusal :=
  s.perform s.op.noPayload (s.writing (s.w.writeUnsigned s.params 2 s.op.a))

/-- `WU32 A`: write an unsigned 32-bit integer (R138). -/
def execWu32 (s : State) : Host.Outcome State Fault Refusal :=
  s.perform s.op.noPayload (s.writing (s.w.writeUnsigned s.params 4 s.op.a))

/-- `WU64 A`: write an unsigned 64-bit integer (R139). -/
def execWu64 (s : State) : Host.Outcome State Fault Refusal :=
  s.perform s.op.noPayload (s.writing (s.w.writeUnsigned s.params 8 s.op.a))

/-- `WI8 A`: write a signed 8-bit integer (R140). -/
def execWi8 (s : State) : Host.Outcome State Fault Refusal :=
  s.perform s.op.noPayload (s.writing (s.w.writeSigned s.params 1 s.op.a))

/-- `WI16 A`: write a signed 16-bit integer (R141). -/
def execWi16 (s : State) : Host.Outcome State Fault Refusal :=
  s.perform s.op.noPayload (s.writing (s.w.writeSigned s.params 2 s.op.a))

/-- `WI32 A`: write a signed 32-bit integer (R142). -/
def execWi32 (s : State) : Host.Outcome State Fault Refusal :=
  s.perform s.op.noPayload (s.writing (s.w.writeSigned s.params 4 s.op.a))

/-- `WI64 A`: write a signed 64-bit integer (R143). -/
def execWi64 (s : State) : Host.Outcome State Fault Refusal :=
  s.perform s.op.noPayload (s.writing (s.w.writeSigned s.params 8 s.op.a))

/-- `WF16 A`: write a binary16 pattern (R144, R147). -/
def execWf16 (s : State) : Host.Outcome State Fault Refusal :=
  s.perform s.op.noPayload (s.writing (s.w.writeUnsigned s.params 2 s.op.a))

/-- `WF32 A`: write a binary32 pattern (R145, R147). -/
def execWf32 (s : State) : Host.Outcome State Fault Refusal :=
  s.perform s.op.noPayload (s.writing (s.w.writeUnsigned s.params 4 s.op.a))

/-- `WF64 A`: write a binary64 pattern (R146, R147). -/
def execWf64 (s : State) : Host.Outcome State Fault Refusal :=
  s.perform s.op.noPayload (s.writing (s.w.writeUnsigned s.params 8 s.op.a))

/-- `WBUF n, A, PIN`: write a byte buffer with an optional length prefix (R150). -/
def execWbuf (n : Count) (s : State) : Host.Outcome State Fault Refusal :=
  s.perform s.op.payloadOfLengthA
    (s.writing (s.w.writeBuffer s.params n.toNat s.op.a s.op.pin))

end Sys2Proof.Machine
end

