-- ==== Sys2Proof/Machine/Dispatch.lean ====
section
/-! DEFINITION. The dispatch of a command to its meaning: one arm per constructor of `Instr`. -/

namespace Sys2Proof.Machine

/-- The command `i` executed in `s`, whose `op` holds the command's A, B and PIN. -/
def exec (i : Instr) (s : State) : Host.Outcome State Fault Refusal :=
  match i with
  | .rdcsr n => Sys2Proof.Machine.execRdcsr n s
  | .clrerr => Sys2Proof.Machine.execClrerr s
  | .winit n => Sys2Proof.Machine.execWinit n s
  | .walign => Sys2Proof.Machine.execWalign s
  | .wbits n => Sys2Proof.Machine.execWbits n s
  | .wvaru => Sys2Proof.Machine.execWvaru s
  | .wvars => Sys2Proof.Machine.execWvars s
  | .wbuf n => Sys2Proof.Machine.execWbuf n s
  | .wview => Sys2Proof.Machine.execWview s
  | .handoff => Sys2Proof.Machine.execHandoff s
  | .wu8 => Sys2Proof.Machine.execWu8 s
  | .wu16 => Sys2Proof.Machine.execWu16 s
  | .wu32 => Sys2Proof.Machine.execWu32 s
  | .wu64 => Sys2Proof.Machine.execWu64 s
  | .wi8 => Sys2Proof.Machine.execWi8 s
  | .wi16 => Sys2Proof.Machine.execWi16 s
  | .wi32 => Sys2Proof.Machine.execWi32 s
  | .wi64 => Sys2Proof.Machine.execWi64 s
  | .wf16 => Sys2Proof.Machine.execWf16 s
  | .wf32 => Sys2Proof.Machine.execWf32 s
  | .wf64 => Sys2Proof.Machine.execWf64 s
  | .rload => Sys2Proof.Machine.execRload s
  | .ralign => Sys2Proof.Machine.execRalign s
  | .rbits n => Sys2Proof.Machine.execRbits n s
  | .rvaru => Sys2Proof.Machine.execRvaru s
  | .rvars => Sys2Proof.Machine.execRvars s
  | .rbuf n => Sys2Proof.Machine.execRbuf n s
  | .ru8 => Sys2Proof.Machine.execRu8 s
  | .ru16 => Sys2Proof.Machine.execRu16 s
  | .ru32 => Sys2Proof.Machine.execRu32 s
  | .ru64 => Sys2Proof.Machine.execRu64 s
  | .ri8 => Sys2Proof.Machine.execRi8 s
  | .ri16 => Sys2Proof.Machine.execRi16 s
  | .ri32 => Sys2Proof.Machine.execRi32 s
  | .ri64 => Sys2Proof.Machine.execRi64 s
  | .rf16 => Sys2Proof.Machine.execRf16 s
  | .rf32 => Sys2Proof.Machine.execRf32 s
  | .rf64 => Sys2Proof.Machine.execRf64 s
  | .pbits n => Sys2Proof.Machine.execPbits n s
  | .pvaru => Sys2Proof.Machine.execPvaru s
  | .pvars => Sys2Proof.Machine.execPvars s
  | .pbuf n => Sys2Proof.Machine.execPbuf n s
  | .pu8 => Sys2Proof.Machine.execPu8 s
  | .pu16 => Sys2Proof.Machine.execPu16 s
  | .pu32 => Sys2Proof.Machine.execPu32 s
  | .pu64 => Sys2Proof.Machine.execPu64 s
  | .pi8 => Sys2Proof.Machine.execPi8 s
  | .pi16 => Sys2Proof.Machine.execPi16 s
  | .pi32 => Sys2Proof.Machine.execPi32 s
  | .pi64 => Sys2Proof.Machine.execPi64 s
  | .pf16 => Sys2Proof.Machine.execPf16 s
  | .pf32 => Sys2Proof.Machine.execPf32 s
  | .pf64 => Sys2Proof.Machine.execPf64 s
  | .toprec n => Sys2Proof.Machine.execToprec n s
  | .fromprec n => Sys2Proof.Machine.execFromprec n s
  | .zigzag => Sys2Proof.Machine.execZigzag s
  | .unzigzag => Sys2Proof.Machine.execUnzigzag s

end Sys2Proof.Machine
end

