-- ==== Sys2Proof/Machine/Step.lean ====
section
/-! DEFINITION. One step of the machine: the host's next event, taken and done whole
(spec/00_scope.md R7, spec/10_state.md R25, spec/70_reset_and_hazards.md R340). -/

namespace Sys2Proof.Machine

/-- One event.  A command word that is no command completes `IllegalCommand` (spec/30_encoding.md
R106); a reset puts the block in the reset state; with nothing pending the block is idle (log 4). -/
def step (s : State) : Host.Outcome State Fault Refusal :=
  match s.takeEvent with
  | none => .next s
  | some (.reset, s') => .next s'.hostReset
  | some (.command c, s') =>
    match decode c.cw with
    | .error _ => .next ((s'.latch c).raise .illegalCommand)
    | .ok i => exec i (s'.latch c)

/-- The host's next event is the command whose word is `w`, with operands 0 and no payload
(log 7). -/
def State.withFetchWord (s : State) (nbits w : Nat) : State :=
  { s with
    pending := .command { cw := BitVec.ofNat 32 (w % 2 ^ nbits), a := 0, b := 0, pin := [] }
      :: s.pending }

end Sys2Proof.Machine
end

