-- ==== Sys2Proof/Machine/Port.lean ====
section
/-! DEFINITION. The command port as the host sees it: the block's step function of spec/00_scope.md R7, with
State the record of R20 alone, and issuing one command to the machine. -/

namespace Sys2Proof.Machine

/-- The step function of spec/00_scope.md R7, Params → Block → Command → Block × Completion: the block's
next state and its completion, from the parameters, the record of R20 and the transaction alone. -/
def Block.transact (p : Params) (b : Block) (c : Command) :
    Host.Outcome (Block × Completion) Fault Refusal :=
  match step { b with op := .absent, params := p, pending := [.command c], completions := [] } with
  | .next t =>
    .next (t.toBlock,
      { st := t.status.last, q := t.q, pout := t.completions.flatMap Completion.pout })
  | .fault f => .fault f
  | .refused x => .refused x

/-- The host issues a command next. -/
def State.issue (s : State) (c : Command) : Host.Outcome State Fault Refusal :=
  step { s with pending := .command c :: s.pending }

end Sys2Proof.Machine
end

