-- ==== Sys2Proof/Machine/Pseudo.lean ====
section
/-! DEFINITION. The pseudo-instructions of spec/30_encoding.md R111: they have no words of their own; each
stands for one or two commands that the host issues. -/

namespace Sys2Proof.Machine

/-- The pseudo-instructions (R111).  A text is given as its UTF-8 bytes: the encoding of text is outside
the block (spec/00_scope.md R6). -/
inductive Pseudo where
  | wstr (c : Count) (text : List Byte)
  | rstr (c : Count) (len : Word)
  | wquant (bw : Count) (x max : Word)
  | rquant (bw : Count) (max : Word)
  | wbool (b : Word)
  | newmsg
deriving DecidableEq, Repr

/-- The transaction of a command, an omitted operand being 0 or empty (R110). -/
def commandOf (i : Instr) (a b : Word) (pin : List Byte) : Command :=
  { cw := encode i, a := a, b := b, pin := pin }

/-- The expansion (R111): each command as a function of `Q(k)`, the Q of the command before it. -/
def Pseudo.commands : Pseudo → List (Word → Command)
  | .wstr c text => [fun _ => commandOf (.wbuf c) (BitVec.ofNat 64 text.length) 0 text]
  | .rstr c len => [fun _ => commandOf (.rbuf c) len 0 []]
  | .wquant bw x max =>
    [fun _ => commandOf (.toprec bw) x max [], fun q => commandOf (.wbits bw) q 0 []]
  | .rquant bw max =>
    [fun _ => commandOf (.rbits bw) 0 0 [], fun q => commandOf (.fromprec bw) q max []]
  | .wbool b => [fun _ => commandOf (.wbits 1) b 0 []]
  | .newmsg => [fun _ => commandOf (.winit 1) 0 0 []]

end Sys2Proof.Machine
end

