-- ==== Sys2Proof/Safety.lean ====
section
/-! DEFINITION. The terms claims are stated in: the invariants of spec/10_state.md R35 and R40, the two
ways a command ends (spec/60_exceptions.md R304), and the spec's own formulas for the values in a
buffer, for the groups of a varint and for binary64 numbers, written independently of the machine's
operations. -/

namespace Sys2Proof.Machine

/-! ### Invariants -/

/-- The value of the byte at an address, 0 where no byte is defined. -/
def byteAt (m : Memory) (a : Nat) : Nat := ((m.read a).map BitVec.toNat).getD 0

/-- The Writer invariants, R35 items 1 to 5; item 4 with R34: the defined bytes are exactly the
addresses 0 … W_LEN − 1, listed in order. -/
abbrev Writer.Inv (p : Params) (w : Writer) : Prop :=
  w.bitOffset ≤ 7 ∧ 1 ≤ w.cap ∧ w.cap ≤ p.wCapMax ∧ w.len ≤ w.cap ∧
  w.mem.map Prod.fst = List.range w.len ∧
  (w.bitOffset ≠ 0 → byteAt w.mem w.offset % 2 ^ (8 - w.bitOffset) = 0)

/-- The Reader invariants, R40 items 1 to 3, with R39: all R.len bytes are defined and no other. -/
abbrev Reader.Inv (p : Params) (r : Reader) : Prop :=
  r.bitOffset ≤ 7 ∧ r.offset ≤ r.len ∧ r.len ≤ p.rCapMax ∧ (r.bitOffset ≠ 0 → r.offset < r.len) ∧
  r.mem.map Prod.fst = List.range r.len

/-- The invariants of the block, with the parameters in the ranges of R8. -/
abbrev State.Inv (s : State) : Prop :=
  s.params.wellFormed = true ∧ s.w.Inv s.params ∧ s.r.Inv s.params

/-! ### How a command ends (R304) -/

/-- The state after a success: STATUS.LAST is OK, Q is `q`, one completion more, no operands kept. -/
def State.afterOk (s : State) (q : Word) (pout : List Byte) : State :=
  { s with
    status := { last := .ok, seen := s.status.seen }
    q := q
    op := .absent
    completions := s.completions ++ [{ st := .ok, q := q, pout := pout }] }

/-- The state after an error: of the block nothing but STATUS and Q; one completion more, no operands
kept. -/
def State.afterError (s : State) (e : Status) : State :=
  { s with
    status := { last := e, seen := true }
    q := 0
    op := .absent
    completions := s.completions ++ [{ st := e, q := 0, pout := [] }] }

/-- The command `i` in `s` ends with the error `e`. -/
def EndsInError (i : Instr) (s : State) (e : Status) : Prop := exec i s = .next (s.afterError e)

/-- The command `i` in `s` succeeds, having left the block as `t`, with result `q` and payload
`pout`. -/
def EndsOk (i : Instr) (s t : State) (q : Word) (pout : List Byte) : Prop :=
  exec i s = .next (t.afterOk q pout)

/-! ### Capacity (R131, R305) -/

/-- `k` bytes fit the Writer, after growth where it may grow. -/
abbrev Writer.Fits (p : Params) (w : Writer) (k : Nat) : Prop :=
  k ≤ w.cap ∨ (w.expand = true ∧ k ≤ p.wCapMax)

/-- `c` is the capacity `Ensure(k)` leaves: unchanged if `k` fits, else the first of the doublings,
clamped at W_CAP_MAX, that is at least `k`. -/
def CapacityAfter (p : Params) (w : Writer) (k c : Nat) : Prop :=
  (k ≤ w.cap ∧ c = w.cap) ∨
  (w.cap < k ∧ ∃ j, c = min (w.cap * 2 ^ j) p.wCapMax ∧ k ≤ c ∧
    ∀ i < j, min (w.cap * 2 ^ i) p.wCapMax < k)

/-! ### Values in a buffer -/

/-- The bit at stream bit position `p`: bit 7 − (p mod 8) of byte p div 8 (spec/00_scope.md R10). -/
def bitAt (m : Memory) (p : Nat) : Nat := byteAt m (p / 8) / 2 ^ (7 - p % 8) % 2

/-- `be(MemRead(S, a, k))`: Σ bⱼ · 256^(k−1−j) (R11). -/
def bigEndian (m : Memory) (a k : Nat) : Nat :=
  ∑ j ∈ Finset.range k, byteAt m (a + j) * 256 ^ (k - 1 - j)

/-- The `n`-bit field at stream bit position `p`, first bit most significant
(spec/30_encoding.md R92). -/
def bitField (m : Memory) (p n : Nat) : Nat :=
  ∑ j ∈ Finset.range n, bitAt m (p + j) * 2 ^ (n - 1 - j)

/-- The memory holds the list `bytes` from address `a` on. -/
def Memory.Holds (m : Memory) (a : Nat) (bytes : List Byte) : Prop :=
  ∀ j b, bytes[j]? = some b → m.read (a + j) = some b

/-- The two memories hold the same at every address outside `a … a + k − 1`. -/
def SameOutside (m m' : Memory) (a k : Nat) : Prop :=
  ∀ x, x < a ∨ a + k ≤ x → m'.read x = m.read x

/-- The integer a `w`-bit two's complement pattern denotes (R9). -/
def twosComplement (w v : Nat) : Int := if v < 2 ^ (w - 1) then v else (v : Int) - 2 ^ w

/-! ### Byte-level writes -/

/-- `w'` is the Writer after `ByteWrite(bytes)` (spec/40_writer.md R130): aligned, the bytes stored
from the aligned address on, the cursor behind them, nothing else changed. -/
def ByteWritten (p : Params) (w w' : Writer) (bytes : List Byte) : Prop :=
  w'.offset = w.start + bytes.length ∧ w'.bitOffset = 0 ∧ w'.expand = w.expand ∧
  CapacityAfter p w (w.start + bytes.length) w'.cap ∧
  w'.mem.Holds w.start bytes ∧ SameOutside w.mem w'.mem w.start bytes.length

/-- The command stores `bytes`, or ends in `NoSpace` where they do not fit (R130, R131). -/
def StoresOrNoSpace (i : Instr) (s : State) (bytes : List Byte) : Prop :=
  (¬ s.w.Fits s.params (s.w.start + bytes.length) → EndsInError i s .noSpace) ∧
  (s.w.Fits s.params (s.w.start + bytes.length) →
    ∃ w', EndsOk i s { s with w := w' } 0 [] ∧ ByteWritten s.params s.w w' bytes)

/-- The `k` bytes of `v`, most significant first: byte `i` is v[8k − 1 − 8i : 8k − 8 − 8i]
(spec/20_memory.md R63). -/
def bigEndianBytes (v k : Nat) : List Byte :=
  (List.range k).map fun i => BitVec.ofNat 8 (v / 2 ^ (8 * k - 8 - 8 * i))

/-! ### Varints -/

/-- `bytes` is the shortest little-endian group encoding of `u` (spec/30_encoding.md R93). -/
def IsVarint (u : Nat) (bytes : List Byte) : Prop :=
  1 ≤ bytes.length ∧ u < 2 ^ (7 * bytes.length) ∧
  (∀ m, 1 ≤ m → u < 2 ^ (7 * m) → bytes.length ≤ m) ∧
  ∀ j b, bytes[j]? = some b →
    b.toNat = u / 2 ^ (7 * j) % 128 + if j + 1 = bytes.length then 0 else 128

/-- The bytes at `a` decode as a varint of `k` bytes before `limit`: `k − 1` bytes with bit 7 set, then
one with bit 7 clear (spec/42_varint_zigzag.md R231). -/
abbrev VarintAt (m : Memory) (a limit k : Nat) : Prop :=
  1 ≤ k ∧ a + k ≤ limit ∧ (∀ j < k - 1, 128 ≤ byteAt m (a + j)) ∧ byteAt m (a + (k - 1)) < 128

/-- Σ (bⱼ mod 128) · 2^(7j) over the `k` bytes at `a` (R231). -/
def varintValue (m : Memory) (a k : Nat) : Nat :=
  ∑ j ∈ Finset.range k, byteAt m (a + j) % 128 * 2 ^ (7 * j)

/-- Zigzag in its arithmetic form: 2·s for s ≥ 0, −2·s − 1 for s < 0 (R233). -/
def zigzagOf (s : Int) : Int := if 0 ≤ s then 2 * s else -2 * s - 1

/-- Un-zigzag in its arithmetic form: u div 2 for even u, −(u + 1) div 2 for odd u (R234). -/
def unzigzagOf (u : Nat) : Int := if u % 2 = 0 then ((u / 2 : Nat) : Int) else -(((u + 1) / 2 : Nat) : Int)

/-- `s` lies in the `VARW`-bit signed range. -/
abbrev InVarintRange (p : Params) (s : Int) : Prop :=
  -(2 ^ (p.varw - 1)) ≤ s ∧ s ≤ 2 ^ (p.varw - 1) - 1

/-! ### binary64 (spec/43_precision.md R260) -/

/-- The biased exponent field of a pattern. -/
def expOf (p : Word) : Nat := p.toNat / 2 ^ 52 % 2048

/-- The fraction field of a pattern. -/
def fracOf (p : Word) : Nat := p.toNat % 2 ^ 52

/-- The pattern's sign is 1. -/
abbrev isNegative (p : Word) : Prop := 2 ^ 63 ≤ p.toNat

abbrev isFinite (p : Word) : Prop := expOf p ≠ 2047
abbrev isInfinite (p : Word) : Prop := expOf p = 2047 ∧ fracOf p = 0
abbrev isNaN (p : Word) : Prop := expOf p = 2047 ∧ fracOf p ≠ 0

/-- The magnitude of a finite pattern: f · 2^(−1074) for e = 0, (2^52 + f) · 2^(e − 1075) else. -/
def magnitude (p : Word) : ℚ :=
  if expOf p = 0 then (fracOf p : ℚ) / 2 ^ 1074 else (2 ^ 52 + fracOf p : ℚ) * 2 ^ expOf p / 2 ^ 1075

/-- `val(p)` of a finite pattern. -/
def realValue (p : Word) : ℚ := if p.toNat < 2 ^ 63 then magnitude p else -magnitude p

/-- A `maxValue` the codec accepts: positive and finite (R264, R265). -/
def ValidMax (b : Word) : Prop := isFinite b ∧ 0 < realValue b

/-- `c` is the value operand `a` clamped to 0 … val(b) (R264). -/
def ClampedTo (a b : Word) (c : ℚ) : Prop :=
  (isInfinite a ∧ isNegative a ∧ c = 0) ∨ (isInfinite a ∧ ¬ isNegative a ∧ c = realValue b) ∨
  (isFinite a ∧ c = min (max (realValue a) 0) (realValue b))

/-- `r` is the pattern with sign 0 nearest to `y`, ties to the pattern with even fraction (R263). -/
def IsNearestEven (y : ℚ) (r : Word) : Prop :=
  isFinite r ∧ ¬ isNegative r ∧
  ∀ p : Word, isFinite p → |realValue r - y| ≤ |realValue p - y| ∧
    (|realValue r - y| = |realValue p - y| → realValue p ≠ realValue r → fracOf r % 2 = 0)

/-! ### Transactions and lists of commands -/

/-- The opcodes of spec/30_encoding.md R102 whose commands use `n` (R101). -/
def countedOpcodes : List Nat := [0x01, 0x10, 0x12, 0x15, 0x32, 0x35, 0x52, 0x55, 0x70, 0x71]

/-- The opcodes of R102 whose commands do not use `n`. -/
def plainOpcodes : List Nat :=
  [0x02, 0x11, 0x13, 0x14, 0x16, 0x17,
   0x20, 0x21, 0x22, 0x23, 0x24, 0x25, 0x26, 0x27, 0x29, 0x2A, 0x2B,
   0x30, 0x31, 0x33, 0x34,
   0x40, 0x41, 0x42, 0x43, 0x44, 0x45, 0x46, 0x47, 0x49, 0x4A, 0x4B,
   0x53, 0x54,
   0x60, 0x61, 0x62, 0x63, 0x64, 0x65, 0x66, 0x67, 0x69, 0x6A, 0x6B,
   0x72, 0x73]

/-- A transaction breaks one of the four tests of R106. -/
abbrev IllegalTransaction (c : Command) : Prop :=
  c.cw.toNat / 2 ^ 24 ∉ countedOpcodes ++ plainOpcodes ∨ c.cw.toNat % 2 ^ 16 ≠ 0 ∨
  (c.cw.toNat / 2 ^ 24 ∈ plainOpcodes ∧ c.cw.toNat / 2 ^ 16 % 256 ≠ 0) ∨
  (c.cw.toNat / 2 ^ 24 ∈ [0x15, 0x30] ∧ c.pin.length ≠ c.a.toNat) ∨
  (c.cw.toNat / 2 ^ 24 ∉ [0x15, 0x30] ∧ c.pin ≠ [])

/-- The Writer data commands with the Reader command that mirrors each (spec/41_reader.md R202). -/
def mirrorOf : Instr → Option Instr
  | .walign => some .ralign
  | .wbits n => some (.rbits n)
  | .wvaru => some .rvaru
  | .wvars => some .rvars
  | .wbuf n => some (.rbuf n)
  | .wu8 => some .ru8
  | .wu16 => some .ru16
  | .wu32 => some .ru32
  | .wu64 => some .ru64
  | .wi8 => some .ri8
  | .wi16 => some .ri16
  | .wi32 => some .ri32
  | .wi64 => some .ri64
  | .wf16 => some .rf16
  | .wf32 => some .rf32
  | .wf64 => some .rf64
  | .rdcsr _ | .clrerr | .winit _ | .wview | .handoff | .rload | .ralign | .rbits _ | .rvaru
  | .rvars | .rbuf _ | .ru8 | .ru16 | .ru32 | .ru64 | .ri8 | .ri16 | .ri32 | .ri64 | .rf16
  | .rf32 | .rf64 | .pbits _ | .pvaru | .pvars | .pbuf _ | .pu8 | .pu16 | .pu32 | .pu64 | .pi8
  | .pi16 | .pi32 | .pi64 | .pf16 | .pf32 | .pf64 | .toprec _ | .fromprec _ | .zigzag
  | .unzigzag => none

/-- The peek of a Reader command that has one (spec/30_encoding.md R103). -/
def peekOf : Instr → Option Instr
  | .rbits n => some (.pbits n)
  | .rvaru => some .pvaru
  | .rvars => some .pvars
  | .rbuf n => some (.pbuf n)
  | .ru8 => some .pu8
  | .ru16 => some .pu16
  | .ru32 => some .pu32
  | .ru64 => some .pu64
  | .ri8 => some .pi8
  | .ri16 => some .pi16
  | .ri32 => some .pi32
  | .ri64 => some .pi64
  | .rf16 => some .pf16
  | .rf32 => some .pf32
  | .rf64 => some .pf64
  | .rdcsr _ | .clrerr | .winit _ | .walign | .wbits _ | .wvaru | .wvars | .wbuf _ | .wview
  | .handoff | .wu8 | .wu16 | .wu32 | .wu64 | .wi8 | .wi16 | .wi32 | .wi64 | .wf16 | .wf32
  | .wf64 | .rload | .ralign | .pbits _ | .pvaru | .pvars | .pbuf _ | .pu8 | .pu16 | .pu32
  | .pu64 | .pi8 | .pi16 | .pi32 | .pi64 | .pf16 | .pf32 | .pf64 | .toprec _ | .fromprec _
  | .zigzag | .unzigzag => none

/-- The group of a command, `op[7:4]` (spec/30_encoding.md R103). -/
def groupOf (i : Instr) : Nat := i.opcode.toNat / 16

/-- The command reads the operand A (R101): the Writer's data commands but `WALIGN`, `WINIT`, `RLOAD`,
a buffer read without a prefix, and the pure commands. -/
def usesA : Instr → Bool
  | .winit _ | .wbits _ | .wvaru | .wvars | .wbuf _ | .rload
  | .wu8 | .wu16 | .wu32 | .wu64 | .wi8 | .wi16 | .wi32 | .wi64 | .wf16 | .wf32 | .wf64
  | .toprec _ | .fromprec _ | .zigzag | .unzigzag => true
  | .rbuf n | .pbuf n => n == 0
  | .rdcsr _ | .clrerr | .walign | .wview | .handoff | .ralign | .rbits _ | .rvaru | .rvars
  | .ru8 | .ru16 | .ru32 | .ru64 | .ri8 | .ri16 | .ri32 | .ri64 | .rf16 | .rf32 | .rf64
  | .pbits _ | .pvaru | .pvars
  | .pu8 | .pu16 | .pu32 | .pu64 | .pi8 | .pi16 | .pi32 | .pi64 | .pf16 | .pf32 | .pf64 => false

/-- The command reads the operand B (R101). -/
def usesB (i : Instr) : Bool := groupOf i == 7 && i.opcode.toNat ≤ 0x71

/-- The value of the register with index `n` as the table of spec/10_state.md R28 gives it. -/
def csrValue (s : State) : Nat → Nat
  | 0 => 256 * s.status.seen.toNat + s.status.last.code.toNat
  | 1 => s.w.offset
  | 2 => s.w.bitOffset
  | 3 => s.w.cap
  | 4 => s.w.expand.toNat
  | 5 => s.w.len
  | 6 => s.r.offset
  | 7 => s.r.bitOffset
  | 8 => s.r.len
  | 9 => 8 * (s.r.len - s.r.offset) - s.r.bitOffset
  | _ => 0

/-- Run commands one after the other; `none` unless every one of them completes `OK`. -/
def runOk : List (Instr × Operands) → State → Option State
  | [], s => some s
  | (i, o) :: rest, s =>
    match exec i { s with op := o } with
    | .next t => if t.status.last = .ok then runOk rest t else none
    | .fault _ => none
    | .refused _ => none

/-- The command that reads back what `(i, o)` wrote: its mirror, with no payload (R202). -/
def mirrored (c : Instr × Operands) : Instr × Operands :=
  ((mirrorOf c.1).getD c.1, { a := c.2.a, b := c.2.b, pin := [] })

/-- The completion that reading back `(i, o)` must give: Q = A (0 for an alignment), and the payload of
a buffer (R202). -/
def readBack (c : Instr × Operands) : Completion :=
  { st := .ok
    q := match c.1 with
      | .walign => 0
      | _ => c.2.a
    pout := match c.1 with
      | .wbuf _ => c.2.pin
      | _ => [] }

/-- The bits of a list of (width, value) fields, in order, each most significant bit first (R92). -/
def fieldBits (fields : List (Count × Word)) : List Bool :=
  fields.flatMap fun f => (List.range f.1.toNat).map fun j => f.2.toNat.testBit (f.1.toNat - 1 - j)

/-- The statuses a command can end with (spec/60_exceptions.md R308), `IllegalCommand` through a
malformed transaction included. -/
def allowedStatuses (p : Params) : Instr → List Status
  | .rdcsr _ | .winit _ | .toprec _ => [.ok, .invalidParameter, .illegalCommand]
  | .clrerr | .walign | .wview | .ralign => [.ok, .illegalCommand]
  | .wbits _ | .wbuf _ => [.ok, .overflow, .invalidParameter, .noSpace, .illegalCommand]
  | .wvaru | .wvars =>
    if p.varw < 64 then [.ok, .overflow, .noSpace, .illegalCommand]
    else [.ok, .noSpace, .illegalCommand]
  | .handoff | .wu64 | .wi64 | .wf64 | .rload => [.ok, .noSpace, .illegalCommand]
  | .wu8 | .wu16 | .wu32 | .wi8 | .wi16 | .wi32 | .wf16 | .wf32 =>
    [.ok, .overflow, .noSpace, .illegalCommand]
  | .rbits _ | .pbits _ | .rbuf _ | .pbuf _ =>
    [.ok, .outOfBounds, .invalidParameter, .illegalCommand]
  | .rvaru | .rvars | .pvaru | .pvars => [.ok, .overflow, .outOfBounds, .illegalCommand]
  | .ru8 | .ru16 | .ru32 | .ru64 | .ri8 | .ri16 | .ri32 | .ri64 | .rf16 | .rf32 | .rf64
  | .pu8 | .pu16 | .pu32 | .pu64 | .pi8 | .pi16 | .pi32 | .pi64 | .pf16 | .pf32 | .pf64 =>
    [.ok, .outOfBounds, .illegalCommand]
  | .fromprec _ => [.ok, .overflow, .invalidParameter, .illegalCommand]
  | .zigzag | .unzigzag =>
    if p.varw < 64 then [.ok, .overflow, .illegalCommand] else [.ok, .illegalCommand]

end Sys2Proof.Machine
end

