-- ==== Sys2Proof/Certificates/Slice0/Obligations.lean ====
section
/-! DEFINITION. The statements for the provers.  Each docstring names the rule it formalises, or says that
it is the model's own choice; OBLIGATIONS.json lists them. -/

open Sys2Proof Sys2Proof.Machine

/-! ### Encoding -/

/-- Command words written out from spec/30_encoding.md R100 and R102, at least one of each of the groups 0
to 7 (R103), decode to their commands, and three
ill-formed ones are rejected by name (R106). -/
def Obligations.SampleCommandWordsDecode : Prop :=
  decode 0x01030000 = .ok (.rdcsr 3) ∧ decode 0x10010000 = .ok (.winit 1) ∧
  decode 0x120C0000 = .ok (.wbits 12) ∧ decode 0x2B000000 = .ok .wf64 ∧
  decode 0x14000000 = .ok .wvars ∧ decode 0x35020000 = .ok (.rbuf 2) ∧
  decode 0x47000000 = .ok .ri64 ∧ decode 0x55040000 = .ok (.pbuf 4) ∧ decode 0x6A000000 = .ok .pf32 ∧
  decode 0x710C0000 = .ok (.fromprec 12) ∧ decode 0x73000000 = .ok .unzigzag ∧
  decode 0x28000000 = .error .unassignedOpcode ∧ decode 0x20000001 = .error .reservedBits ∧
  decode 0x11010000 = .error .unusedCount

/-- Decoding the word of a command gives the command back, with every value of `n`. -/
def Obligations.DecodeOfEncodeGivesTheCommand : Prop :=
  ∀ i : Instr, decode (encode i) = .ok i

/-- A word that decodes to a command is that command's word: no two words decode to one command. -/
def Obligations.EncodeOfDecodeGivesTheWord : Prop :=
  ∀ (cw : CommandWord) (i : Instr), decode cw = .ok i → encode i = cw

/-- R106: a transaction that breaks one of its four tests completes `IllegalCommand` and changes nothing
of the block but STATUS and Q; every other one is executed and does not complete so. -/
def Obligations.IllegalTransactionsAreExactlyTheRejected : Prop :=
  ∀ (s : State) (c : Command) (rest : List HostEvent), s.pending = .command c :: rest →
    (IllegalTransaction c →
      step s = .next (State.afterError { s with pending := rest } .illegalCommand)) ∧
    (¬ IllegalTransaction c →
      (∃ i, decode c.cw = .ok i) ∧ ∀ t, step s = .next t → t.status.last ≠ .illegalCommand)

/-! ### One step -/

/-- A step with a command pending whose word decodes to `i` is `exec` of `i` on the state whose operand
fields hold the command's operands (how the command reaches the step is the model's choice, log 2
and 3). -/
def Obligations.StepRunsTheDecodedCommand : Prop :=
  ∀ (s : State) (c : Command) (rest : List HostEvent) (i : Instr),
    s.pending = .command c :: rest → decode c.cw = .ok i →
      step s = exec i { s with pending := rest, op := { a := c.a, b := c.b, pin := c.pin } }

/-- R44, R341: after a reset the block is in the reset state, whatever it was before. -/
def Obligations.ResetEventGivesTheResetState : Prop :=
  ∀ (s : State) (rest : List HostEvent), s.pending = .reset :: rest →
    ∃ t, step s = .next t ∧
      t.w = { offset := 0, bitOffset := 0, cap := s.params.wCapInit, expand := true, mem := [] } ∧
      t.r = { offset := 0, bitOffset := 0, len := 0, mem := [] } ∧
      t.status = { last := .ok, seen := false } ∧ t.q = 0

/-- The model's own choice (log 2, 3, 4, 5), no rule of the spec: with nothing pending a step changes
nothing; a reset leaves the parameters, the later events and the completions already given, and leaves
no command's operands in the state. -/
def Obligations.HostSideOfIdleAndReset : Prop :=
  (∀ s : State, s.pending = [] → step s = .next s) ∧
  ∀ (s : State) (rest : List HostEvent), s.pending = .reset :: rest →
    ∃ t, step s = .next t ∧ t.params = s.params ∧ t.pending = rest ∧
      t.completions = s.completions ∧ t.op = .absent

/-- The model's own choice (log 1): the parameters are the same after every step. -/
def Obligations.NoStepChangesTheParameters : Prop :=
  ∀ s t : State, step s = .next t → t.params = s.params

/-! ### Completion and status -/

/-- R304: a command ends either in success, from some state of the block, or in an error that changes
STATUS, Q and the completions alone; and so does every command taken from the port, the rejected ones
too. -/
def Obligations.CommandsEndInOneOfTwoWays : Prop :=
  (∀ (i : Instr) (s t : State), exec i s = .next t →
    (∃ (b : Block) (q : Word) (pout : List Byte), t = State.afterOk { s with toBlock := b } q pout) ∨
    (∃ e : Status, e ≠ .ok ∧ t = s.afterError e)) ∧
  ∀ (s t : State) (c : Command) (rest : List HostEvent), s.pending = .command c :: rest →
    step s = .next t →
    (∃ (b : Block) (q : Word) (pout : List Byte),
      t = State.afterOk { s with toBlock := b, pending := rest } q pout) ∨
    (∃ e : Status, e ≠ .ok ∧ t = State.afterError { s with pending := rest } e)

/-- Every command taken from the port gives exactly one completion, whose status and result are
STATUS.LAST and Q after it (R22, R26). -/
def Obligations.EveryCommandGivesOneCompletion : Prop :=
  ∀ (s : State) (c : Command) (rest : List HostEvent), s.Inv → s.pending = .command c :: rest →
    ∃ (t : State) (x : Completion), step s = .next t ∧ t.completions = s.completions ++ [x] ∧
      x.st = t.status.last ∧ x.q = t.q ∧ t.pending = rest ∧ t.op = .absent

/-- R26: SEEN is set by an error, cleared by a `CLRERR` that completes, and otherwise unchanged. -/
def Obligations.SeenIsStickyUntilCleared : Prop :=
  ∀ (i : Instr) (s t : State), exec i s = .next t →
    (t.status.last ≠ .ok → t.status.seen = true) ∧
    (t.status.last = .ok → i = .clrerr → t.status.seen = false) ∧
    (t.status.last = .ok → i ≠ .clrerr → t.status.seen = s.status.seen)

/-- R308: a command never ends with a status its row does not list (nor with a reserved code). -/
def Obligations.CommandsEndWithAListedStatus : Prop :=
  ∀ (i : Instr) (s t : State), exec i s = .next t → t.status.last ∈ allowedStatuses s.params i

/-- R26, last sentence on behaviour: what STATUS and Q hold has no effect on what a command does; only
`RDCSR 0` returns STATUS. -/
def Obligations.StatusAndResultDoNotAffectCommands : Prop :=
  ∀ (i : Instr) (s t : State) (x : StatusReg) (y : Word), exec i s = .next t →
    ∃ u, exec i { s with status := x, q := y } = .next u ∧ u.w = t.w ∧ u.r = t.r ∧
      u.status.last = t.status.last ∧
      (i ≠ .rdcsr 0 → u.q = t.q ∧ u.completions = t.completions)

/-- R101: an operand a command does not use has no effect. -/
def Obligations.UnusedOperandsHaveNoEffect : Prop :=
  ∀ (i : Instr) (s t : State) (o : Operands), o.pin = s.op.pin →
    (usesA i = true → o.a = s.op.a) → (usesB i = true → o.b = s.op.b) →
    exec i s = .next t → exec i { s with op := o } = .next t

/-! ### Invariants and whole-machine rules -/

/-- The invariants R35 and R40 hold after reset, for every legal choice of the parameters. -/
def Obligations.ResetStateKeepsTheInvariants : Prop :=
  State.reset.Inv ∧ ∀ p : Params, p.wellFormed = true → (State.resetWith p).Inv

/-- R35, R40: the invariants hold after reset and every step preserves them. -/
def Obligations.EveryStepKeepsTheInvariants : Prop :=
  (∀ p : Params, p.wellFormed = true → (State.resetWith p).Inv) ∧
  ∀ s t : State, s.Inv → step s = .next t → t.Inv

/-- Every step keeps both buffer memories in canonical form, in every state. -/
def Obligations.EveryStepKeepsTheMemoriesCanonical : Prop :=
  ∀ s t : State, s.w.mem.wf = true → s.r.mem.wf = true → step s = .next t →
    t.w.mem.wf = true ∧ t.r.mem.wf = true

/-- A state that keeps the invariants never stops, and no state is refused (R312, R351). -/
def Obligations.InvariantStatesAlwaysStep : Prop :=
  (∀ s : State, s.Inv → ∃ t, step s = .next t) ∧ ∀ (s : State) (x : Refusal), step s ≠ .refused x

/-- R45: the cursors move backward only in the commands that create an instance. -/
def Obligations.CursorsNeverMoveBackward : Prop :=
  ∀ (i : Instr) (s t : State), s.Inv → exec i s = .next t →
    ((∀ n, i ≠ .winit n) → i ≠ .handoff → s.w.position ≤ t.w.position) ∧
    (i ≠ .rload → i ≠ .handoff → s.r.position ≤ t.r.position)

/-- R80: only the groups 1 and 2 change the Writer, only the groups 3 and 4 and `HANDOFF` the Reader, and
bytes come into RB by `HANDOFF` and `RLOAD` alone.  No command but `HANDOFF` carries anything from the
Writer to the Reader: what the Reader is after it does not depend on what the Writer was; and none at
all carries anything from the Reader to the Writer. -/
def Obligations.WriterAndReaderAreSeparate : Prop :=
  (∀ (i : Instr) (s t : State), exec i s = .next t →
    (groupOf i ∉ [1, 2] → t.w = s.w) ∧
    (groupOf i ∉ [3, 4] → i ≠ .handoff → t.r = s.r) ∧
    (i ≠ .handoff → i ≠ .rload → t.r.mem = s.r.mem ∧ t.r.len = s.r.len)) ∧
  (∀ (i : Instr) (s t t' : State) (w : Writer), i ≠ .handoff → exec i s = .next t →
    exec i { s with w := w } = .next t' → t'.r = t.r) ∧
  ∀ (i : Instr) (s t t' : State) (r : Reader), exec i s = .next t →
    exec i { s with r := r } = .next t' → t'.w = t.w

/-- R31, R32: `W.expand` changes by `WINIT` alone; `W.cap` changes only by `WINIT` and by growth in a
Writer data command, and growth never lowers it nor passes W_CAP_MAX. -/
def Obligations.CapacityAndExpandChangeOnlyAsSaid : Prop :=
  ∀ (i : Instr) (s t : State), s.Inv → exec i s = .next t → (∀ n, i ≠ .winit n) →
    t.w.expand = s.w.expand ∧ s.w.cap ≤ t.w.cap ∧ t.w.cap ≤ s.params.wCapMax ∧
    (t.w.cap ≠ s.w.cap → (mirrorOf i).isSome = true ∧ s.w.expand = true ∧ s.w.cap < t.w.len)

/-- R152: a Writer data command changes the Writer, STATUS, Q and the completions alone; of the Writer
not `expand`, no byte below the old offset, no bit before the old cursor, and none of the bytes written
so far unless it is a `WBITS`. -/
def Obligations.WriterDataCommandsKeepWhatIsWritten : Prop :=
  ∀ (i : Instr) (s t : State), s.Inv → (mirrorOf i).isSome = true → exec i s = .next t →
    t = { s with
      w := t.w, status := t.status, q := t.q, op := .absent, completions := t.completions } ∧
    t.w.expand = s.w.expand ∧ (∀ a < s.w.offset, t.w.mem.read a = s.w.mem.read a) ∧
    (∀ x < s.w.position, bitAt t.w.mem x = bitAt s.w.mem x) ∧
    ((∀ n, i ≠ .wbits n) → ∀ a < s.w.len, t.w.mem.read a = s.w.mem.read a)

/-- R186: a peek does what its read does, errors included, and leaves the cursor: of the block it changes
only STATUS and Q; its opcode is the read's plus 0x20. -/
def Obligations.PeeksAreReadsThatDoNotMove : Prop :=
  ∀ (i j : Instr) (s t : State), peekOf i = some j → exec i s = .next t →
    exec j s = .next { t with r := s.r } ∧
    { t with r := s.r } = { s with
      status := t.status, q := t.q, op := .absent, completions := t.completions } ∧
    j.opcode = i.opcode + 0x20

/-- R201: at the end of the buffer everything that needs a bit fails with `OutOfBounds` and moves
nothing, and the commands that need none complete. -/
def Obligations.ReadingAtTheEndOfTheBuffer : Prop :=
  ∀ s : State, s.Inv → s.op.pin = [] → s.r.offset = s.r.len → s.r.bitOffset = 0 →
    (∀ i ∈ [Instr.ru8, .ru16, .ru32, .ru64, .ri8, .ri16, .ri32, .ri64, .rf16, .rf32, .rf64,
        .rvaru, .rvars, .pu8, .pu16, .pu32, .pu64, .pi8, .pi16, .pi32, .pi64, .pf16, .pf32, .pf64,
        .pvaru, .pvars, .rbuf 1, .rbuf 2, .rbuf 4, .pbuf 1, .pbuf 2, .pbuf 4],
      EndsInError i s .outOfBounds) ∧
    (∀ n : Count, 1 ≤ n.toNat → n.toNat ≤ 32 →
      EndsInError (.rbits n) s .outOfBounds ∧ EndsInError (.pbits n) s .outOfBounds) ∧
    (s.op.a ≠ 0 →
      EndsInError (.rbuf 0) s .outOfBounds ∧ EndsInError (.pbuf 0) s .outOfBounds) ∧
    (s.op.a = 0 → EndsOk (.rbuf 0) s s 0 [] ∧ EndsOk (.pbuf 0) s s 0 []) ∧
    EndsOk .ralign s s 0 [] ∧ EndsOk (.rbits 0) s s 0 [] ∧ EndsOk (.pbits 0) s s 0 []

/-! ### Writer commands -/

/-- R133. -/
def Obligations.WalignMovesToTheNextByte : Prop :=
  encode .walign = 0x11000000 ∧
  ∀ s : State, s.op.pin = [] →
    (s.w.bitOffset ≠ 0 →
      EndsOk .walign s { s with w := { s.w with offset := s.w.offset + 1, bitOffset := 0 } } 0 []) ∧
    (s.w.bitOffset = 0 → EndsOk .walign s s 0 [])

/-- R134: the errors in their order, and on success the field at the cursor, most significant bit
first, every earlier bit as it was and every later bit of the stream 0. -/
def Obligations.WbitsPlacesTheFieldAtTheCursor : Prop :=
  ∀ (n : Count) (s : State), s.Inv → s.op.pin = [] →
    let p := s.w.position
    (encode (.wbits n)).toNat = 0x12000000 + n.toNat * 2 ^ 16 ∧
    (32 < n.toNat → EndsInError (.wbits n) s .invalidParameter) ∧
    (n.toNat ≤ 32 → 2 ^ n.toNat ≤ s.op.a.toNat → EndsInError (.wbits n) s .overflow) ∧
    (n.toNat ≤ 32 → s.op.a.toNat < 2 ^ n.toNat → n.toNat ≠ 0 →
      ¬ s.w.Fits s.params ((p + n.toNat + 7) / 8) → EndsInError (.wbits n) s .noSpace) ∧
    (n.toNat ≤ 32 → s.op.a.toNat < 2 ^ n.toNat →
      (n.toNat = 0 ∨ s.w.Fits s.params ((p + n.toNat + 7) / 8)) →
      ∃ w' : Writer, EndsOk (.wbits n) s { s with w := w' } 0 [] ∧
        w'.offset = (p + n.toNat) / 8 ∧ w'.bitOffset = (p + n.toNat) % 8 ∧
        w'.expand = s.w.expand ∧
        (n.toNat = 0 → w' = s.w) ∧
        (n.toNat ≠ 0 → CapacityAfter s.params s.w ((p + n.toNat + 7) / 8) w'.cap) ∧
        (∀ j < n.toNat,
          bitAt w'.mem (p + j) = (s.op.a.toNat.testBit (n.toNat - 1 - j)).toNat) ∧
        (∀ x < p, bitAt w'.mem x = bitAt s.w.mem x) ∧
        (∀ x, p + n.toNat ≤ x → x < 8 * w'.len → bitAt w'.mem x = 0) ∧
        SameOutside s.w.mem w'.mem (p / 8) ((p + n.toNat + 7) / 8 - p / 8))

/-- R136 to R139 and R144 to R146: the unsigned and the float-pattern writes. -/
def Obligations.UnsignedWritesStoreBigEndianBytes : Prop :=
  ∀ (i : Instr) (k : Nat) (cw : CommandWord),
    (i, k, cw) ∈ [(Instr.wu8, 1, 0x20000000#32), (.wu16, 2, 0x21000000#32),
      (.wu32, 4, 0x22000000#32), (.wu64, 8, 0x23000000#32), (.wf16, 2, 0x29000000#32),
      (.wf32, 4, 0x2A000000#32), (.wf64, 8, 0x2B000000#32)] →
    encode i = cw ∧
    ∀ s : State, s.Inv → s.op.pin = [] →
      (2 ^ (8 * k) ≤ s.op.a.toNat → EndsInError i s .overflow) ∧
      (s.op.a.toNat < 2 ^ (8 * k) → StoresOrNoSpace i s (bigEndianBytes s.op.a.toNat k))

/-- R140 to R143: the signed writes. -/
def Obligations.SignedWritesStoreTwosComplementBytes : Prop :=
  ∀ (i : Instr) (k : Nat) (cw : CommandWord),
    (i, k, cw) ∈ [(Instr.wi8, 1, 0x24000000#32), (.wi16, 2, 0x25000000#32),
      (.wi32, 4, 0x26000000#32), (.wi64, 8, 0x27000000#32)] →
    encode i = cw ∧
    ∀ s : State, s.Inv → s.op.pin = [] →
      (s.op.a.toInt < -(2 ^ (8 * k - 1)) ∨ 2 ^ (8 * k - 1) - 1 < s.op.a.toInt →
        EndsInError i s .overflow) ∧
      (-(2 ^ (8 * k - 1)) ≤ s.op.a.toInt → s.op.a.toInt ≤ 2 ^ (8 * k - 1) - 1 →
        StoresOrNoSpace i s (bigEndianBytes s.op.a.toNat k))

/-- R150: framing, then the prefix width, then the length in the prefix, then the store of the prefix
and the payload. -/
def Obligations.WbufStoresPrefixAndPayload : Prop :=
  ∀ (n : Count) (s : State), s.Inv →
    (encode (.wbuf n)).toNat = 0x15000000 + n.toNat * 2 ^ 16 ∧
    (s.op.pin.length ≠ s.op.a.toNat → EndsInError (.wbuf n) s .illegalCommand) ∧
    (s.op.pin.length = s.op.a.toNat →
      (n.toNat ∉ [0, 1, 2, 4] → EndsInError (.wbuf n) s .invalidParameter) ∧
      (n.toNat ∈ [1, 2, 4] → 2 ^ (8 * n.toNat) ≤ s.op.a.toNat →
        EndsInError (.wbuf n) s .overflow) ∧
      (n.toNat = 0 ∨ n.toNat ∈ [1, 2, 4] ∧ s.op.a.toNat < 2 ^ (8 * n.toNat) →
        StoresOrNoSpace (.wbuf n) s (bigEndianBytes s.op.a.toNat n.toNat ++ s.op.pin)))

/-- R236, R237: the varint writes store the shortest encoding of the value, or of its zigzag code. -/
def Obligations.VarintWritesStoreTheShortestEncoding : Prop :=
  encode .wvaru = 0x13000000 ∧ encode .wvars = 0x14000000 ∧
  ∀ s : State, s.Inv → s.op.pin = [] →
    (2 ^ s.params.varw ≤ s.op.a.toNat → EndsInError .wvaru s .overflow) ∧
    (s.op.a.toNat < 2 ^ s.params.varw →
      ∃ bytes, IsVarint s.op.a.toNat bytes ∧ StoresOrNoSpace .wvaru s bytes) ∧
    (¬ InVarintRange s.params s.op.a.toInt → EndsInError .wvars s .overflow) ∧
    (InVarintRange s.params s.op.a.toInt →
      ∃ bytes, IsVarint (zigzagOf s.op.a.toInt).toNat bytes ∧ StoresOrNoSpace .wvars s bytes)

/-! ### Reader commands -/

/-- R171. -/
def Obligations.RalignMovesToTheNextByte : Prop :=
  encode .ralign = 0x31000000 ∧
  ∀ s : State, s.op.pin = [] →
    (s.r.bitOffset ≠ 0 →
      EndsOk .ralign s { s with r := { s.r with offset := s.r.offset + 1, bitOffset := 0 } } 0 []) ∧
    (s.r.bitOffset = 0 → EndsOk .ralign s s 0 [])

/-- R172 and its peek R187. -/
def Obligations.BitReadsReturnTheFieldAtTheCursor : Prop :=
  ∀ (n : Count) (s : State), s.Inv → s.op.pin = [] →
    let p := s.r.position
    (encode (.rbits n)).toNat = 0x32000000 + n.toNat * 2 ^ 16 ∧
    (encode (.pbits n)).toNat = 0x52000000 + n.toNat * 2 ^ 16 ∧
    (32 < n.toNat →
      EndsInError (.rbits n) s .invalidParameter ∧ EndsInError (.pbits n) s .invalidParameter) ∧
    (n.toNat ≤ 32 → 8 * s.r.len < p + n.toNat →
      EndsInError (.rbits n) s .outOfBounds ∧ EndsInError (.pbits n) s .outOfBounds) ∧
    (n.toNat ≤ 32 → p + n.toNat ≤ 8 * s.r.len →
      bitField s.r.mem p n.toNat < 2 ^ n.toNat ∧
      EndsOk (.rbits n) s
        { s with r := { s.r with offset := (p + n.toNat) / 8, bitOffset := (p + n.toNat) % 8 } }
        (BitVec.ofNat 64 (bitField s.r.mem p n.toNat)) [] ∧
      EndsOk (.pbits n) s s (BitVec.ofNat 64 (bitField s.r.mem p n.toNat)) [])

/-- R173 to R176 and R181 to R183: the unsigned and the float-pattern reads. -/
def Obligations.UnsignedReadsReturnBigEndianValues : Prop :=
  ∀ (i : Instr) (k : Nat) (cw : CommandWord),
    (i, k, cw) ∈ [(Instr.ru8, 1, 0x40000000#32), (.ru16, 2, 0x41000000#32),
      (.ru32, 4, 0x42000000#32), (.ru64, 8, 0x43000000#32), (.rf16, 2, 0x49000000#32),
      (.rf32, 4, 0x4A000000#32), (.rf64, 8, 0x4B000000#32)] →
    encode i = cw ∧
    ∀ s : State, s.Inv → s.op.pin = [] →
      (s.r.len < s.r.start + k → EndsInError i s .outOfBounds) ∧
      (s.r.start + k ≤ s.r.len →
        bigEndian s.r.mem s.r.start k < 2 ^ (8 * k) ∧
        EndsOk i s { s with r := { s.r with offset := s.r.start + k, bitOffset := 0 } }
          (BitVec.ofNat 64 (bigEndian s.r.mem s.r.start k)) [])

/-- R177 to R180: the signed reads, sign-extended to 64 bits. -/
def Obligations.SignedReadsReturnSignedValues : Prop :=
  ∀ (i : Instr) (k : Nat) (cw : CommandWord),
    (i, k, cw) ∈ [(Instr.ri8, 1, 0x44000000#32), (.ri16, 2, 0x45000000#32),
      (.ri32, 4, 0x46000000#32), (.ri64, 8, 0x47000000#32)] →
    encode i = cw ∧
    ∀ s : State, s.Inv → s.op.pin = [] →
      (s.r.len < s.r.start + k → EndsInError i s .outOfBounds) ∧
      (s.r.start + k ≤ s.r.len →
        ∃ q : Word, q.toInt = twosComplement (8 * k) (bigEndian s.r.mem s.r.start k) ∧
          EndsOk i s { s with r := { s.r with offset := s.r.start + k, bitOffset := 0 } } q [])

/-- R189 to R192 and R197 to R199: the unsigned and the float-pattern peeks. -/
def Obligations.UnsignedPeeksReturnBigEndianValues : Prop :=
  ∀ (i : Instr) (k : Nat) (cw : CommandWord),
    (i, k, cw) ∈ [(Instr.pu8, 1, 0x60000000#32), (.pu16, 2, 0x61000000#32),
      (.pu32, 4, 0x62000000#32), (.pu64, 8, 0x63000000#32), (.pf16, 2, 0x69000000#32),
      (.pf32, 4, 0x6A000000#32), (.pf64, 8, 0x6B000000#32)] →
    encode i = cw ∧
    ∀ s : State, s.Inv → s.op.pin = [] →
      (s.r.len < s.r.start + k → EndsInError i s .outOfBounds) ∧
      (s.r.start + k ≤ s.r.len →
        EndsOk i s s (BitVec.ofNat 64 (bigEndian s.r.mem s.r.start k)) [])

/-- R193 to R196: the signed peeks. -/
def Obligations.SignedPeeksReturnSignedValues : Prop :=
  ∀ (i : Instr) (k : Nat) (cw : CommandWord),
    (i, k, cw) ∈ [(Instr.pi8, 1, 0x64000000#32), (.pi16, 2, 0x65000000#32),
      (.pi32, 4, 0x66000000#32), (.pi64, 8, 0x67000000#32)] →
    encode i = cw ∧
    ∀ s : State, s.Inv → s.op.pin = [] →
      (s.r.len < s.r.start + k → EndsInError i s .outOfBounds) ∧
      (s.r.start + k ≤ s.r.len →
        ∃ q : Word, q.toInt = twosComplement (8 * k) (bigEndian s.r.mem s.r.start k) ∧
          EndsOk i s s q [])

/-- R184 and its peek R188: the prefix width, the prefix, the payload, in that order. -/
def Obligations.BufferReadsReturnThePayload : Prop :=
  ∀ (n : Count) (s : State), s.Inv → s.op.pin = [] →
    let a := s.r.start
    let len := if n.toNat = 0 then s.op.a.toNat else bigEndian s.r.mem a n.toNat
    (encode (.rbuf n)).toNat = 0x35000000 + n.toNat * 2 ^ 16 ∧
    (encode (.pbuf n)).toNat = 0x55000000 + n.toNat * 2 ^ 16 ∧
    (n.toNat ∉ [0, 1, 2, 4] →
      EndsInError (.rbuf n) s .invalidParameter ∧ EndsInError (.pbuf n) s .invalidParameter) ∧
    (n.toNat ∈ [0, 1, 2, 4] → s.r.len < a + n.toNat ∨ s.r.len < a + n.toNat + len →
      EndsInError (.rbuf n) s .outOfBounds ∧ EndsInError (.pbuf n) s .outOfBounds) ∧
    (n.toNat ∈ [0, 1, 2, 4] → a + n.toNat + len ≤ s.r.len →
      ∃ bytes : List Byte, bytes.length = len ∧ s.r.mem.Holds (a + n.toNat) bytes ∧
        EndsOk (.rbuf n) s
          { s with r := { s.r with offset := a + n.toNat + len, bitOffset := 0 } }
          (BitVec.ofNat 64 len) bytes ∧
        EndsOk (.pbuf n) s s (BitVec.ofNat 64 len) bytes)

/-- R238, R239 and their peeks R240, R241: `OutOfBounds` where no varint ends inside the buffer, then
`Overflow`, then the value. -/
def Obligations.VarintReadsReturnTheDecodedValue : Prop :=
  encode .rvaru = 0x33000000 ∧ encode .rvars = 0x34000000 ∧
  encode .pvaru = 0x53000000 ∧ encode .pvars = 0x54000000 ∧
  ∀ s : State, s.Inv → s.op.pin = [] →
    ((∀ k, ¬ VarintAt s.r.mem s.r.start s.r.len k) →
      EndsInError .rvaru s .outOfBounds ∧ EndsInError .rvars s .outOfBounds ∧
      EndsInError .pvaru s .outOfBounds ∧ EndsInError .pvars s .outOfBounds) ∧
    ∀ k, VarintAt s.r.mem s.r.start s.r.len k →
      let v := varintValue s.r.mem s.r.start k
      let t := { s with r := { s.r with offset := s.r.start + k, bitOffset := 0 } }
      (2 ^ s.params.varw ≤ v →
        EndsInError .rvaru s .overflow ∧ EndsInError .rvars s .overflow ∧
        EndsInError .pvaru s .overflow ∧ EndsInError .pvars s .overflow) ∧
      (v < 2 ^ s.params.varw →
        EndsOk .rvaru s t (BitVec.ofNat 64 v) [] ∧ EndsOk .pvaru s s (BitVec.ofNat 64 v) [] ∧
        ∃ q : Word, q.toInt = unzigzagOf v ∧ EndsOk .rvars s t q [] ∧ EndsOk .pvars s s q [])

/-- R67: at an aligned cursor a bit read, and its peek (R187), return the top bits of the big-endian value
of the bytes they touch. -/
def Obligations.AlignedBitReadIsTheTopOfTheBytes : Prop :=
  ∀ (n : Count) (s : State), s.Inv → s.op.pin = [] → s.r.bitOffset = 0 → n.toNat ≤ 32 →
    8 * s.r.offset + n.toNat ≤ 8 * s.r.len →
    let k := (n.toNat + 7) / 8
    let v := bigEndian s.r.mem s.r.offset k / 2 ^ (8 * k - n.toNat)
    EndsOk (.rbits n) s
      { s with r := { s.r with offset := s.r.offset + n.toNat / 8, bitOffset := n.toNat % 8 } }
      (BitVec.ofNat 64 v) [] ∧
    EndsOk (.pbits n) s s (BitVec.ofNat 64 v) []

/-! ### Varint and zigzag functions -/

/-- R230: the encoder emits the shortest group encoding. -/
def Obligations.LebIsTheShortestEncoding : Prop :=
  ∀ u : Nat, IsVarint u (leb u)

/-- R245: the decoder inverts the encoder, wherever the bytes stand and whatever follows them. -/
def Obligations.UnlebInvertsLeb : Prop :=
  ∀ (m : Memory) (a k u : Nat), m.Holds a (leb u) → (leb u).length ≤ k →
    unleb m a k = .ok (u, (leb u).length)

/-- R233: the bit formula of zigzag is its arithmetic form. -/
def Obligations.ZigzagIsItsArithmeticForm : Prop :=
  ∀ (v : Nat) (x : Int), 1 ≤ v → -(2 ^ (v - 1)) ≤ x → x ≤ 2 ^ (v - 1) - 1 →
    (zz v x : Int) = zigzagOf x

/-- R234: the bit formula of un-zigzag is its arithmetic form. -/
def Obligations.UnzigzagIsItsArithmeticForm : Prop :=
  ∀ v u : Nat, 1 ≤ v → u < 2 ^ v → unzz v u = unzigzagOf u

/-- R235: zigzag is a bijection from the signed range onto [0, 2^VARW), un-zigzag its inverse; the
extremes. -/
def Obligations.ZigzagIsABijection : Prop :=
  ∀ v : Nat, 1 ≤ v →
    (∀ x : Int, -(2 ^ (v - 1)) ≤ x → x ≤ 2 ^ (v - 1) - 1 → zz v x < 2 ^ v ∧ unzz v (zz v x) = x) ∧
    (∀ u : Nat, u < 2 ^ v →
      -(2 ^ (v - 1)) ≤ unzz v u ∧ unzz v u ≤ 2 ^ (v - 1) - 1 ∧ zz v (unzz v u) = u) ∧
    zz v (2 ^ (v - 1) - 1) = 2 ^ v - 2 ∧ zz v (-(2 ^ (v - 1))) = 2 ^ v - 1

/-- R242, R243: the pure commands return the arithmetic zigzag values. -/
def Obligations.ZigzagCommandsReturnTheMappedValues : Prop :=
  encode .zigzag = 0x72000000 ∧ encode .unzigzag = 0x73000000 ∧
  ∀ s : State, s.Inv → s.op.pin = [] →
    (¬ InVarintRange s.params s.op.a.toInt → EndsInError .zigzag s .overflow) ∧
    (InVarintRange s.params s.op.a.toInt →
      EndsOk .zigzag s s (BitVec.ofNat 64 (zigzagOf s.op.a.toInt).toNat) []) ∧
    (2 ^ s.params.varw ≤ s.op.a.toNat → EndsInError .unzigzag s .overflow) ∧
    (s.op.a.toNat < 2 ^ s.params.varw →
      ∃ q : Word, q.toInt = unzigzagOf s.op.a.toNat ∧ EndsOk .unzigzag s s q [])

/-! ### System commands -/

/-- R287 with the table of R28. -/
def Obligations.RdcsrReturnsTheRegister : Prop :=
  ∀ (n : Count) (s : State), s.Inv → s.op.pin = [] →
    (encode (.rdcsr n)).toNat = 0x01000000 + n.toNat * 2 ^ 16 ∧
    (9 < n.toNat → EndsInError (.rdcsr n) s .invalidParameter) ∧
    (n.toNat ≤ 9 → csrValue s n.toNat < 2 ^ 36 ∧
      EndsOk (.rdcsr n) s s (BitVec.ofNat 64 (csrValue s n.toNat)) [])

/-- R288. -/
def Obligations.ClrerrClearsTheStickyBit : Prop :=
  encode .clrerr = 0x02000000 ∧
  ∀ s : State, s.op.pin = [] →
    EndsOk .clrerr s { s with status := { s.status with seen := false } } 0 []

/-- R280. -/
def Obligations.WinitStartsAnEmptyMessage : Prop :=
  ∀ (n : Count) (s : State), s.op.pin = [] →
    let cap := if s.op.a.toNat = 0 then s.params.wCapInit else s.op.a.toNat
    (encode (.winit n)).toNat = 0x10000000 + n.toNat * 2 ^ 16 ∧
    (1 < n.toNat ∨ s.params.wCapMax < cap → EndsInError (.winit n) s .invalidParameter) ∧
    (n.toNat ≤ 1 → cap ≤ s.params.wCapMax →
      ∃ w' : Writer, EndsOk (.winit n) s { s with w := w' } 0 [] ∧ w'.offset = 0 ∧
        w'.bitOffset = 0 ∧ w'.cap = cap ∧ (w'.expand = true ↔ n.toNat = 1) ∧
        ∀ a, w'.mem.read a = none)

/-- R281. -/
def Obligations.WviewReturnsTheWrittenBytes : Prop :=
  encode .wview = 0x16000000 ∧
  ∀ s : State, s.Inv → s.op.pin = [] →
    ∃ bytes : List Byte,
      bytes.length = s.w.offset + (if s.w.bitOffset = 0 then 0 else 1) ∧ s.w.mem.Holds 0 bytes ∧
      EndsOk .wview s s (BitVec.ofNat 64 bytes.length) bytes

/-- R282. -/
def Obligations.HandoffCopiesTheMessageToTheReader : Prop :=
  encode .handoff = 0x17000000 ∧
  ∀ s : State, s.Inv → s.op.pin = [] →
    let len := s.w.offset + (if s.w.bitOffset = 0 then 0 else 1)
    (s.params.rCapMax < len → EndsInError .handoff s .noSpace) ∧
    (len ≤ s.params.rCapMax →
      ∃ (w' : Writer) (r' : Reader),
        EndsOk .handoff s { s with w := w', r := r' } (BitVec.ofNat 64 len) [] ∧
        r'.len = len ∧ r'.offset = 0 ∧ r'.bitOffset = 0 ∧
        (∀ a, r'.mem.read a = s.w.mem.read a) ∧
        w'.offset = 0 ∧ w'.bitOffset = 0 ∧ w'.cap = s.w.cap ∧ w'.expand = s.w.expand ∧
        ∀ a, w'.mem.read a = none)

/-- R286. -/
def Obligations.RloadLoadsThePayload : Prop :=
  encode .rload = 0x30000000 ∧
  ∀ s : State,
    (s.op.pin.length ≠ s.op.a.toNat → EndsInError .rload s .illegalCommand) ∧
    (s.op.pin.length = s.op.a.toNat → s.params.rCapMax < s.op.a.toNat →
      EndsInError .rload s .noSpace) ∧
    (s.op.pin.length = s.op.a.toNat → s.op.a.toNat ≤ s.params.rCapMax →
      ∃ r' : Reader, EndsOk .rload s { s with r := r' } 0 [] ∧ r'.len = s.op.a.toNat ∧
        r'.offset = 0 ∧ r'.bitOffset = 0 ∧ ∀ a, r'.mem.read a = s.op.pin[a]?)

/-! ### The precision codec -/

/-- R264 with R261: the quantized integer is the exact rational formula, ties up. -/
def Obligations.ToprecIsTheExactFormula : Prop :=
  ∀ (n : Count) (s : State), s.op.pin = [] →
    (encode (.toprec n)).toNat = 0x70000000 + n.toNat * 2 ^ 16 ∧
    (n.toNat < 1 ∨ 32 < n.toNat ∨ ¬ ValidMax s.op.b ∨ isNaN s.op.a →
      EndsInError (.toprec n) s .invalidParameter) ∧
    ∀ c : ℚ, 1 ≤ n.toNat → n.toNat ≤ 32 → ValidMax s.op.b → ClampedTo s.op.a s.op.b c →
      ∃ q : Word, (q.toNat : Int) = ⌊c / realValue s.op.b * (2 ^ n.toNat - 1) + 1 / 2⌋ ∧
        q.toNat ≤ 2 ^ n.toNat - 1 ∧ EndsOk (.toprec n) s s q []

/-- R265 with R262 and R263: the result is the binary64 number nearest to the exact quotient, ties to
even, and its corner cases. -/
def Obligations.FromprecIsTheNearestBinary64 : Prop :=
  ∀ (n : Count) (s : State), s.op.pin = [] →
    (encode (.fromprec n)).toNat = 0x71000000 + n.toNat * 2 ^ 16 ∧
    (n.toNat < 1 ∨ 32 < n.toNat ∨ ¬ ValidMax s.op.b →
      EndsInError (.fromprec n) s .invalidParameter) ∧
    (1 ≤ n.toNat → n.toNat ≤ 32 → ValidMax s.op.b →
      (2 ^ n.toNat - 1 < s.op.a.toNat → EndsInError (.fromprec n) s .overflow) ∧
      (s.op.a.toNat ≤ 2 ^ n.toNat - 1 →
        ∃ q : Word, EndsOk (.fromprec n) s s q [] ∧
          IsNearestEven ((s.op.a.toNat : ℚ) / (2 ^ n.toNat - 1) * realValue s.op.b) q ∧
          realValue q ≤ realValue s.op.b ∧
          (s.op.a = 0 → q = 0) ∧ (s.op.a.toNat = 2 ^ n.toNat - 1 → q = s.op.b)))

/-- R266: quantizing a finite value and going back.  The exact reconstruction y lies within half a step
of the clamped value, the result within max(M·2^(−53), 2^(−1075)) of y, and so, for M ≥ 2^(−1042), the
result within one quantization step of the clamped value: the source's bound. -/
def Obligations.PrecisionRoundTripIsWithinOneStep : Prop :=
  ∀ (n : Count) (s : State), s.op.pin = [] → 1 ≤ n.toNat → n.toNat ≤ 32 → ValidMax s.op.b →
    isFinite s.op.a →
    let M := realValue s.op.b
    let L : ℚ := 2 ^ n.toNat - 1
    let c := min (max (realValue s.op.a) 0) M
    ∃ q r : Word, EndsOk (.toprec n) s s q [] ∧
      (let u := (s.afterOk q [])
       let v := { u with op := { a := q, b := s.op.b, pin := [] } }
       EndsOk (.fromprec n) v v r []) ∧
      |(q.toNat : ℚ) / L * M - c| ≤ M / (2 * L) ∧
      |realValue r - (q.toNat : ℚ) / L * M| ≤ max (M / 2 ^ 53) (1 / 2 ^ 1075) ∧
      (1 / 2 ^ 1042 ≤ M → |realValue r - c| ≤ M / L)

/-- R267: in `WQUANT`, TOPREC and then WBITS of its result, the WBITS never raises `Overflow`; in
`RQUANT`, RBITS and then FROMPREC of its result, the FROMPREC never does. -/
def Obligations.QuantizedFieldsNeverOverflow : Prop :=
  ∀ (n : Count) (x max : Word) (p : Pseudo) (c₁ c₂ : Word → Command) (s t u : State),
    p = .wquant n x max ∨ p = .rquant n max → p.commands = [c₁, c₂] →
    s.issue (c₁ s.q) = .next t → t.status.last = .ok → t.issue (c₂ t.q) = .next u →
    u.status.last ≠ .overflow

/-! ### Sequences -/

/-- R153: from an empty Writer, bit fields of widths n₁ … nⱼ give a stream of ⌈(n₁ + … + nⱼ) / 8⌉ bytes
whose bits are the fields' bits in order, then zeros. -/
def Obligations.BitFieldsGiveTheShortestStream : Prop :=
  ∀ (fields : List (Count × Word)) (b : Word) (s t : State), s.Inv → s.w.position = 0 →
    runOk (fields.map fun f => (.wbits f.1, { a := f.2, b := b, pin := [] })) s = some t →
    t.w.len = ((fields.map fun f => f.1.toNat).sum + 7) / 8 ∧
    ∀ x < 8 * t.w.len, bitAt t.w.mem x = ((fieldBits fields)[x]?.getD false).toNat

/-- R202: whatever list of Writer data commands completed on an empty message, the mirrored list run on
a Reader over exactly that stream completes, gives back every value and payload, and ends at the
Writer's cursor. -/
def Obligations.MirroredReadsReturnWhatWasWritten : Prop :=
  ∀ (cs : List (Instr × Operands)) (s t u : State), s.Inv → s.w.position = 0 →
    (∀ c ∈ cs, (mirrorOf c.1).isSome = true) → runOk cs s = some t →
    u.Inv → u.params = s.params → u.r.offset = 0 → u.r.bitOffset = 0 → u.r.len = t.w.len →
    u.r.mem = t.w.mem →
    ∃ v, runOk (cs.map mirrored) u = some v ∧
      v.completions = u.completions ++ cs.map readBack ∧
      v.r.offset = t.w.offset ∧ v.r.bitOffset = t.w.bitOffset

/-! ### The block's own step function -/

/-- A step with a command pending is R7's function of the parameters, the record of R20 and the
transaction, whatever else the state holds; it appends its completion to those already given, which stay
as they were, and keeps no copy of A, B and PIN (R20, R21, R23). -/
def Obligations.StepIsAFunctionOfBlockAndCommand : Prop :=
  ∀ (s : State) (c : Command) (rest : List HostEvent), s.pending = .command c :: rest →
    (∀ (b : Block) (x : Completion), s.toBlock.transact s.params c = .next (b, x) →
      step s = .next { b with
        op := .absent, params := s.params, pending := rest, completions := s.completions ++ [x] }) ∧
    (∀ t : State, step s = .next t →
      ∃ x : Completion, s.toBlock.transact s.params c = .next (t.toBlock, x) ∧
        t.completions = s.completions ++ [x] ∧ t.op = .absent) ∧
    ∀ f : Fault, s.toBlock.transact s.params c = .fault f ↔ step s = .fault f
end

