-- ==== Sys2Proof/Laws/State.lean ====
section
/-! SUPPORT. One lemma per field per update of the state, each true by rfl, and the small lemmas of the
Writer's, the Reader's and the status register's updates: no later proof unfolds a record update. -/

namespace Sys2Proof.Machine

variable (s : State) (w : Writer) (r : Reader) (x : StatusReg)

/-! ### `State.complete` -/

@[simp] theorem State.complete_w (q : Word) (pout : List Byte) :
    (s.complete q pout).w = s.w := rfl
@[simp] theorem State.complete_r (q : Word) (pout : List Byte) :
    (s.complete q pout).r = s.r := rfl
@[simp] theorem State.complete_status (q : Word) (pout : List Byte) :
    (s.complete q pout).status = s.status.succeed := rfl
@[simp] theorem State.complete_q (q : Word) (pout : List Byte) :
    (s.complete q pout).q = q := rfl
@[simp] theorem State.complete_op (q : Word) (pout : List Byte) :
    (s.complete q pout).op = .absent := rfl
@[simp] theorem State.complete_params (q : Word) (pout : List Byte) :
    (s.complete q pout).params = s.params := rfl
@[simp] theorem State.complete_pending (q : Word) (pout : List Byte) :
    (s.complete q pout).pending = s.pending := rfl
@[simp] theorem State.complete_completions (q : Word) (pout : List Byte) :
    (s.complete q pout).completions = s.completions ++ [{ st := .ok, q := q, pout := pout }] := rfl

/-! ### `State.raise` -/

@[simp] theorem State.raise_w (e : Status) :
    (s.raise e).w = s.w := rfl
@[simp] theorem State.raise_r (e : Status) :
    (s.raise e).r = s.r := rfl
@[simp] theorem State.raise_status (e : Status) :
    (s.raise e).status = s.status.fail e := rfl
@[simp] theorem State.raise_q (e : Status) :
    (s.raise e).q = 0 := rfl
@[simp] theorem State.raise_op (e : Status) :
    (s.raise e).op = .absent := rfl
@[simp] theorem State.raise_params (e : Status) :
    (s.raise e).params = s.params := rfl
@[simp] theorem State.raise_pending (e : Status) :
    (s.raise e).pending = s.pending := rfl
@[simp] theorem State.raise_completions (e : Status) :
    (s.raise e).completions = s.completions ++ [{ st := e, q := 0, pout := [] }] := rfl

/-! ### The block of a state after a command (R20) -/

@[simp] theorem State.complete_toBlock (q : Word) (pout : List Byte) :
    (s.complete q pout).toBlock = { s.toBlock with status := s.status.succeed, q := q } := rfl
@[simp] theorem State.raise_toBlock (e : Status) :
    (s.raise e).toBlock = { s.toBlock with status := s.status.fail e, q := 0 } := rfl
@[simp] theorem State.latch_toBlock (c : Command) : (s.latch c).toBlock = s.toBlock := rfl

/-! ### `State.latch` -/

@[simp] theorem State.latch_w (c : Command) :
    (s.latch c).w = s.w := rfl
@[simp] theorem State.latch_r (c : Command) :
    (s.latch c).r = s.r := rfl
@[simp] theorem State.latch_status (c : Command) :
    (s.latch c).status = s.status := rfl
@[simp] theorem State.latch_q (c : Command) :
    (s.latch c).q = s.q := rfl
@[simp] theorem State.latch_op (c : Command) :
    (s.latch c).op = { a := c.a, b := c.b, pin := c.pin } := rfl
@[simp] theorem State.latch_params (c : Command) :
    (s.latch c).params = s.params := rfl
@[simp] theorem State.latch_pending (c : Command) :
    (s.latch c).pending = s.pending := rfl
@[simp] theorem State.latch_completions (c : Command) :
    (s.latch c).completions = s.completions := rfl

/-! ### `State.hostReset` -/

@[simp] theorem State.hostReset_w :
    (s.hostReset).w = { offset := 0, bitOffset := 0, cap := s.params.wCapInit, expand := true, mem := [] } := rfl
@[simp] theorem State.hostReset_r :
    (s.hostReset).r = { offset := 0, bitOffset := 0, len := 0, mem := [] } := rfl
@[simp] theorem State.hostReset_status :
    (s.hostReset).status = { last := .ok, seen := false } := rfl
@[simp] theorem State.hostReset_q :
    (s.hostReset).q = 0 := rfl
@[simp] theorem State.hostReset_op :
    (s.hostReset).op = .absent := rfl
@[simp] theorem State.hostReset_params :
    (s.hostReset).params = s.params := rfl
@[simp] theorem State.hostReset_pending :
    (s.hostReset).pending = s.pending := rfl
@[simp] theorem State.hostReset_completions :
    (s.hostReset).completions = s.completions := rfl

/-! ### `State.afterOk` -/

@[simp] theorem State.afterOk_w (q : Word) (pout : List Byte) :
    (s.afterOk q pout).w = s.w := rfl
@[simp] theorem State.afterOk_r (q : Word) (pout : List Byte) :
    (s.afterOk q pout).r = s.r := rfl
@[simp] theorem State.afterOk_status (q : Word) (pout : List Byte) :
    (s.afterOk q pout).status = { last := .ok, seen := s.status.seen } := rfl
@[simp] theorem State.afterOk_q (q : Word) (pout : List Byte) :
    (s.afterOk q pout).q = q := rfl
@[simp] theorem State.afterOk_op (q : Word) (pout : List Byte) :
    (s.afterOk q pout).op = .absent := rfl
@[simp] theorem State.afterOk_params (q : Word) (pout : List Byte) :
    (s.afterOk q pout).params = s.params := rfl
@[simp] theorem State.afterOk_pending (q : Word) (pout : List Byte) :
    (s.afterOk q pout).pending = s.pending := rfl
@[simp] theorem State.afterOk_completions (q : Word) (pout : List Byte) :
    (s.afterOk q pout).completions = s.completions ++ [{ st := .ok, q := q, pout := pout }] := rfl

/-! ### `State.afterError` -/

@[simp] theorem State.afterError_w (e : Status) :
    (s.afterError e).w = s.w := rfl
@[simp] theorem State.afterError_r (e : Status) :
    (s.afterError e).r = s.r := rfl
@[simp] theorem State.afterError_status (e : Status) :
    (s.afterError e).status = { last := e, seen := true } := rfl
@[simp] theorem State.afterError_q (e : Status) :
    (s.afterError e).q = 0 := rfl
@[simp] theorem State.afterError_op (e : Status) :
    (s.afterError e).op = .absent := rfl
@[simp] theorem State.afterError_params (e : Status) :
    (s.afterError e).params = s.params := rfl
@[simp] theorem State.afterError_pending (e : Status) :
    (s.afterError e).pending = s.pending := rfl
@[simp] theorem State.afterError_completions (e : Status) :
    (s.afterError e).completions = s.completions ++ [{ st := e, q := 0, pout := [] }] := rfl

/-! ### Parts -/

@[simp] theorem Operands.absent_a : Operands.absent.a = 0 := rfl
@[simp] theorem Operands.absent_b : Operands.absent.b = 0 := rfl
@[simp] theorem Operands.absent_pin : Operands.absent.pin = [] := rfl


@[simp] theorem StatusReg.succeed_last : x.succeed.last = .ok := rfl
@[simp] theorem StatusReg.succeed_seen : x.succeed.seen = x.seen := rfl
@[simp] theorem StatusReg.fail_last (e : Status) : (x.fail e).last = e := rfl
@[simp] theorem StatusReg.fail_seen (e : Status) : (x.fail e).seen = true := rfl
@[simp] theorem StatusReg.clearSeen_last : x.clearSeen.last = x.last := rfl
@[simp] theorem StatusReg.clearSeen_seen : x.clearSeen.seen = false := rfl

@[simp] theorem Reader.seekByte_offset (a : Nat) : (r.seekByte a).offset = a := rfl
@[simp] theorem Reader.seekByte_bitOffset (a : Nat) : (r.seekByte a).bitOffset = 0 := rfl
@[simp] theorem Reader.seekByte_len (a : Nat) : (r.seekByte a).len = r.len := rfl
@[simp] theorem Reader.seekByte_mem (a : Nat) : (r.seekByte a).mem = r.mem := rfl

@[simp] theorem Writer.restart_offset : w.restart.offset = 0 := rfl
@[simp] theorem Writer.restart_bitOffset : w.restart.bitOffset = 0 := rfl
@[simp] theorem Writer.restart_cap : w.restart.cap = w.cap := rfl
@[simp] theorem Writer.restart_expand : w.restart.expand = w.expand := rfl
@[simp] theorem Writer.restart_mem : w.restart.mem = [] := rfl

@[simp] theorem Reader.load_offset (bs : List Byte) : (Reader.load bs).offset = 0 := rfl
@[simp] theorem Reader.load_bitOffset (bs : List Byte) : (Reader.load bs).bitOffset = 0 := rfl
@[simp] theorem Reader.load_len (bs : List Byte) : (Reader.load bs).len = bs.length := rfl
@[simp] theorem Reader.load_mem (bs : List Byte) :
    (Reader.load bs).mem = Memory.ofBytesAt 0 bs := rfl

/-- The success completion is the state claims call `afterOk`. -/
theorem State.complete_eq_afterOk (q : Word) (pout : List Byte) :
    s.complete q pout = s.afterOk q pout := rfl

/-- The error completion is the state claims call `afterError`. -/
theorem State.raise_eq_afterError (e : Status) : s.raise e = s.afterError e := rfl

/-- The written length is the aligned start. -/
theorem Writer.len_eq_start : w.len = w.start := rfl

end Sys2Proof.Machine
end

