-- ==== Sys2Proof/Laws/Memory.lean ====
section
/-! SUPPORT. The laws of a buffer memory: read after write, the canonical form, what a range read
answers and what a range write leaves (spec/00_scope.md R11, spec/20_memory.md R75). -/

namespace Sys2Proof.Machine

/-! ### One byte -/

@[simp] theorem Memory.read_nil (a : Nat) : Memory.read [] a = none := rfl

theorem Memory.read_cons (a' : Nat) (b : Byte) (m : Memory) (a : Nat) :
    Memory.read ((a', b) :: m) a = if a' = a then some b else m.read a := rfl

/-- A write to an address is what that address reads as. -/
@[simp] theorem Memory.read_write_same (m : Memory) (a : Nat) (b : Byte) :
    (m.write a b).read a = some b := by
  induction m with
  | nil => simp [Memory.write, Memory.read]
  | cons c m ih =>
    obtain ⟨a', b'⟩ := c
    simp only [Memory.write]
    split_ifs with h₁ h₂
    · simp [Memory.read]
    · simp [Memory.read]
    · rw [Memory.read_cons, if_neg (by omega), ih]

/-- A write to an address leaves every other address alone. -/
theorem Memory.read_write_other (m : Memory) {a x : Nat} (b : Byte) (h : x ≠ a) :
    (m.write a b).read x = m.read x := by
  induction m with
  | nil => simp [Memory.write, Memory.read, h.symm]
  | cons c m ih =>
    obtain ⟨a', b'⟩ := c
    simp only [Memory.write]
    split_ifs with h₁ h₂
    · rw [Memory.read_cons, if_neg h.symm]
    · subst h₂; simp [Memory.read_cons, h.symm]
    · rw [Memory.read_cons, Memory.read_cons, ih]

theorem Memory.read_write (m : Memory) (a x : Nat) (b : Byte) :
    (m.write a b).read x = if x = a then some b else m.read x := by
  split_ifs with h
  · rw [h, Memory.read_write_same]
  · exact m.read_write_other b h

/-- An address reads as a byte exactly when it is listed. -/
theorem Memory.read_isSome_iff (m : Memory) (a : Nat) :
    (m.read a).isSome ↔ a ∈ m.map Prod.fst := by
  induction m with
  | nil => simp
  | cons c m ih =>
    obtain ⟨a', b'⟩ := c
    rw [Memory.read_cons]
    split_ifs with h
    · simp [h]
    · simp [ih, Ne.symm h]

/-! ### The canonical form -/

/-- The canonical form says that the addresses are strictly rising. -/
theorem Memory.wf_iff (m : Memory) : m.wf = true ↔ (m.map Prod.fst).Pairwise (· < ·) := by
  induction m with
  | nil => simp [Memory.wf]
  | cons c m ih =>
    obtain ⟨a, b⟩ := c
    cases m with
    | nil => simp [Memory.wf]
    | cons c' m' =>
      obtain ⟨a', b'⟩ := c'
      simp only [Memory.wf, Bool.and_eq_true, decide_eq_true_eq, ih, List.map_cons,
        List.pairwise_cons, List.mem_cons, forall_eq_or_imp]
      constructor
      · rintro ⟨h, h₁, h₂⟩
        exact ⟨⟨h, fun x hx => lt_trans h (h₁ x hx)⟩, h₁, h₂⟩
      · rintro ⟨⟨h, -⟩, h₁, h₂⟩
        exact ⟨h, h₁, h₂⟩

/-- The addresses after a write: those before it, and the one written. -/
theorem Memory.mem_addresses_write (m : Memory) (a x : Nat) (b : Byte) :
    x ∈ (m.write a b).map Prod.fst ↔ x = a ∨ x ∈ m.map Prod.fst := by
  rw [← Memory.read_isSome_iff, ← Memory.read_isSome_iff, Memory.read_write]
  split_ifs with h <;> simp [h]

/-- A write keeps the canonical form. -/
theorem Memory.wf_write (m : Memory) (a : Nat) (b : Byte) (h : m.wf = true) :
    (m.write a b).wf = true := by
  rw [Memory.wf_iff] at *
  induction m with
  | nil => simp [Memory.write]
  | cons c m ih =>
    obtain ⟨a', b'⟩ := c
    simp only [List.map_cons, List.pairwise_cons] at h
    simp only [Memory.write]
    split_ifs with h₁ h₂
    · simp only [List.map_cons, List.pairwise_cons, List.mem_cons, forall_eq_or_imp]
      exact ⟨⟨h₁, fun x hx => lt_trans h₁ (h.1 x hx)⟩, h⟩
    · subst h₂
      simpa only [List.map_cons, List.pairwise_cons] using h
    · simp only [List.map_cons, List.pairwise_cons]
      refine ⟨fun x hx => ?_, ih h.2⟩
      rcases (Memory.mem_addresses_write m a x b).1 hx with rfl | hx
      · omega
      · exact h.1 x hx

/-- Two memories in canonical form that read alike are equal. -/
theorem Memory.ext_of_wf {m m' : Memory} (h : m.wf = true) (h' : m'.wf = true)
    (hr : ∀ a, m.read a = m'.read a) : m = m' := by
  rw [Memory.wf_iff] at h h'
  induction m generalizing m' with
  | nil =>
    cases m' with
    | nil => rfl
    | cons c m' =>
      obtain ⟨a', b'⟩ := c
      simpa [Memory.read_cons] using hr a'
  | cons c m ih =>
    obtain ⟨a, b⟩ := c
    cases m' with
    | nil => simpa [Memory.read_cons] using hr a
    | cons c' m' =>
      obtain ⟨a', b'⟩ := c'
      simp only [List.map_cons, List.pairwise_cons] at h h'
      have head : a = a' := by
        have h₁ := (Memory.read_isSome_iff ((a', b') :: m') a).1
          (by rw [← hr]; simp [Memory.read_cons])
        have h₂ := (Memory.read_isSome_iff ((a, b) :: m) a').1
          (by rw [hr]; simp [Memory.read_cons])
        simp only [List.map_cons, List.mem_cons] at h₁ h₂
        rcases h₁ with h₁ | h₁
        · exact h₁
        · rcases h₂ with h₂ | h₂
          · exact h₂.symm
          · have := h.1 a' h₂; have := h'.1 a h₁; omega
      subst head
      have byte : b = b' := by simpa [Memory.read_cons] using hr a
      subst byte
      rw [ih h.2 h'.2 fun x => ?_]
      by_cases hx : a = x
      · subst hx
        have n₁ : ¬ (Memory.read m a).isSome := fun k =>
          absurd (h.1 a ((Memory.read_isSome_iff m a).1 k)) (lt_irrefl a)
        have n₂ : ¬ (Memory.read m' a).isSome := fun k =>
          absurd (h'.1 a ((Memory.read_isSome_iff m' a).1 k)) (lt_irrefl a)
        simp only [Option.not_isSome_iff_eq_none] at n₁ n₂
        rw [n₁, n₂]
      · simpa [Memory.read_cons, hx] using hr x

/-! ### Memories defined exactly on 0 … n − 1 -/

/-- A memory whose addresses are 0 … n − 1 is in canonical form. -/
theorem Memory.wf_of_range {m : Memory} {n : Nat} (h : m.map Prod.fst = List.range n) :
    m.wf = true := by
  rw [Memory.wf_iff, h]; exact List.pairwise_lt_range

/-- … and reads as a byte exactly there. -/
theorem Memory.isSome_of_range {m : Memory} {n : Nat} (h : m.map Prod.fst = List.range n)
    (a : Nat) : (m.read a).isSome ↔ a < n := by
  rw [Memory.read_isSome_iff, h, List.mem_range]

/-- A strictly rising list of addresses that lists exactly 0 … n − 1 is `List.range n`. -/
theorem Memory.range_of_wf {m : Memory} {n : Nat} (hw : m.wf = true)
    (h : ∀ a, (m.read a).isSome ↔ a < n) : m.map Prod.fst = List.range n := by
  rw [Memory.wf_iff] at hw
  refine List.Perm.eq_of_pairwise (le := (· < ·)) (fun a b _ _ h₁ h₂ => by omega) hw
    List.pairwise_lt_range ?_
  refine (List.perm_ext_iff_of_nodup (hw.imp fun h => Nat.ne_of_lt h) List.nodup_range).2 fun a => ?_
  rw [← Memory.read_isSome_iff, h, List.mem_range]

/-- A write at or below the end extends the range by at most its own address. -/
theorem Memory.range_write {m : Memory} {n a : Nat} (b : Byte)
    (h : m.map Prod.fst = List.range n) (ha : a ≤ n) :
    (m.write a b).map Prod.fst = List.range (max n (a + 1)) := by
  refine Memory.range_of_wf (m.wf_write a b (Memory.wf_of_range h)) fun x => ?_
  rw [Memory.read_write]
  split_ifs with hx
  · subst hx; simp
  · rw [Memory.isSome_of_range h]; omega

/-- The byte at a defined address, as a number. -/
theorem byteAt_of_read {m : Memory} {a : Nat} {b : Byte} (h : m.read a = some b) :
    byteAt m a = b.toNat := by simp [byteAt, h]

theorem byteAt_lt (m : Memory) (a : Nat) : byteAt m a < 256 := by
  unfold byteAt
  cases m.read a with
  | none => simp
  | some b => exact b.isLt

/-! ### Ranges of bytes -/

/-- What a range read answers: the bytes at its addresses. -/
theorem Memory.readBytes_eq_some (m : Memory) (a k : Nat) (bs : List Byte) :
    m.readBytes a k = some bs ↔ bs.length = k ∧ m.Holds a bs := by
  induction k generalizing a bs with
  | zero =>
    simp only [Memory.readBytes, Option.some.injEq, List.length_eq_zero_iff]
    constructor
    · rintro rfl; exact ⟨rfl, fun j b h => by simp at h⟩
    · rintro ⟨rfl, -⟩; rfl
  | succ k ih =>
    simp only [Memory.readBytes]
    constructor
    · intro h
      split at h
      · rename_i b bs' h₁ h₂
        obtain rfl := Option.some.inj h
        obtain ⟨hl, hh⟩ := (ih (a + 1) bs').1 h₂
        refine ⟨by simp [hl], fun j c hj => ?_⟩
        cases j with
        | zero => simpa [h₁] using hj
        | succ j =>
          have := hh j c (by simpa using hj)
          rwa [show a + (j + 1) = a + 1 + j by omega]
      · cases h
    · rintro ⟨hl, hh⟩
      cases bs with
      | nil => simp at hl
      | cons b bs =>
        have h₁ : m.read a = some b := hh 0 b (by simp)
        have h₂ : m.readBytes (a + 1) k = some bs := (ih (a + 1) bs).2
          ⟨by simpa using hl, fun j c hj => by
            have := hh (j + 1) c (by simpa using hj)
            rwa [show a + 1 + j = a + (j + 1) by omega]⟩
        rw [h₁, h₂]

/-- A range read answers whenever all its addresses are defined. -/
theorem Memory.exists_readBytes {m : Memory} {n : Nat} (h : m.map Prod.fst = List.range n)
    {a k : Nat} (hk : a + k ≤ n) : ∃ bs, m.readBytes a k = some bs := by
  induction k generalizing a with
  | zero => exact ⟨[], rfl⟩
  | succ k ih =>
    obtain ⟨bs, hbs⟩ := ih (a := a + 1) (by omega)
    obtain ⟨b, hb⟩ := Option.isSome_iff_exists.1 ((Memory.isSome_of_range h a).2 (by omega))
    exact ⟨b :: bs, by simp only [Memory.readBytes, hb, hbs]⟩

/-- What a range write leaves at every address. -/
theorem Memory.read_writeBytes (m : Memory) (a x : Nat) (bs : List Byte) :
    (m.writeBytes a bs).read x =
      if a ≤ x ∧ x < a + bs.length then bs[x - a]? else m.read x := by
  induction bs generalizing m a with
  | nil => simp only [Memory.writeBytes, List.length_nil]; rw [if_neg (by omega)]
  | cons b bs ih =>
    simp only [Memory.writeBytes, ih, List.length_cons]
    by_cases h : a + 1 ≤ x ∧ x < a + 1 + bs.length
    · rw [if_pos h, if_pos (by omega), show x - a = x - (a + 1) + 1 by omega,
        List.getElem?_cons_succ]
    · rw [if_neg h, Memory.read_write]
      by_cases hx : x = a
      · subst hx; simp
      · rw [if_neg hx, if_neg (by omega)]

/-- A range write stores its bytes and nothing else. -/
theorem Memory.writeBytes_holds (m : Memory) (a : Nat) (bs : List Byte) :
    (m.writeBytes a bs).Holds a bs ∧ SameOutside m (m.writeBytes a bs) a bs.length := by
  constructor
  · intro j b hj
    have hl : j < bs.length := (List.getElem?_eq_some_iff.1 hj).1
    rw [Memory.read_writeBytes, if_pos (by omega), Nat.add_sub_cancel_left, hj]
  · intro x hx
    rw [Memory.read_writeBytes, if_neg (by omega)]

/-- A range write keeps the canonical form. -/
theorem Memory.wf_writeBytes (m : Memory) (a : Nat) (bs : List Byte) (h : m.wf = true) :
    (m.writeBytes a bs).wf = true := by
  induction bs generalizing m a with
  | nil => exact h
  | cons b bs ih => exact ih _ _ (m.wf_write a b h)

/-- A range write that starts at or below the end extends the range to its own end. -/
theorem Memory.range_writeBytes {m : Memory} {n a : Nat} (bs : List Byte)
    (h : m.map Prod.fst = List.range n) (ha : a ≤ n) :
    (m.writeBytes a bs).map Prod.fst = List.range (max n (a + bs.length)) := by
  refine Memory.range_of_wf (m.wf_writeBytes a bs (Memory.wf_of_range h)) fun x => ?_
  rw [Memory.read_writeBytes]
  split_ifs with hx
  · rw [List.getElem?_eq_getElem (by omega)]; simp; omega
  · rw [Memory.isSome_of_range h]; omega

theorem Memory.addresses_ofBytesAt (a : Nat) (bs : List Byte) :
    (Memory.ofBytesAt a bs).map Prod.fst = List.range' a bs.length := by
  induction bs generalizing a with
  | nil => rfl
  | cons b bs ih => simp [Memory.ofBytesAt, ih, List.range'_succ]

/-- A loaded memory is defined exactly on the addresses of its bytes. -/
theorem Memory.range_ofBytes (bs : List Byte) :
    (Memory.ofBytesAt 0 bs).map Prod.fst = List.range bs.length := by
  rw [Memory.addresses_ofBytesAt, List.range_eq_range']

/-- A loaded memory is in canonical form. -/
theorem Memory.wf_ofBytes (bs : List Byte) : (Memory.ofBytesAt 0 bs).wf = true :=
  Memory.wf_of_range (Memory.range_ofBytes bs)

/-- A loaded memory holds its bytes. -/
theorem Memory.read_ofBytesAt (a x : Nat) (bs : List Byte) :
    (Memory.ofBytesAt a bs).read x = if a ≤ x then bs[x - a]? else none := by
  induction bs generalizing a with
  | nil => simp [Memory.ofBytesAt]
  | cons b bs ih =>
    simp only [Memory.ofBytesAt, Memory.read_cons, ih]
    by_cases hx : a = x
    · subst hx; simp
    · rw [if_neg hx]
      by_cases h : a + 1 ≤ x
      · rw [if_pos h, if_pos (by omega), show x - a = x - (a + 1) + 1 by omega,
          List.getElem?_cons_succ]
      · rw [if_neg h, if_neg (by omega)]

/-- The reset memory is in canonical form. -/
theorem reset_memories_wf : State.reset.w.mem.wf = true ∧ State.reset.r.mem.wf = true := by decide

end Sys2Proof.Machine
end

