-- ==== Sys2Proof/Laws/Completion.lean ====
section
/-! SUPPORT. What the shared ways of ending a command can answer: `finish`, `perform`, `writing`,
`reading`, `computing` (spec/60_exceptions.md R304), and what the host's event does to the port. -/

namespace Sys2Proof.Machine

variable {s t : State}

/-- All that `finish` can answer with a next state. -/
theorem State.finish_next {x : Result Effect} (h : s.finish x = .next t) :
    (∃ e, x = .ok e ∧ t = e.state.complete e.q e.pout) ∨
    (∃ st, x = .error (.raise st) ∧ t = s.raise st) := by
  unfold State.finish at h
  split at h
  · exact .inl ⟨_, rfl, (Host.Outcome.next.inj h).symm⟩
  · exact .inr ⟨_, rfl, (Host.Outcome.next.inj h).symm⟩
  · cases h

/-- All that `perform` can answer with a next state. -/
theorem State.perform_next {framed : Bool} {x : Result Effect}
    (h : s.perform framed x = .next t) :
    (framed = true ∧ ∃ e, x = .ok e ∧ t = e.state.complete e.q e.pout) ∨
    (framed = true ∧ ∃ st, x = .error (.raise st) ∧ t = s.raise st) ∨
    (framed = false ∧ t = s.raise .illegalCommand) := by
  unfold State.perform at h
  cases framed with
  | true =>
    rcases State.finish_next h with h | h
    · exact .inl ⟨rfl, h⟩
    · exact .inr (.inl ⟨rfl, h⟩)
  | false =>
    rcases State.finish_next h with ⟨e, he, -⟩ | ⟨st, he, ht⟩
    · simp at he
    · simp only [Bool.false_eq_true, if_false, Except.error.injEq, Stop.raise.injEq] at he
      exact .inr (.inr ⟨rfl, by rw [ht, he]⟩)

/-- `perform` with good framing and a rule that completes. -/
theorem State.perform_ok {framed : Bool} {x : Result Effect} {e : Effect} (hf : framed = true)
    (hx : x = .ok e) : s.perform framed x = .next (e.state.complete e.q e.pout) := by
  subst hf hx; rfl

/-- `perform` with good framing and a rule that raises. -/
theorem State.perform_raise {framed : Bool} {x : Result Effect} {st : Status}
    (hf : framed = true) (hx : x = .error (.raise st)) :
    s.perform framed x = .next (s.raise st) := by
  subst hf hx; rfl

/-- `perform` with wrong framing. -/
theorem State.perform_illegal {framed : Bool} (x : Result Effect) (hf : framed = false) :
    s.perform framed x = .next (s.raise .illegalCommand) := by
  subst hf; rfl

/-- `perform` never refuses. -/
theorem State.perform_ne_refused {framed : Bool} {x : Result Effect} {ρ : Refusal} :
    s.perform framed x ≠ .refused ρ := by
  unfold State.perform State.finish
  split <;> simp

theorem State.writing_ok {x : Result Writer} {e : Effect} (h : s.writing x = .ok e) :
    ∃ w, x = .ok w ∧ e = { state := { s with w := w }, q := 0, pout := [] } := by
  unfold State.writing at h
  split at h
  · exact ⟨_, rfl, (Except.ok.inj h).symm⟩
  · cases h

theorem State.writing_error {x : Result Writer} {e : Stop} :
    s.writing x = .error e ↔ x = .error e := by
  unfold State.writing
  split <;> simp

theorem State.reading_ok {peek : Bool} {x : Result Reading} {e : Effect}
    (h : s.reading peek x = .ok e) :
    ∃ d, x = .ok d ∧
      e = { state := if peek then s else { s with r := d.reader }, q := d.q, pout := d.pout } := by
  unfold State.reading at h
  split at h
  · exact ⟨_, rfl, (Except.ok.inj h).symm⟩
  · cases h

theorem State.reading_error {peek : Bool} {x : Result Reading} {e : Stop} :
    s.reading peek x = .error e ↔ x = .error e := by
  unfold State.reading
  split <;> simp

theorem State.computing_ok {x : Result Word} {e : Effect} (h : s.computing x = .ok e) :
    ∃ q, x = .ok q ∧ e = { state := s, q := q, pout := [] } := by
  unfold State.computing at h
  split at h
  · exact ⟨_, rfl, (Except.ok.inj h).symm⟩
  · cases h

theorem State.computing_error {x : Result Word} {e : Stop} :
    s.computing x = .error e ↔ x = .error e := by
  unfold State.computing
  split <;> simp

/-- No payload is the empty list. -/
@[simp] theorem Operands.noPayload_iff (o : Operands) : o.noPayload = true ↔ o.pin = [] := by
  simp [Operands.noPayload]

@[simp] theorem Operands.payloadOfLengthA_iff (o : Operands) :
    o.payloadOfLengthA = true ↔ o.pin.length = o.a.toNat := by
  simp [Operands.payloadOfLengthA]

/-- Taking an event. -/
theorem State.takeEvent_cons {e : HostEvent} {rest : List HostEvent} (h : s.pending = e :: rest) :
    s.takeEvent = some (e, { s with pending := rest }) := by
  unfold State.takeEvent; rw [h]

theorem State.takeEvent_nil (h : s.pending = []) : s.takeEvent = none := by
  unfold State.takeEvent; rw [h]

end Sys2Proof.Machine
end

