-- ==== Sys2Proof/Laws/Writer.lean ====
section
/-! SUPPORT. What the Writer's operations can do: growth, the byte-level write, alignment
(spec/40_writer.md R130 to R133), and that each keeps the Writer's invariants
(spec/10_state.md R35). -/

namespace Sys2Proof.Machine

variable {p : Params} {w w' : Writer}

theorem Writer.start_eq (w : Writer) :
    w.start = if w.bitOffset = 0 then w.offset else w.offset + 1 := by
  unfold Writer.start; split_ifs <;> rfl

/-- The growth loop answers the first clamped doubling that reaches `k`. -/
theorem growTo_spec {M k c fuel : Nat} (hk : k ≤ M) (hc : 1 ≤ c) (hM : c ≤ M) (hck : c < k)
    (hf : k ≤ c + fuel) :
    ∃ j, growTo M k fuel c = min (c * 2 ^ j) M ∧ k ≤ growTo M k fuel c ∧
      ∀ i < j, min (c * 2 ^ i) M < k := by
  induction fuel generalizing c with
  | zero => omega
  | succ fuel ih =>
    rw [growTo, if_pos hck]
    by_cases h : min (2 * c) M < k
    · obtain ⟨j, hj, hk', hi⟩ := ih (c := min (2 * c) M) (by omega) (by omega) h (by omega)
      have shift : ∀ i, min (min (2 * c) M * 2 ^ i) M = min (c * 2 ^ (i + 1)) M := by
        intro i
        have : 1 ≤ 2 ^ i := Nat.one_le_two_pow
        rw [show c * 2 ^ (i + 1) = 2 * c * 2 ^ i by ring]
        rcases Nat.le_total (2 * c) M with h' | h'
        · rw [min_eq_left h']
        · rw [min_eq_right h', min_eq_right (Nat.le_mul_of_pos_right M this),
            min_eq_right (le_trans h' (Nat.le_mul_of_pos_right _ this))]
      refine ⟨j + 1, by rw [hj, shift], hk', fun i hi' => ?_⟩
      cases i with
      | zero => simp only [pow_zero, mul_one]; omega
      | succ i => rw [← shift]; exact hi i (by omega)
    · have stop : growTo M k fuel (min (2 * c) M) = min (2 * c) M := by
        cases fuel with
        | zero => rfl
        | succ f => rw [growTo, if_neg h]
      refine ⟨1, by rw [stop, pow_one, Nat.mul_comm], by rw [stop]; omega, fun i hi => ?_⟩
      obtain rfl : i = 0 := by omega
      simp only [pow_zero, mul_one]; omega

/-- All that `Ensure(k)` can do: leave the Writer, change its capacity alone, or raise `NoSpace`. -/
theorem Writer.ensure_ok {k : Nat} (hi : w.Inv p) (h : w.ensure p k = .ok w') :
    w.Fits p k ∧ ∃ c, w' = { w with cap := c } ∧ CapacityAfter p w k c ∧ k ≤ c ∧
      c ≤ p.wCapMax ∧ w.cap ≤ c := by
  obtain ⟨-, h1, hM, -⟩ := hi
  unfold Writer.ensure at h
  split_ifs at h with h₁ h₂
  · obtain rfl := Except.ok.inj h
    exact ⟨.inl h₁, w.cap, rfl, .inl ⟨h₁, rfl⟩, h₁, hM, le_rfl⟩
  · obtain rfl := Except.ok.inj h
    have he : w.expand = true ∧ k ≤ p.wCapMax := by
      constructor
      · cases hx : w.expand
        · exact absurd (.inl hx) h₂
        · rfl
      · exact Nat.le_of_not_lt fun hx => h₂ (.inr hx)
    obtain ⟨j, hj, hk, hlt⟩ :=
      growTo_spec (fuel := k) he.2 h1 hM (Nat.lt_of_not_le h₁) (Nat.le_add_left _ _)
    refine ⟨.inr he, _, rfl, .inr ⟨Nat.lt_of_not_le h₁, j, hj, hk, hlt⟩, hk, ?_, ?_⟩
    · rw [hj]; exact min_le_right _ _
    · omega

/-- `Ensure(k)` succeeds exactly when `k` fits. -/
theorem Writer.ensure_of_fits {k : Nat} (h : w.Fits p k) : ∃ c, w.ensure p k = .ok { w with cap := c } := by
  unfold Writer.ensure
  split_ifs with h₁ h₂
  · exact ⟨w.cap, rfl⟩
  · rcases h with h | ⟨he, hk⟩
    · exact absurd h h₁
    · rcases h₂ with h₂ | h₂
      · rw [he] at h₂; cases h₂
      · omega
  · exact ⟨_, rfl⟩

theorem Writer.ensure_noSpace {k : Nat} (h : ¬ w.Fits p k) :
    w.ensure p k = .error (.raise .noSpace) := by
  unfold Writer.Fits at h
  unfold Writer.ensure
  rw [if_neg fun hk => h (.inl hk), if_pos]
  cases hx : w.expand
  · exact .inl rfl
  · exact .inr (Nat.lt_of_not_le fun hk => h (.inr ⟨hx, hk⟩))

/-- All that the byte-level write can do when it succeeds (R130). -/
theorem Writer.byteWrite_ok {bs : List Byte} (hi : w.Inv p) (h : w.byteWrite p bs = .ok w') :
    w.Fits p (w.start + bs.length) ∧ ByteWritten p w w' bs ∧ w'.Inv p ∧
      w'.mem = w.mem.writeBytes w.start bs := by
  unfold Writer.byteWrite at h
  split at h
  · cases h
  · rename_i w₁ he
    obtain ⟨hf, c, rfl, hc, hk, hM, hle⟩ := Writer.ensure_ok hi he
    obtain rfl := Except.ok.inj h
    have hw := Memory.writeBytes_holds w.mem w.start bs
    refine ⟨hf, ⟨rfl, rfl, rfl, hc, hw.1, hw.2⟩, ?_, rfl⟩
    obtain ⟨-, h1, -, -, hr, -⟩ := hi
    refine ⟨Nat.zero_le _, le_trans h1 hle, hM, ?_, ?_, fun hx => absurd rfl hx⟩
    · simpa [Writer.len] using hk
    · have := Memory.range_writeBytes bs hr (le_refl _)
      rw [Writer.len_eq_start] at this
      simpa [Writer.len] using this

/-- The byte-level write raises `NoSpace` exactly when the bytes do not fit. -/
theorem Writer.byteWrite_noSpace {bs : List Byte} (h : ¬ w.Fits p (w.start + bs.length)) :
    w.byteWrite p bs = .error (.raise .noSpace) := by
  unfold Writer.byteWrite; rw [Writer.ensure_noSpace h]

/-- The byte-level write succeeds when the bytes fit. -/
theorem Writer.byteWrite_of_fits {bs : List Byte} (h : w.Fits p (w.start + bs.length)) :
    ∃ w', w.byteWrite p bs = .ok w' := by
  obtain ⟨c, hc⟩ := Writer.ensure_of_fits h
  exact ⟨_, by unfold Writer.byteWrite; rw [hc]⟩

/-- The byte-level write raises `NoSpace` or nothing. -/
theorem Writer.byteWrite_error {bs : List Byte} {e : Stop} (h : w.byteWrite p bs = .error e) :
    e = .raise .noSpace := by
  by_cases hf : w.Fits p (w.start + bs.length)
  · obtain ⟨w', hw⟩ := Writer.byteWrite_of_fits hf
    rw [hw] at h; cases h
  · rw [Writer.byteWrite_noSpace hf] at h
    exact (Except.error.inj h).symm

/-- `WALIGN` keeps the invariants and the written length (R133). -/
theorem Writer.align_inv (hi : w.Inv p) : w.align.Inv p ∧ w.align.len = w.len := by
  unfold Writer.align
  split_ifs with h
  · exact ⟨hi, rfl⟩
  · obtain ⟨hb, h1, hM, hl, hr, -⟩ := hi
    have hlen : w.len = w.offset + 1 := by simp [Writer.len, h]
    refine ⟨⟨Nat.zero_le _, h1, hM, ?_, ?_, fun hx => absurd rfl hx⟩, ?_⟩ <;>
      simp only [Writer.len, if_true, Nat.add_zero]
    · omega
    · rw [hr, hlen]
    · exact hlen.symm

/-- The written bytes of a Writer that keeps its invariants (R281). -/
theorem Writer.view_ok (hi : w.Inv p) :
    ∃ bs, w.view = .ok bs ∧ bs.length = w.len ∧ w.mem.Holds 0 bs := by
  obtain ⟨-, -, -, -, hr, -⟩ := hi
  obtain ⟨bs, hbs⟩ := Memory.exists_readBytes hr (a := 0) (k := w.len) (by omega)
  have := (Memory.readBytes_eq_some _ _ _ _).1 hbs
  exact ⟨bs, by unfold Writer.view defined; rw [hbs], this.1, this.2⟩

/-- A restarted Writer keeps the invariants (R282). -/
theorem Writer.restart_inv (hi : w.Inv p) : w.restart.Inv p := by
  obtain ⟨-, h1, hM, -⟩ := hi
  exact ⟨Nat.zero_le _, h1, hM, Nat.zero_le _, rfl, fun hx => absurd rfl hx⟩

end Sys2Proof.Machine
end

