-- ==== Sys2Proof/Laws/Bits.lean ====
section
/-! SUPPORT. What the bit loops of `WBITS` and `RBITS` can do (spec/40_writer.md R134, R135,
spec/41_reader.md R172), bit by bit of the stream (spec/00_scope.md R10). -/

namespace Sys2Proof.Machine

/-- The memory of a Writer whose cursor is at stream bit position `q`: defined exactly up to the cursor,
the unwritten bits of a partial byte 0 (spec/10_state.md R34, R35 item 5). -/
def CleanAt (m : Memory) (q : Nat) : Prop :=
  m.map Prod.fst = List.range ((q + 7) / 8) ∧
  (q % 8 ≠ 0 → byteAt m (q / 8) % 2 ^ (8 - q % 8) = 0)

theorem byteAt_write (m : Memory) (a x : Nat) (b : Byte) :
    byteAt (m.write a b) x = if x = a then b.toNat else byteAt m x := by
  unfold byteAt
  rw [Memory.read_write]
  split_ifs <;> rfl

theorem bitAt_lt_two (m : Memory) (p : Nat) : bitAt m p < 2 := Nat.mod_lt _ (by omega)

/-- One bit ORed into a byte whose bits from there down are 0 is added to it. -/
theorem or_bit_toNat (old : Byte) (bit : Bool) {k : Nat} (hk : k < 8)
    (h : old.toNat % 2 ^ (8 - k) = 0) :
    (old ||| ((BitVec.ofBool bit).setWidth 8 <<< (7 - k))).toNat =
      old.toNat + bit.toNat * 2 ^ (7 - k) := by
  obtain ⟨c, hc⟩ := Nat.dvd_of_mod_eq_zero h
  have hb : bit.toNat * 2 ^ (7 - k) < 2 ^ (8 - k) := by
    have : bit.toNat ≤ 1 := Bool.toNat_le bit
    have h2 : 2 ^ (8 - k) = 2 * 2 ^ (7 - k) := by rw [← pow_succ']; congr 1; omega
    have : 0 < 2 ^ (7 - k) := Nat.two_pow_pos _
    nlinarith
  have hs : ((BitVec.ofBool bit).setWidth 8 <<< (7 - k)).toNat = bit.toNat * 2 ^ (7 - k) := by
    have h8 : 2 ^ (8 - k) ≤ 2 ^ 8 := Nat.pow_le_pow_right (by omega) (by omega)
    rw [BitVec.toNat_shiftLeft, BitVec.toNat_setWidth, BitVec.toNat_ofBool, Nat.shiftLeft_eq]
    have : bit.toNat % 2 ^ 8 = bit.toNat := Nat.mod_eq_of_lt (by have := Bool.toNat_le bit; omega)
    rw [this, Nat.mod_eq_of_lt (by omega)]
  rw [BitVec.toNat_or, hs, hc, ← Nat.two_pow_add_eq_or_of_lt hb]

/-- The bits of such a byte: those above as they were, the new one, zeros below. -/
theorem add_bit_bits {old b k : Nat} (hk : k < 8) (hb : b < 2) (h : old % 2 ^ (8 - k) = 0) :
    (∀ kx < k, (old + b * 2 ^ (7 - k)) / 2 ^ (7 - kx) % 2 = old / 2 ^ (7 - kx) % 2) ∧
    (old + b * 2 ^ (7 - k)) / 2 ^ (7 - k) % 2 = b ∧ (old + b * 2 ^ (7 - k)) % 2 ^ (7 - k) = 0 := by
  obtain ⟨c, rfl⟩ := Nat.dvd_of_mod_eq_zero h
  have h2 : 2 ^ (8 - k) = 2 * 2 ^ (7 - k) := by rw [← pow_succ']; congr 1; omega
  have hp : 0 < 2 ^ (7 - k) := Nat.two_pow_pos _
  refine ⟨fun kx hx => ?_, ?_, ?_⟩
  · have h3 : 2 ^ (7 - kx) = 2 ^ (8 - k) * 2 ^ (k - kx - 1) := by rw [← pow_add]; congr 1; omega
    have hlt : b * 2 ^ (7 - k) < 2 ^ (8 - k) := by nlinarith
    rw [h3, ← Nat.div_div_eq_div_mul, ← Nat.div_div_eq_div_mul, Nat.mul_add_div (by positivity),
      Nat.div_eq_of_lt hlt, Nat.mul_div_cancel_left _ (by positivity), Nat.add_zero]
  · rw [h2, show 2 * 2 ^ (7 - k) * c + b * 2 ^ (7 - k) = (2 * c + b) * 2 ^ (7 - k) by ring,
      Nat.mul_div_cancel _ hp]
    omega
  · rw [h2, show 2 * 2 ^ (7 - k) * c + b * 2 ^ (7 - k) = (2 * c + b) * 2 ^ (7 - k) by ring,
      Nat.mul_mod_left]

/-- All that storing one bit at the cursor can do (R134, R135). -/
theorem Memory.putBit_spec {m : Memory} {q : Nat} (bit : Bool) (h : CleanAt m q) :
    ∃ m', m.putBit q bit = .ok m' ∧ CleanAt m' (q + 1) ∧ bitAt m' q = bit.toNat ∧
      (∀ x < q, bitAt m' x = bitAt m x) ∧ ∀ a, a ≠ q / 8 → m'.read a = m.read a := by
  obtain ⟨hr, hz⟩ := h
  obtain ⟨old, hold, holdz, hsame⟩ : ∃ old : Byte,
      (if q % 8 = 0 then some 0 else m.read (q / 8)) = some old ∧
      old.toNat % 2 ^ (8 - q % 8) = 0 ∧ (q % 8 ≠ 0 → byteAt m (q / 8) = old.toNat) := by
    split_ifs with h0
    · exact ⟨0, rfl, by simp, fun h => absurd h0 h⟩
    · obtain ⟨b, hb⟩ := Option.isSome_iff_exists.1
        ((Memory.isSome_of_range hr (q / 8)).2 (by omega))
      exact ⟨b, hb, by rw [← byteAt_of_read hb]; exact hz h0, fun _ => byteAt_of_read hb⟩
  refine ⟨_, by simp only [Memory.putBit]; rw [hold], ?_, ?_, ?_, ?_⟩
  · have hk : q % 8 < 8 := Nat.mod_lt _ (by omega)
    have bits := add_bit_bits (b := bit.toNat) hk (Bool.toNat_lt bit) holdz
    refine ⟨?_, fun h1 => ?_⟩
    · rw [Memory.range_write _ hr (by omega)]
      congr 1; omega
    · rw [byteAt_write, if_pos (by omega), or_bit_toNat old bit hk holdz,
        show 8 - (q + 1) % 8 = 7 - q % 8 by omega]
      exact bits.2.2
  · have hk : q % 8 < 8 := Nat.mod_lt _ (by omega)
    rw [bitAt, byteAt_write, if_pos rfl, or_bit_toNat old bit hk holdz]
    exact (add_bit_bits hk (Bool.toNat_lt bit) holdz).2.1
  · intro x hx
    have hk : q % 8 < 8 := Nat.mod_lt _ (by omega)
    rw [bitAt, bitAt, byteAt_write]
    split_ifs with ha
    · have h0 : q % 8 ≠ 0 := by omega
      rw [or_bit_toNat old bit hk holdz, ha, hsame h0]
      exact (add_bit_bits hk (Bool.toNat_lt bit) holdz).1 (x % 8) (by omega)
    · rfl
  · intro a ha
    exact Memory.read_write_other _ _ ha

/-- All that the bit loop of `WBITS` can do: the field stands at its place, most significant bit first,
and nothing before it has changed (R134). -/
theorem Memory.putBits_spec {m : Memory} {q : Nat} (v n : Nat) (h : CleanAt m q) :
    ∃ m', m.putBits q v n = .ok m' ∧ CleanAt m' (q + n) ∧
      (∀ j < n, bitAt m' (q + j) = (v.testBit (n - 1 - j)).toNat) ∧
      (∀ x < q, bitAt m' x = bitAt m x) ∧
      ∀ a, a < q / 8 ∨ (q + n + 7) / 8 ≤ a → m'.read a = m.read a := by
  induction n generalizing m q with
  | zero => exact ⟨m, rfl, h, fun j hj => by omega, fun _ _ => rfl, fun _ _ => rfl⟩
  | succ n ih =>
    obtain ⟨m₁, h₁, c₁, b₁, s₁, r₁⟩ := Memory.putBit_spec (v.testBit n) h
    obtain ⟨m₂, h₂, c₂, b₂, s₂, r₂⟩ := ih c₁
    refine ⟨m₂, ?_, ?_, ?_, ?_, ?_⟩
    · simp only [Memory.putBits]; rw [h₁]; exact h₂
    · rwa [show q + (n + 1) = q + 1 + n by omega]
    · intro j hj
      cases j with
      | zero => rw [Nat.add_zero, s₂ q (by omega), b₁]; simp
      | succ j =>
        rw [show q + (j + 1) = q + 1 + j by omega, b₂ j (by omega)]
        congr 2; omega
    · intro x hx
      rw [s₂ x (by omega), s₁ x hx]
    · intro a ha
      rw [r₂ a (by omega), r₁ a (by omega)]

/-- A Writer that keeps its invariants has a clean memory at its cursor. -/
theorem Writer.cleanAt {p : Params} {w : Writer} (hi : w.Inv p) : CleanAt w.mem w.position := by
  obtain ⟨hb, -, -, -, hr, hz⟩ := hi
  have hdiv : w.position / 8 = w.offset := by unfold Writer.position; omega
  have hmod : w.position % 8 = w.bitOffset := by unfold Writer.position; omega
  refine ⟨?_, fun h => ?_⟩
  · rw [hr]; congr 1
    unfold Writer.len Writer.position
    split_ifs <;> omega
  · rw [hdiv, hmod] at *; exact hz h

/-- The bits of the reading loop: `v` followed by the field at `p` (R172). -/
theorem Memory.getBits_spec {m : Memory} {len : Nat} (hr : m.map Prod.fst = List.range len)
    {p : Nat} (v n : Nat) (h : p + n ≤ 8 * len) :
    m.getBits p v n = some (v * 2 ^ n + bitField m p n) := by
  induction n generalizing p v with
  | zero => simp [Memory.getBits, bitField]
  | succ n ih =>
    obtain ⟨b, hb⟩ := Option.isSome_iff_exists.1
      ((Memory.isSome_of_range hr (p / 8)).2 (by omega))
    have hbit : (b.getLsbD (7 - p % 8)).toNat = bitAt m p := by
      rw [bitAt, byteAt_of_read hb, BitVec.getLsbD, Nat.testBit_eq_decide_div_mod_eq]
      have : b.toNat / 2 ^ (7 - p % 8) % 2 < 2 := Nat.mod_lt _ (by omega)
      by_cases h1 : b.toNat / 2 ^ (7 - p % 8) % 2 = 1
      · simp [h1]
      · simp only [h1, decide_false, Bool.toNat_false]; omega
    have step : bitField m p (n + 1) = bitAt m p * 2 ^ n + bitField m (p + 1) n := by
      unfold bitField
      rw [Finset.sum_range_succ', add_comm]
      congr 1
      refine Finset.sum_congr rfl fun j hj => ?_
      rw [show p + (j + 1) = p + 1 + j by omega,
        show n + 1 - 1 - (j + 1) = n - 1 - j by omega]
    simp only [Memory.getBits, Memory.bit, hb, Option.map_some]
    rw [ih _ (by omega), hbit, step, pow_succ]
    congr 1; ring

/-- A bit field is less than 2^n. -/
theorem bitField_lt (m : Memory) (p n : Nat) : bitField m p n < 2 ^ n := by
  induction n generalizing p with
  | zero => simp [bitField]
  | succ n ih =>
    have step : bitField m p (n + 1) = bitAt m p * 2 ^ n + bitField m (p + 1) n := by
      unfold bitField
      rw [Finset.sum_range_succ', add_comm]
      congr 1
      refine Finset.sum_congr rfl fun j hj => ?_
      rw [show p + (j + 1) = p + 1 + j by omega,
        show n + 1 - 1 - (j + 1) = n - 1 - j by omega]
    have h1 := ih (p + 1)
    have h2 := bitAt_lt_two m p
    rw [step, pow_succ]
    nlinarith

end Sys2Proof.Machine
end

