-- ==== Sys2Proof/Laws/PerInstr.lean ====
section
/-! SUPPORT. Statements about every command as syntax, one lemma per constructor of `Instr`
(LAWS.json, "per_instruction"), and the arm of `exec` of every command. -/

namespace Sys2Proof.Laws.ReservedBitsZero

/-- The reserved field CW[15:0] of a command's word is 0, and its opcode and count fields are the
command's (spec/30_encoding.md R100). -/
def Statement (i : Instr) : Prop :=
  zeroField (encode i) = 0 ∧ opField (encode i) = i.opcode ∧ countField (encode i) = i.count

/-- The three fields of a word put together from an opcode and a count. -/
theorem fields (op : BitVec 8) (n : Count) :
    zeroField (op ++ n ++ 0#16) = 0 ∧ opField (op ++ n ++ 0#16) = op ∧
      countField (op ++ n ++ 0#16) = n := by
  have hn := n.isLt
  have ho := op.isLt
  have word : (op ++ n ++ 0#16).toNat = op.toNat * 2 ^ 24 + n.toNat * 2 ^ 16 := by
    simp only [BitVec.toNat_append, BitVec.toNat_ofNat]
    rw [← Nat.shiftLeft_add_eq_or_of_lt hn, ← Nat.shiftLeft_add_eq_or_of_lt (by omega)]
    simp only [Nat.shiftLeft_eq]; omega
  refine ⟨?_, ?_, ?_⟩ <;> apply BitVec.eq_of_toNat_eq <;>
    simp only [zeroField, opField, countField, BitVec.extractLsb'_toNat, word,
      Nat.shiftRight_eq_div_pow]
  · show _ = 0
    omega
  · omega
  · omega

variable (n : Count)

theorem rdcsr : Statement (.rdcsr n) := fields _ _
theorem clrerr : Statement .clrerr := fields _ _
theorem winit : Statement (.winit n) := fields _ _
theorem walign : Statement .walign := fields _ _
theorem wbits : Statement (.wbits n) := fields _ _
theorem wvaru : Statement .wvaru := fields _ _
theorem wvars : Statement .wvars := fields _ _
theorem wbuf : Statement (.wbuf n) := fields _ _
theorem wview : Statement .wview := fields _ _
theorem handoff : Statement .handoff := fields _ _
theorem wu8 : Statement .wu8 := fields _ _
theorem wu16 : Statement .wu16 := fields _ _
theorem wu32 : Statement .wu32 := fields _ _
theorem wu64 : Statement .wu64 := fields _ _
theorem wi8 : Statement .wi8 := fields _ _
theorem wi16 : Statement .wi16 := fields _ _
theorem wi32 : Statement .wi32 := fields _ _
theorem wi64 : Statement .wi64 := fields _ _
theorem wf16 : Statement .wf16 := fields _ _
theorem wf32 : Statement .wf32 := fields _ _
theorem wf64 : Statement .wf64 := fields _ _
theorem rload : Statement .rload := fields _ _
theorem ralign : Statement .ralign := fields _ _
theorem rbits : Statement (.rbits n) := fields _ _
theorem rvaru : Statement .rvaru := fields _ _
theorem rvars : Statement .rvars := fields _ _
theorem rbuf : Statement (.rbuf n) := fields _ _
theorem ru8 : Statement .ru8 := fields _ _
theorem ru16 : Statement .ru16 := fields _ _
theorem ru32 : Statement .ru32 := fields _ _
theorem ru64 : Statement .ru64 := fields _ _
theorem ri8 : Statement .ri8 := fields _ _
theorem ri16 : Statement .ri16 := fields _ _
theorem ri32 : Statement .ri32 := fields _ _
theorem ri64 : Statement .ri64 := fields _ _
theorem rf16 : Statement .rf16 := fields _ _
theorem rf32 : Statement .rf32 := fields _ _
theorem rf64 : Statement .rf64 := fields _ _
theorem pbits : Statement (.pbits n) := fields _ _
theorem pvaru : Statement .pvaru := fields _ _
theorem pvars : Statement .pvars := fields _ _
theorem pbuf : Statement (.pbuf n) := fields _ _
theorem pu8 : Statement .pu8 := fields _ _
theorem pu16 : Statement .pu16 := fields _ _
theorem pu32 : Statement .pu32 := fields _ _
theorem pu64 : Statement .pu64 := fields _ _
theorem pi8 : Statement .pi8 := fields _ _
theorem pi16 : Statement .pi16 := fields _ _
theorem pi32 : Statement .pi32 := fields _ _
theorem pi64 : Statement .pi64 := fields _ _
theorem pf16 : Statement .pf16 := fields _ _
theorem pf32 : Statement .pf32 := fields _ _
theorem pf64 : Statement .pf64 := fields _ _
theorem toprec : Statement (.toprec n) := fields _ _
theorem fromprec : Statement (.fromprec n) := fields _ _
theorem zigzag : Statement .zigzag := fields _ _
theorem unzigzag : Statement .unzigzag := fields _ _

end Sys2Proof.Laws.ReservedBitsZero

/-! ### The arms of `exec` -/

namespace Sys2Proof.Machine

variable (n : Count) (s : State)

theorem exec_rdcsr : exec (.rdcsr n) s = execRdcsr n s := rfl
theorem exec_clrerr : exec .clrerr s = execClrerr s := rfl
theorem exec_winit : exec (.winit n) s = execWinit n s := rfl
theorem exec_walign : exec .walign s = execWalign s := rfl
theorem exec_wbits : exec (.wbits n) s = execWbits n s := rfl
theorem exec_wvaru : exec .wvaru s = execWvaru s := rfl
theorem exec_wvars : exec .wvars s = execWvars s := rfl
theorem exec_wbuf : exec (.wbuf n) s = execWbuf n s := rfl
theorem exec_wview : exec .wview s = execWview s := rfl
theorem exec_handoff : exec .handoff s = execHandoff s := rfl
theorem exec_wu8 : exec .wu8 s = execWu8 s := rfl
theorem exec_wu16 : exec .wu16 s = execWu16 s := rfl
theorem exec_wu32 : exec .wu32 s = execWu32 s := rfl
theorem exec_wu64 : exec .wu64 s = execWu64 s := rfl
theorem exec_wi8 : exec .wi8 s = execWi8 s := rfl
theorem exec_wi16 : exec .wi16 s = execWi16 s := rfl
theorem exec_wi32 : exec .wi32 s = execWi32 s := rfl
theorem exec_wi64 : exec .wi64 s = execWi64 s := rfl
theorem exec_wf16 : exec .wf16 s = execWf16 s := rfl
theorem exec_wf32 : exec .wf32 s = execWf32 s := rfl
theorem exec_wf64 : exec .wf64 s = execWf64 s := rfl
theorem exec_rload : exec .rload s = execRload s := rfl
theorem exec_ralign : exec .ralign s = execRalign s := rfl
theorem exec_rbits : exec (.rbits n) s = execRbits n s := rfl
theorem exec_rvaru : exec .rvaru s = execRvaru s := rfl
theorem exec_rvars : exec .rvars s = execRvars s := rfl
theorem exec_rbuf : exec (.rbuf n) s = execRbuf n s := rfl
theorem exec_ru8 : exec .ru8 s = execRu8 s := rfl
theorem exec_ru16 : exec .ru16 s = execRu16 s := rfl
theorem exec_ru32 : exec .ru32 s = execRu32 s := rfl
theorem exec_ru64 : exec .ru64 s = execRu64 s := rfl
theorem exec_ri8 : exec .ri8 s = execRi8 s := rfl
theorem exec_ri16 : exec .ri16 s = execRi16 s := rfl
theorem exec_ri32 : exec .ri32 s = execRi32 s := rfl
theorem exec_ri64 : exec .ri64 s = execRi64 s := rfl
theorem exec_rf16 : exec .rf16 s = execRf16 s := rfl
theorem exec_rf32 : exec .rf32 s = execRf32 s := rfl
theorem exec_rf64 : exec .rf64 s = execRf64 s := rfl
theorem exec_pbits : exec (.pbits n) s = execPbits n s := rfl
theorem exec_pvaru : exec .pvaru s = execPvaru s := rfl
theorem exec_pvars : exec .pvars s = execPvars s := rfl
theorem exec_pbuf : exec (.pbuf n) s = execPbuf n s := rfl
theorem exec_pu8 : exec .pu8 s = execPu8 s := rfl
theorem exec_pu16 : exec .pu16 s = execPu16 s := rfl
theorem exec_pu32 : exec .pu32 s = execPu32 s := rfl
theorem exec_pu64 : exec .pu64 s = execPu64 s := rfl
theorem exec_pi8 : exec .pi8 s = execPi8 s := rfl
theorem exec_pi16 : exec .pi16 s = execPi16 s := rfl
theorem exec_pi32 : exec .pi32 s = execPi32 s := rfl
theorem exec_pi64 : exec .pi64 s = execPi64 s := rfl
theorem exec_pf16 : exec .pf16 s = execPf16 s := rfl
theorem exec_pf32 : exec .pf32 s = execPf32 s := rfl
theorem exec_pf64 : exec .pf64 s = execPf64 s := rfl
theorem exec_toprec : exec (.toprec n) s = execToprec n s := rfl
theorem exec_fromprec : exec (.fromprec n) s = execFromprec n s := rfl
theorem exec_zigzag : exec .zigzag s = execZigzag s := rfl
theorem exec_unzigzag : exec .unzigzag s = execUnzigzag s := rfl

end Sys2Proof.Machine
end

