-- ==== Sys2Proof/Laws/Reader.lean ====
section
/-! SUPPORT. Big-endian byte lists, and what the Reader's operations can do: the byte-level read,
alignment, bit fields, loading (spec/41_reader.md R170 to R184), with the Reader's invariants
(spec/10_state.md R40). -/

namespace Sys2Proof.Machine

variable {p : Params} {r r' : Reader}

/-! ### Byte lists -/

/-- `bytes_be` lists the bytes of R63. -/
theorem bytesBE_eq (v k : Nat) : bytesBE v k = bigEndianBytes v k := by
  induction k with
  | zero => rfl
  | succ k ih =>
    simp only [bytesBE, bigEndianBytes, ih]
    rw [List.range_succ_eq_map, List.map_cons, List.map_map]
    congr 1
    · rw [show (256 : Nat) = 2 ^ 8 by rfl, ← pow_mul]; congr 2
    · refine List.map_congr_left fun i _ => ?_
      simp only [Function.comp, Nat.succ_eq_add_one]
      congr 3; omega

@[simp] theorem bytesBE_length (v k : Nat) : (bytesBE v k).length = k := by
  induction k with
  | zero => rfl
  | succ k ih => simp [bytesBE, ih]

theorem be_foldl (v : Nat) (bs : List Byte) :
    bs.foldl (fun v b => v * 256 + b.toNat) v = v * 256 ^ bs.length + be bs := by
  induction bs generalizing v with
  | nil => simp [be]
  | cons b bs ih =>
    simp only [be, List.foldl_cons, List.length_cons, Nat.zero_mul, Nat.zero_add]
    rw [ih, ih b.toNat, pow_succ]; ring

@[simp] theorem be_nil : be [] = 0 := rfl

theorem be_cons (b : Byte) (bs : List Byte) : be (b :: bs) = b.toNat * 256 ^ bs.length + be bs := by
  have := be_foldl b.toNat bs
  simpa [be] using this

theorem be_lt (bs : List Byte) : be bs < 256 ^ bs.length := by
  induction bs with
  | nil => simp
  | cons b bs ih =>
    rw [be_cons, List.length_cons, pow_succ]
    have := b.isLt
    nlinarith

/-- Reading back the bytes of a number gives its low `k` bytes. -/
theorem be_bytesBE (v k : Nat) : be (bytesBE v k) = v % 256 ^ k := by
  induction k with
  | zero => simp [bytesBE, Nat.mod_one]
  | succ k ih =>
    rw [bytesBE, be_cons, ih, bytesBE_length, BitVec.toNat_ofNat,
      show (2 : Nat) ^ 8 = 256 from rfl, pow_succ 256 k, Nat.mod_mul, Nat.add_comm, Nat.mul_comm]

theorem bigEndian_succ (m : Memory) (a k : Nat) :
    bigEndian m a (k + 1) = byteAt m a * 256 ^ k + bigEndian m (a + 1) k := by
  unfold bigEndian
  rw [Finset.sum_range_succ', add_comm]
  congr 1
  refine Finset.sum_congr rfl fun j hj => ?_
  rw [show a + (j + 1) = a + 1 + j by omega, show k + 1 - 1 - (j + 1) = k - 1 - j by omega]

/-- The value of the bytes a range read answers. -/
theorem be_eq_bigEndian {m : Memory} {a : Nat} {bs : List Byte} (h : m.Holds a bs) :
    be bs = bigEndian m a bs.length := by
  induction bs generalizing a with
  | nil => simp [bigEndian]
  | cons b bs ih =>
    have h₁ : m.read a = some b := h 0 b (by simp)
    have h₂ : m.Holds (a + 1) bs := fun j c hj => by
      have := h (j + 1) c (by simpa using hj)
      rwa [show a + 1 + j = a + (j + 1) by omega]
    rw [be_cons, List.length_cons, bigEndian_succ, byteAt_of_read h₁, ih h₂]

/-! ### The byte-level read -/

theorem Reader.start_eq (r : Reader) :
    r.start = if r.bitOffset = 0 then r.offset else r.offset + 1 := by
  unfold Reader.start; split_ifs <;> rfl

/-- The aligned cursor lies inside the buffer or at its end (R170). -/
theorem Reader.start_le (hi : r.Inv p) : r.start ≤ r.len := by
  obtain ⟨-, h1, -, h2, -⟩ := hi
  rw [Reader.start_eq]
  split_ifs with h
  · exact h1
  · exact h2 h

/-- A range of a Reader's buffer inside its length can be read. -/
theorem Reader.readBytes_ok (hi : r.Inv p) {a k : Nat} (h : a + k ≤ r.len) :
    ∃ bs, r.mem.readBytes a k = some bs ∧ bs.length = k ∧ r.mem.Holds a bs := by
  obtain ⟨-, -, -, -, hr⟩ := hi
  obtain ⟨bs, hbs⟩ := Memory.exists_readBytes hr h
  have := (Memory.readBytes_eq_some _ _ _ _).1 hbs
  exact ⟨bs, hbs, this.1, this.2⟩

/-- A cursor at a byte boundary inside the buffer keeps the invariants. -/
theorem Reader.seekByte_inv (hi : r.Inv p) {a : Nat} (h : a ≤ r.len) : (r.seekByte a).Inv p := by
  obtain ⟨-, -, hM, -, hr⟩ := hi
  exact ⟨Nat.zero_le _, h, hM, fun hx => absurd rfl hx, hr⟩

/-- The byte-level read inside the buffer (R170). -/
theorem Reader.byteRead_ok (hi : r.Inv p) {k : Nat} (h : r.start + k ≤ r.len) :
    ∃ bs, r.byteRead k = .ok (bs, r.seekByte (r.start + k)) ∧ bs.length = k ∧
      r.mem.Holds r.start bs := by
  obtain ⟨bs, hbs, hl, hh⟩ := Reader.readBytes_ok hi h
  exact ⟨bs, by unfold Reader.byteRead; rw [if_neg (by omega), hbs], hl, hh⟩

theorem Reader.byteRead_outOfBounds {k : Nat} (h : r.len < r.start + k) :
    r.byteRead k = .error (.raise .outOfBounds) := by
  unfold Reader.byteRead; rw [if_pos h]

/-- `RALIGN` keeps the invariants (R171). -/
theorem Reader.align_inv (hi : r.Inv p) : r.align.Inv p := by
  unfold Reader.align
  split_ifs with h
  · exact hi
  · exact Reader.seekByte_inv hi (hi.2.2.2.1 h)

/-- The bit-field read inside the buffer (R172). -/
theorem Reader.readBits_ok (hi : r.Inv p) {n : Nat} (hn : n ≤ 32)
    (h : r.position + n ≤ 8 * r.len) :
    r.readBits n = .ok
      { reader := { r with offset := (r.position + n) / 8, bitOffset := (r.position + n) % 8 }
        q := BitVec.ofNat 64 (bitField r.mem r.position n)
        pout := [] } := by
  obtain ⟨-, -, -, -, hr⟩ := hi
  have hn' : ¬ Config.bitsMax < n := by unfold Config.bitsMax; omega
  unfold Reader.readBits
  rw [if_neg hn', if_neg (by omega), Memory.getBits_spec hr 0 n h]
  simp

/-- A bit cursor inside the buffer keeps the invariants. -/
theorem Reader.seekBit_inv (hi : r.Inv p) {q : Nat} (h : q ≤ 8 * r.len) :
    Reader.Inv p { r with offset := q / 8, bitOffset := q % 8 } := by
  obtain ⟨-, -, hM, -, hr⟩ := hi
  refine ⟨?_, ?_, hM, fun hx => ?_, hr⟩ <;> simp only [] at * <;> omega

/-- A loaded Reader keeps the invariants (R282, R286). -/
theorem Reader.load_inv {bs : List Byte} (h : bs.length ≤ p.rCapMax) : (Reader.load bs).Inv p :=
  ⟨Nat.zero_le _, Nat.zero_le _, h, fun hx => absurd rfl hx, Memory.range_ofBytes bs⟩

end Sys2Proof.Machine
end

