-- ==== Sys2Proof/Laws/Varint.lean ====
section
/-! SUPPORT. What the LEB128 loops can do (spec/42_varint_zigzag.md R230, R231), and the signed readings
they are used with. -/

namespace Sys2Proof.Machine

/-- The encoder unrolled: one round emits one group (R230). -/
theorem lebGroups_succ (fuel u : Nat) :
    lebGroups (fuel + 1) u =
      if u < 128 then [BitVec.ofNat 8 u]
      else BitVec.ofNat 8 (u % 128 + 128) :: lebGroups fuel (u / 128) := by
  rw [lebGroups]
  by_cases h : u < 128
  · rw [if_pos (by omega), if_pos h, Nat.mod_eq_of_lt h]
  · rw [if_neg (by omega), if_neg h]

/-- More rounds than the value has bits change nothing. -/
theorem lebGroups_fuel {f g u : Nat} (hf : u < 2 ^ f) (hg : u < 2 ^ g) (hf0 : 0 < f) (hg0 : 0 < g) :
    lebGroups f u = lebGroups g u := by
  induction f generalizing g u with
  | zero => omega
  | succ f ih =>
    cases g with
    | zero => omega
    | succ g =>
      rw [lebGroups_succ, lebGroups_succ]
      by_cases h : u < 128
      · rw [if_pos h, if_pos h]
      · have hd : ∀ n, u < 2 ^ (n + 1) → 0 < n ∧ u / 128 < 2 ^ n := by
          intro n hn
          have : 0 < n := by
            by_contra h0
            obtain rfl : n = 0 := by omega
            norm_num at hn; omega
          refine ⟨this, ?_⟩
          have : u / 128 ≤ u / 2 := Nat.div_le_div_left (by omega) (by omega)
          rw [pow_succ] at hn; omega
        rw [if_neg h, if_neg h, ih (hd f hf).2 (hd g hg).2 (hd f hf).1 (hd g hg).1]

/-- `leb` by its own recursion, the form of R230. -/
theorem leb_eq (u : Nat) :
    leb u = if u < 128 then [BitVec.ofNat 8 u]
      else BitVec.ofNat 8 (u % 128 + 128) :: leb (u / 128) := by
  unfold leb
  rw [lebGroups_succ]
  by_cases h : u < 128
  · rw [if_pos h, if_pos h]
  · rw [if_neg h, if_neg h]
    have hu : u ≠ 0 := by omega
    have h7 : 7 ≤ u.log2 := (Nat.le_log2 hu).2 (by norm_num; omega)
    congr 1
    refine lebGroups_fuel ?_ (Nat.lt_log2_self) (by omega) (by omega)
    have : u < 2 ^ (u.log2 + 1) := Nat.lt_log2_self
    have h2 : u / 128 ≤ u / 2 := Nat.div_le_div_left (by omega) (by omega)
    rw [pow_succ] at this; omega

/-- All that the decoder can answer (R231): the bytes up to the first with bit 7 clear, or that there
is none before the limit. -/
theorem unleb_ok {m : Memory} {a k v i : Nat} (h : unleb m a k = .ok (v, i)) :
    VarintAt m a (a + k) i ∧ v = varintValue m a i := by
  induction k generalizing a v i with
  | zero => simp [unleb] at h
  | succ k ih =>
    rw [unleb] at h
    split at h
    · cases h
    · rename_i b hb
      have hbyte := byteAt_of_read hb
      split_ifs at h with h1
      · simp only [Except.ok.injEq, Prod.mk.injEq] at h
        obtain ⟨rfl, rfl⟩ := h
        refine ⟨⟨le_refl _, by omega, fun j hj => by omega, by simpa [hbyte] using h1⟩, ?_⟩
        simp [varintValue, hbyte, Nat.mod_eq_of_lt h1]
      · split at h
        · cases h
        · rename_i v' i' hu
          simp only [Except.ok.injEq, Prod.mk.injEq] at h
          obtain ⟨rfl, rfl⟩ := h
          obtain ⟨⟨h2, h3, h4, h5⟩, rfl⟩ := ih hu
          refine ⟨⟨by omega, by omega, fun j hj => ?_, ?_⟩, ?_⟩
          · cases j with
            | zero => rw [Nat.add_zero, hbyte]; omega
            | succ j =>
              rw [show a + (j + 1) = a + 1 + j by omega]; exact h4 j (by omega)
          · rwa [show a + (i' + 1 - 1) = a + 1 + (i' - 1) by omega]
          · unfold varintValue
            rw [Finset.sum_range_succ', add_comm, Finset.mul_sum]
            congr 1
            · refine Finset.sum_congr rfl fun j _ => ?_
              rw [show a + (j + 1) = a + 1 + j by omega,
                show 7 * (j + 1) = 7 + 7 * j by omega, pow_add]
              ring
            · simp [hbyte]

/-- The decoder succeeds where a varint stands (R231). -/
theorem unleb_of_varintAt {m : Memory} {len a k i : Nat} (hr : m.map Prod.fst = List.range len)
    (hk : a + k ≤ len) (h : VarintAt m a (a + k) i) :
    unleb m a k = .ok (varintValue m a i, i) := by
  induction k generalizing a i with
  | zero => obtain ⟨h1, h2, -⟩ := h; omega
  | succ k ih =>
    obtain ⟨h1, h2, h3, h4⟩ := h
    obtain ⟨b, hb⟩ := Option.isSome_iff_exists.1 ((Memory.isSome_of_range hr a).2 (by omega))
    have hbyte := byteAt_of_read hb
    rw [unleb, hb]
    simp only
    by_cases hi : i = 1
    · subst hi
      have hlt : b.toNat < 128 := by rw [← hbyte]; simpa using h4
      rw [if_pos hlt]
      simp [varintValue, hbyte, Nat.mod_eq_of_lt hlt]
    · have hge : 128 ≤ b.toNat := by rw [← hbyte]; simpa using h3 0 (by omega)
      obtain ⟨i', rfl⟩ : ∃ i', i = i' + 1 := ⟨i - 1, by omega⟩
      have rest : VarintAt m (a + 1) (a + 1 + k) i' := by
        refine ⟨by omega, by omega, fun j hj => ?_, ?_⟩
        · rw [show a + 1 + j = a + (j + 1) by omega]; exact h3 (j + 1) (by omega)
        · rw [show a + 1 + (i' - 1) = a + (i' + 1 - 1) by omega]; exact h4
      rw [if_neg (by omega), ih (by omega) rest]
      simp only [Except.ok.injEq, Prod.mk.injEq, and_true]
      unfold varintValue
      rw [Finset.sum_range_succ' (n := i'), add_comm _ (byteAt m (a + 0) % _ * _), Finset.mul_sum]
      congr 1
      · simp [hbyte]
      · refine Finset.sum_congr rfl fun j _ => ?_
        rw [show a + (j + 1) = a + 1 + j by omega,
          show 7 * (j + 1) = 7 + 7 * j by omega, pow_add]
        ring

/-- The decoder raises `OutOfBounds` where no varint ends before the limit (R231). -/
theorem unleb_outOfBounds {m : Memory} {len a k : Nat} (hr : m.map Prod.fst = List.range len)
    (hk : a + k ≤ len) (h : ∀ i, ¬ VarintAt m a (a + k) i) :
    unleb m a k = .error (.raise .outOfBounds) := by
  induction k generalizing a with
  | zero => rfl
  | succ k ih =>
    obtain ⟨b, hb⟩ := Option.isSome_iff_exists.1 ((Memory.isSome_of_range hr a).2 (by omega))
    have hbyte := byteAt_of_read hb
    have hge : 128 ≤ b.toNat := by
      by_contra hlt
      exact h 1 ⟨le_refl _, by omega, fun j hj => by omega, by simp [hbyte]; omega⟩
    rw [unleb, hb]
    simp only
    rw [if_neg (by omega), ih (by omega) fun i hi => ?_]
    obtain ⟨h1, h2, h3, h4⟩ := hi
    refine h (i + 1) ⟨by omega, by omega, fun j hj => ?_, ?_⟩
    · cases j with
      | zero => simpa [hbyte] using hge
      | succ j => rw [show a + (j + 1) = a + 1 + j by omega]; exact h3 j (by omega)
    · rwa [show a + (i + 1 - 1) = a + 1 + (i - 1) by omega]

/-- The range test of the machine is the range of R301. -/
theorem inSignedRange_iff (w : Nat) (s : Int) :
    inSignedRange w s = true ↔ -(2 ^ (w - 1)) ≤ s ∧ s ≤ 2 ^ (w - 1) - 1 := by
  simp [inSignedRange]

/-- The signed reading is the spec's (R9). -/
theorem signedOf_eq (w v : Nat) : signedOf w v = twosComplement w v := rfl

end Sys2Proof.Machine
end

