-- ==== Sys2Proof/Tests/Slice0.lean ====
section
/-! SUPPORT. The model's own tests: the well-formedness checks refuse ill-formed terms, every command's word
written out from spec/30_encoding.md decodes to it, one step of each command on a small state (expected
values from spec/95_test_vectors.md and the examples of the command rules), and a witness for the
hypotheses of each statement. -/

namespace Sys2Proof.Tests

open Sys2Proof.Machine

/-! ### Well-formedness: an ill-formed term for each check -/

theorem test_refuses_csrIndex10 : (Instr.rdcsr 10).wellFormed = false := by decide
theorem test_refuses_winitFlags2 : (Instr.winit 2).wellFormed = false := by decide
theorem test_refuses_bitCount33 : (Instr.wbits 33).wellFormed = false ∧
    (Instr.rbits 33).wellFormed = false ∧ (Instr.pbits 33).wellFormed = false := by decide
theorem test_refuses_prefix3 : (Instr.wbuf 3).wellFormed = false ∧
    (Instr.rbuf 3).wellFormed = false ∧ (Instr.pbuf 8).wellFormed = false := by decide
theorem test_refuses_precision0and33 : (Instr.toprec 0).wellFormed = false ∧
    (Instr.fromprec 33).wellFormed = false := by decide
theorem test_refuses_varw : Params.wellFormed { Params.standard with varw := 0 } = false ∧
    Params.wellFormed { Params.standard with varw := 65 } = false := by decide
theorem test_refuses_wCapMax : Params.wellFormed { Params.standard with wCapMax := 2 ^ 32 } = false ∧
    Params.wellFormed { Params.standard with wCapMax := 0 } = false := by decide
theorem test_refuses_wCapInit : Params.wellFormed { Params.standard with wCapInit := 65537 } = false ∧
    Params.wellFormed { Params.standard with wCapInit := 0 } = false := by decide
theorem test_refuses_rCapMax : Params.wellFormed { Params.standard with rCapMax := 2 ^ 32 } = false := by
  decide
theorem test_accepts_standard : Params.standard.wellFormed = true := by decide

/-! ### Decoding: words written out from R100 and R102, one bit string for each group of R103 -/

theorem test_bits_rdcsr : decode 0b00000001000010010000000000000000 = .ok (.rdcsr 9) := by decide
theorem test_bits_wbits : decode 0b00010010001000000000000000000000 = .ok (.wbits 32) := by decide
theorem test_bits_wf32 : decode 0b00101010000000000000000000000000 = .ok .wf32 := by decide
theorem test_bits_rbuf : decode 0b00110101000001000000000000000000 = .ok (.rbuf 4) := by decide
theorem test_bits_ri16 : decode 0b01000101000000000000000000000000 = .ok .ri16 := by decide
theorem test_bits_pvars : decode 0b01010100000000000000000000000000 = .ok .pvars := by decide
theorem test_bits_pu64 : decode 0b01100011000000000000000000000000 = .ok .pu64 := by decide
theorem test_bits_fromprec : decode 0b01110001000011000000000000000000 = .ok (.fromprec 12) := by decide

theorem test_decode_rdcsr : decode 0x01030000 = .ok (.rdcsr 3) := by decide
theorem test_decode_clrerr : decode 0x02000000 = .ok .clrerr := by decide
theorem test_decode_winit : decode 0x10010000 = .ok (.winit 1) := by decide
theorem test_decode_walign : decode 0x11000000 = .ok .walign := by decide
theorem test_decode_wbits : decode 0x12050000 = .ok (.wbits 5) := by decide
theorem test_decode_wvaru : decode 0x13000000 = .ok .wvaru := by decide
theorem test_decode_wvars : decode 0x14000000 = .ok .wvars := by decide
theorem test_decode_wbuf : decode 0x15020000 = .ok (.wbuf 2) := by decide
theorem test_decode_wview : decode 0x16000000 = .ok .wview := by decide
theorem test_decode_handoff : decode 0x17000000 = .ok .handoff := by decide
theorem test_decode_wu8 : decode 0x20000000 = .ok .wu8 := by decide
theorem test_decode_wu16 : decode 0x21000000 = .ok .wu16 := by decide
theorem test_decode_wu32 : decode 0x22000000 = .ok .wu32 := by decide
theorem test_decode_wu64 : decode 0x23000000 = .ok .wu64 := by decide
theorem test_decode_wi8 : decode 0x24000000 = .ok .wi8 := by decide
theorem test_decode_wi16 : decode 0x25000000 = .ok .wi16 := by decide
theorem test_decode_wi32 : decode 0x26000000 = .ok .wi32 := by decide
theorem test_decode_wi64 : decode 0x27000000 = .ok .wi64 := by decide
theorem test_decode_wf16 : decode 0x29000000 = .ok .wf16 := by decide
theorem test_decode_wf32 : decode 0x2A000000 = .ok .wf32 := by decide
theorem test_decode_wf64 : decode 0x2B000000 = .ok .wf64 := by decide
theorem test_decode_rload : decode 0x30000000 = .ok .rload := by decide
theorem test_decode_ralign : decode 0x31000000 = .ok .ralign := by decide
theorem test_decode_rbits : decode 0x32030000 = .ok (.rbits 3) := by decide
theorem test_decode_rvaru : decode 0x33000000 = .ok .rvaru := by decide
theorem test_decode_rvars : decode 0x34000000 = .ok .rvars := by decide
theorem test_decode_rbuf : decode 0x35010000 = .ok (.rbuf 1) := by decide
theorem test_decode_ru8 : decode 0x40000000 = .ok .ru8 := by decide
theorem test_decode_ru16 : decode 0x41000000 = .ok .ru16 := by decide
theorem test_decode_ru32 : decode 0x42000000 = .ok .ru32 := by decide
theorem test_decode_ru64 : decode 0x43000000 = .ok .ru64 := by decide
theorem test_decode_ri8 : decode 0x44000000 = .ok .ri8 := by decide
theorem test_decode_ri16 : decode 0x45000000 = .ok .ri16 := by decide
theorem test_decode_ri32 : decode 0x46000000 = .ok .ri32 := by decide
theorem test_decode_ri64 : decode 0x47000000 = .ok .ri64 := by decide
theorem test_decode_rf16 : decode 0x49000000 = .ok .rf16 := by decide
theorem test_decode_rf32 : decode 0x4A000000 = .ok .rf32 := by decide
theorem test_decode_rf64 : decode 0x4B000000 = .ok .rf64 := by decide
theorem test_decode_pbits : decode 0x52060000 = .ok (.pbits 6) := by decide
theorem test_decode_pvaru : decode 0x53000000 = .ok .pvaru := by decide
theorem test_decode_pvars : decode 0x54000000 = .ok .pvars := by decide
theorem test_decode_pbuf : decode 0x55040000 = .ok (.pbuf 4) := by decide
theorem test_decode_pu8 : decode 0x60000000 = .ok .pu8 := by decide
theorem test_decode_pu16 : decode 0x61000000 = .ok .pu16 := by decide
theorem test_decode_pu32 : decode 0x62000000 = .ok .pu32 := by decide
theorem test_decode_pu64 : decode 0x63000000 = .ok .pu64 := by decide
theorem test_decode_pi8 : decode 0x64000000 = .ok .pi8 := by decide
theorem test_decode_pi16 : decode 0x65000000 = .ok .pi16 := by decide
theorem test_decode_pi32 : decode 0x66000000 = .ok .pi32 := by decide
theorem test_decode_pi64 : decode 0x67000000 = .ok .pi64 := by decide
theorem test_decode_pf16 : decode 0x69000000 = .ok .pf16 := by decide
theorem test_decode_pf32 : decode 0x6A000000 = .ok .pf32 := by decide
theorem test_decode_pf64 : decode 0x6B000000 = .ok .pf64 := by decide
theorem test_decode_toprec : decode 0x700C0000 = .ok (.toprec 12) := by decide
theorem test_decode_fromprec : decode 0x71200000 = .ok (.fromprec 32) := by decide
theorem test_decode_zigzag : decode 0x72000000 = .ok .zigzag := by decide
theorem test_decode_unzigzag : decode 0x73000000 = .ok .unzigzag := by decide

theorem test_decode_rejects : decode 0x00000000 = .error .unassignedOpcode ∧
    decode 0x50000000 = .error .unassignedOpcode ∧ decode 0x12210001 = .error .reservedBits ∧
    decode 0x30010000 = .error .unusedCount := by decide
theorem test_decodeTableWord : decodeTableWord 32 0x15020000 = some (.wbuf 2) ∧
    decodeTableWord 32 0x2C000000 = none := by decide

/-! ### One step of each command -/

/-- The state after the command has been issued and done. -/
def after (cw : CommandWord) (a b : Word) (pin : List Byte) (s : State) : State :=
  match step { s with pending := [.command { cw := cw, a := a, b := b, pin := pin }] } with
  | .next t => t
  | .fault _ => s
  | .refused _ => s

/-- A Writer at cursor `(o, k)` that has written `bytes`. -/
def writerAt (o k : Nat) (bytes : List Byte) : State :=
  { State.reset with
    w := { offset := o, bitOffset := k, cap := 16, expand := true, mem := Memory.ofBytesAt 0 bytes } }

/-- A Reader over `bytes` at cursor `(o, k)`. -/
def readerAt (o k : Nat) (bytes : List Byte) : State :=
  { State.reset with
    r := { offset := o, bitOffset := k, len := bytes.length, mem := Memory.ofBytesAt 0 bytes } }

/-- The cursor pairs, Writer then Reader. -/
def cursors (s : State) : (Nat × Nat) × (Nat × Nat) :=
  ((s.w.offset, s.w.bitOffset), (s.r.offset, s.r.bitOffset))

/-- The bytes of a memory, in address order. -/
def bytesOf (m : Memory) : List Byte := m.map Prod.snd

theorem test_rdcsr_cap :
    let t := after 0x01030000 0 0 [] State.reset
    t.q = 0x100 := by decide
theorem test_rdcsr_status_is_the_one_before :
    let t := after 0x01000000 0 0 [] { State.reset with status := { last := .noSpace, seen := true } }
    t.q = 0x104 ∧ t.status.word = 0x100 := by decide
theorem test_clrerr :
    let t := after 0x02000000 0 0 [] { State.reset with status := { last := .noSpace, seen := true } }
    t.status.word = 0 := by decide
theorem test_winit :
    let t := after 0x10010000 2 0 [] (writerAt 1 3 [0x12, 0xA0])
    t.w = { offset := 0, bitOffset := 0, cap := 2, expand := true, mem := [] } := by decide
theorem test_winit_above_max :
    let t := after 0x10010000 65537 0 [] (writerAt 1 3 [0x12, 0xA0])
    t.status.word = 0x103 ∧ (cursors t).1 = (1, 3) := by decide
theorem test_walign :
    let t := after 0x11000000 0 0 [] (writerAt 2 3 [0x12, 0x34, 0xA0])
    (cursors t).1 = (3, 0) ∧ bytesOf t.w.mem = [0x12, 0x34, 0xA0] := by decide
theorem test_wbits_into_partial_byte :
    let t := after 0x12060000 0b110110 0 [] (writerAt 0 5 [0xA8])
    bytesOf t.w.mem = [0xAE, 0xC0] ∧ (cursors t).1 = (1, 3) := by decide
theorem test_wbits_32_across_five_bytes :
    let t := after 0x12200000 0xDEADBEEF 0 [] (writerAt 0 1 [0x80])
    bytesOf t.w.mem = [0xEF, 0x56, 0xDF, 0x77, 0x80] ∧ (cursors t).1 = (4, 1) := by decide
theorem test_wvaru :
    let t := after 0x13000000 300 0 [] State.reset
    bytesOf t.w.mem = [0xAC, 0x02] ∧ (cursors t).1 = (2, 0) := by decide
theorem test_wvars :
    let t := after 0x14000000 0xFFFFFFFFFFFFFFD6 0 [] State.reset
    bytesOf t.w.mem = [0x53] := by decide
theorem test_wvars_most_negative_of_32 :
    let t := after 0x14000000 0xFFFFFFFF80000000 0 [] (State.resetWith { Params.standard with varw := 32 })
    bytesOf t.w.mem = [0xFF, 0xFF, 0xFF, 0xFF, 0x0F] := by decide
theorem test_wbuf :
    let t := after 0x15020000 5 0 [0x68, 0x65, 0x6C, 0x6C, 0x6F] (writerAt 2 3 [0x12, 0x34, 0xA0])
    bytesOf t.w.mem = [0x12, 0x34, 0xA0, 0x00, 0x05, 0x68, 0x65, 0x6C, 0x6C, 0x6F] ∧ (cursors t).1 = (10, 0) := by decide
theorem test_wbuf_empty_still_aligns :
    let t := after 0x15000000 0 0 [] (writerAt 0 3 [0xA0])
    (cursors t).1 = (1, 0) ∧ bytesOf t.w.mem = [0xA0] := by decide
theorem test_wview :
    let t := after 0x16000000 0 0 [] (writerAt 0 5 [0xA8])
    t.completions = [{ st := .ok, q := 1, pout := [0xA8] }] ∧ (cursors t).1 = (0, 5) := by decide
theorem test_handoff :
    let t := after 0x17000000 0 0 [] (writerAt 1 3 [0xAE, 0xC0])
    t.r = { offset := 0, bitOffset := 0, len := 2, mem := [(0, 0xAE), (1, 0xC0)] } ∧ t.q = 2 ∧ t.w.len = 0 := by decide
theorem test_handoff_too_long :
    let t := after 0x17000000 0 0 [] { writerAt 1 3 [0xAE, 0xC0] with params := { Params.standard with rCapMax := 1 } }
    t.status.word = 0x104 ∧ (cursors t).1 = (1, 3) := by decide
theorem test_wu8 :
    let t := after 0x20000000 0x7F 0 [] (writerAt 0 3 [0xA0])
    bytesOf t.w.mem = [0xA0, 0x7F] := by decide
theorem test_wu16 :
    let t := after 0x21000000 0x1234 0 [] (writerAt 0 3 [0xA0])
    bytesOf t.w.mem = [0xA0, 0x12, 0x34] := by decide
theorem test_wu32 :
    let t := after 0x22000000 0x01020304 0 [] (writerAt 0 3 [0xA0])
    bytesOf t.w.mem = [0xA0, 0x01, 0x02, 0x03, 0x04] := by decide
theorem test_wu64 :
    let t := after 0x23000000 0x0102030405060708 0 [] (writerAt 0 3 [0xA0])
    bytesOf t.w.mem = [0xA0, 0x01, 0x02, 0x03, 0x04, 0x05, 0x06, 0x07, 0x08] := by decide
theorem test_wi8 :
    let t := after 0x24000000 0xFFFFFFFFFFFFFFFE 0 [] (writerAt 0 3 [0xA0])
    bytesOf t.w.mem = [0xA0, 0xFE] := by decide
theorem test_wi16 :
    let t := after 0x25000000 0xFFFFFFFFFFFFFFFE 0 [] (writerAt 0 3 [0xA0])
    bytesOf t.w.mem = [0xA0, 0xFF, 0xFE] := by decide
theorem test_wi32 :
    let t := after 0x26000000 0xFFFFFFFFFFFFFFD6 0 [] (writerAt 0 3 [0xA0])
    bytesOf t.w.mem = [0xA0, 0xFF, 0xFF, 0xFF, 0xD6] := by decide
theorem test_wi64 :
    let t := after 0x27000000 0x8000000000000000 0 [] (writerAt 0 3 [0xA0])
    bytesOf t.w.mem = [0xA0, 0x80, 0x00, 0x00, 0x00, 0x00, 0x00, 0x00, 0x00] := by decide
theorem test_wf16 :
    let t := after 0x29000000 0x3C00 0 [] (writerAt 0 3 [0xA0])
    bytesOf t.w.mem = [0xA0, 0x3C, 0x00] := by decide
theorem test_wf32 :
    let t := after 0x2A000000 0x3F800000 0 [] (writerAt 0 3 [0xA0])
    bytesOf t.w.mem = [0xA0, 0x3F, 0x80, 0x00, 0x00] := by decide
theorem test_wf64 :
    let t := after 0x2B000000 0x4052E00000000000 0 [] (writerAt 0 3 [0xA0])
    bytesOf t.w.mem = [0xA0, 0x40, 0x52, 0xE0, 0x00, 0x00, 0x00, 0x00, 0x00] := by decide
theorem test_wu8_overflow :
    let t := after 0x20000000 0x100 0 [] State.reset
    t.status.word = 0x101 ∧ t.w = State.reset.w := by decide
theorem test_wu16_overflow :
    let t := after 0x21000000 0x10000 0 [] State.reset
    t.status.word = 0x101 ∧ t.w = State.reset.w := by decide
theorem test_wu32_overflow :
    let t := after 0x22000000 0x100000000 0 [] State.reset
    t.status.word = 0x101 ∧ t.w = State.reset.w := by decide
theorem test_wi8_overflow :
    let t := after 0x24000000 0x80 0 [] State.reset
    t.status.word = 0x101 ∧ t.w = State.reset.w := by decide
theorem test_wi16_overflow :
    let t := after 0x25000000 0x8000 0 [] State.reset
    t.status.word = 0x101 ∧ t.w = State.reset.w := by decide
theorem test_wi32_overflow :
    let t := after 0x26000000 0x80000000 0 [] State.reset
    t.status.word = 0x101 ∧ t.w = State.reset.w := by decide
theorem test_wf16_overflow :
    let t := after 0x29000000 0x10000 0 [] State.reset
    t.status.word = 0x101 ∧ t.w = State.reset.w := by decide
theorem test_wf32_overflow :
    let t := after 0x2A000000 0x100000000 0 [] State.reset
    t.status.word = 0x101 ∧ t.w = State.reset.w := by decide
theorem test_wu64_no_space :
    let t := after 0x23000000 1 0 [] { writerAt 0 0 [] with w := { offset := 0, bitOffset := 0, cap := 7, expand := false, mem := [] } }
    t.status.word = 0x104 ∧ t.w.cap = 7 := by decide
theorem test_rload :
    let t := after 0x30000000 2 0 [0xAE, 0xCA] State.reset
    t.r = { offset := 0, bitOffset := 0, len := 2, mem := [(0, 0xAE), (1, 0xCA)] } := by decide
theorem test_rload_wrong_framing :
    let t := after 0x30000000 2 0 [0xAE] (readerAt 0 0 [0x01])
    t.status.word = 0x105 ∧ t.r.len = 1 := by decide
theorem test_ralign :
    let t := after 0x31000000 0 0 [] (readerAt 0 3 [0xA0, 0xAB])
    (cursors t).2 = (1, 0) := by decide
theorem test_rbits :
    let t := after 0x32060000 0 0 [] (readerAt 0 5 [0xAE, 0xCA])
    t.q = 54 ∧ (cursors t).2 = (1, 3) := by decide
theorem test_rbits_to_the_last_bit :
    let t := after 0x32200000 0 0 [] (readerAt 1 0 [0x00, 0xFF, 0xFF, 0xFF, 0xFE])
    t.q = 0xFFFFFFFE ∧ (cursors t).2 = (5, 0) := by decide
theorem test_rvaru :
    let t := after 0x33000000 0 0 [] (readerAt 0 3 [0xA0, 0xAC, 0x02])
    t.q = 300 ∧ (cursors t).2 = (3, 0) := by decide
theorem test_rvaru_overflow :
    let t := after 0x33000000 0 0 [] (readerAt 0 0 [0xFF, 0xFF, 0xFF, 0xFF, 0xFF, 0xFF, 0xFF, 0xFF, 0xFF, 0x02])
    t.status.word = 0x101 ∧ (cursors t).2 = (0, 0) := by decide
theorem test_rvars :
    let t := after 0x34000000 0 0 [] (readerAt 0 0 [0x53])
    t.q = 0xFFFFFFFFFFFFFFD6 ∧ (cursors t).2 = (1, 0) := by decide
theorem test_rvars_out_of_bounds :
    let t := after 0x34000000 0 0 [] (readerAt 0 0 [0x80, 0x80])
    t.status.word = 0x102 ∧ (cursors t).2 = (0, 0) := by decide
theorem test_rbuf :
    let t := after 0x35010000 99 0 [] (readerAt 0 3 [0xE0, 0x01, 0x02])
    t.completions = [{ st := .ok, q := 1, pout := [0x02] }] ∧ (cursors t).2 = (3, 0) := by decide
theorem test_rbuf_payload_missing :
    let t := after 0x35010000 0 0 [] (readerAt 0 3 [0xE0, 0x02, 0x02])
    t.status.word = 0x102 ∧ (cursors t).2 = (0, 3) := by decide
theorem test_ru8 :
    let t := after 0x40000000 0 0 [] (readerAt 0 3 [0xA0, 0x7F])
    t.q = 0x7F ∧ (cursors t).2 = (2, 0) := by decide
theorem test_ru16 :
    let t := after 0x41000000 0 0 [] (readerAt 0 3 [0xA0, 0x12, 0x34])
    t.q = 0x1234 ∧ (cursors t).2 = (3, 0) := by decide
theorem test_ru32 :
    let t := after 0x42000000 0 0 [] (readerAt 0 3 [0xA0, 0x01, 0x02, 0x03, 0x04])
    t.q = 0x01020304 ∧ (cursors t).2 = (5, 0) := by decide
theorem test_ru64 :
    let t := after 0x43000000 0 0 [] (readerAt 0 3 [0xA0, 0x01, 0x02, 0x03, 0x04, 0x05, 0x06, 0x07, 0x08])
    t.q = 0x0102030405060708 ∧ (cursors t).2 = (9, 0) := by decide
theorem test_ri8 :
    let t := after 0x44000000 0 0 [] (readerAt 0 3 [0xA0, 0xFE])
    t.q = 0xFFFFFFFFFFFFFFFE ∧ (cursors t).2 = (2, 0) := by decide
theorem test_ri16 :
    let t := after 0x45000000 0 0 [] (readerAt 0 3 [0xA0, 0xFF, 0xFE])
    t.q = 0xFFFFFFFFFFFFFFFE ∧ (cursors t).2 = (3, 0) := by decide
theorem test_ri32 :
    let t := after 0x46000000 0 0 [] (readerAt 0 3 [0xA0, 0xFF, 0xFF, 0xFF, 0xD6])
    t.q = 0xFFFFFFFFFFFFFFD6 ∧ (cursors t).2 = (5, 0) := by decide
theorem test_ri64 :
    let t := after 0x47000000 0 0 [] (readerAt 0 3 [0xA0, 0x80, 0x00, 0x00, 0x00, 0x00, 0x00, 0x00, 0x00])
    t.q = 0x8000000000000000 ∧ (cursors t).2 = (9, 0) := by decide
theorem test_rf16 :
    let t := after 0x49000000 0 0 [] (readerAt 0 3 [0xA0, 0x3C, 0x00])
    t.q = 0x3C00 ∧ (cursors t).2 = (3, 0) := by decide
theorem test_rf32 :
    let t := after 0x4A000000 0 0 [] (readerAt 0 3 [0xA0, 0x3F, 0x80, 0x00, 0x00])
    t.q = 0x3F800000 ∧ (cursors t).2 = (5, 0) := by decide
theorem test_rf64 :
    let t := after 0x4B000000 0 0 [] (readerAt 0 3 [0xA0, 0x40, 0x52, 0xE0, 0x00, 0x00, 0x00, 0x00, 0x00])
    t.q = 0x4052E00000000000 ∧ (cursors t).2 = (9, 0) := by decide
theorem test_pu8 :
    let t := after 0x60000000 0 0 [] (readerAt 0 3 [0xA0, 0x7F])
    t.q = 0x7F ∧ (cursors t).2 = (0, 3) := by decide
theorem test_pu16 :
    let t := after 0x61000000 0 0 [] (readerAt 0 3 [0xA0, 0x12, 0x34])
    t.q = 0x1234 ∧ (cursors t).2 = (0, 3) := by decide
theorem test_pu32 :
    let t := after 0x62000000 0 0 [] (readerAt 0 3 [0xA0, 0x01, 0x02, 0x03, 0x04])
    t.q = 0x01020304 ∧ (cursors t).2 = (0, 3) := by decide
theorem test_pu64 :
    let t := after 0x63000000 0 0 [] (readerAt 0 3 [0xA0, 0x01, 0x02, 0x03, 0x04, 0x05, 0x06, 0x07, 0x08])
    t.q = 0x0102030405060708 ∧ (cursors t).2 = (0, 3) := by decide
theorem test_pi8 :
    let t := after 0x64000000 0 0 [] (readerAt 0 3 [0xA0, 0xFE])
    t.q = 0xFFFFFFFFFFFFFFFE ∧ (cursors t).2 = (0, 3) := by decide
theorem test_pi16 :
    let t := after 0x65000000 0 0 [] (readerAt 0 3 [0xA0, 0xFF, 0xFE])
    t.q = 0xFFFFFFFFFFFFFFFE ∧ (cursors t).2 = (0, 3) := by decide
theorem test_pi32 :
    let t := after 0x66000000 0 0 [] (readerAt 0 3 [0xA0, 0xFF, 0xFF, 0xFF, 0xD6])
    t.q = 0xFFFFFFFFFFFFFFD6 ∧ (cursors t).2 = (0, 3) := by decide
theorem test_pi64 :
    let t := after 0x67000000 0 0 [] (readerAt 0 3 [0xA0, 0x80, 0x00, 0x00, 0x00, 0x00, 0x00, 0x00, 0x00])
    t.q = 0x8000000000000000 ∧ (cursors t).2 = (0, 3) := by decide
theorem test_pf16 :
    let t := after 0x69000000 0 0 [] (readerAt 0 3 [0xA0, 0x3C, 0x00])
    t.q = 0x3C00 ∧ (cursors t).2 = (0, 3) := by decide
theorem test_pf32 :
    let t := after 0x6A000000 0 0 [] (readerAt 0 3 [0xA0, 0x3F, 0x80, 0x00, 0x00])
    t.q = 0x3F800000 ∧ (cursors t).2 = (0, 3) := by decide
theorem test_pf64 :
    let t := after 0x6B000000 0 0 [] (readerAt 0 3 [0xA0, 0x40, 0x52, 0xE0, 0x00, 0x00, 0x00, 0x00, 0x00])
    t.q = 0x4052E00000000000 ∧ (cursors t).2 = (0, 3) := by decide
theorem test_ru32_out_of_bounds :
    let t := after 0x42000000 0 0 [] (readerAt 0 3 [0xA0, 0xAB, 0xCD])
    t.status.word = 0x102 ∧ (cursors t).2 = (0, 3) := by decide
theorem test_pbits :
    let t := after 0x52060000 0 0 [] (readerAt 0 5 [0xAE, 0xCA])
    t.q = 54 ∧ (cursors t).2 = (0, 5) := by decide
theorem test_pvaru :
    let t := after 0x53000000 0 0 [] (readerAt 0 0 [0xAC, 0x82, 0x00])
    t.q = 300 ∧ (cursors t).2 = (0, 0) := by decide
theorem test_pvars :
    let t := after 0x54000000 0 0 [] (readerAt 0 0 [0x7F])
    t.q = 0xFFFFFFFFFFFFFFC0 ∧ (cursors t).2 = (0, 0) := by decide
theorem test_pbuf :
    let t := after 0x55000000 2 0 [] (readerAt 1 0 [0x00, 0xDE, 0xAD])
    t.completions = [{ st := .ok, q := 2, pout := [0xDE, 0xAD] }] ∧ (cursors t).2 = (1, 0) := by decide
theorem test_toprec :
    let t := after 0x700C0000 0x4052E00000000000 0x4059000000000000 [] State.reset
    t.q = 0xC14 := by decide +kernel
theorem test_toprec_tie_goes_up :
    let t := after 0x70020000 0x4014000000000000 0x4018000000000000 [] State.reset
    t.q = 3 := by decide +kernel
theorem test_fromprec :
    let t := after 0x710C0000 0xC14 0x4059000000000000 [] State.reset
    t.q = 0x4052E06E06E06E07 := by decide +kernel
theorem test_fromprec_subnormal :
    let t := after 0x710C0000 0x800 0x0000000000000001 [] State.reset
    t.q = 1 := by decide +kernel
theorem test_zigzag :
    let t := after 0x72000000 0x8000000000000000 0 [] State.reset
    t.q = 0xFFFFFFFFFFFFFFFF := by decide
theorem test_unzigzag :
    let t := after 0x73000000 83 0 [] State.reset
    t.q = 0xFFFFFFFFFFFFFFD6 := by decide
theorem test_unzigzag_32_bits :
    let t := after 0x73000000 0xFFFFFFFF 0 [] (State.resetWith { Params.standard with varw := 32 })
    t.q = 0xFFFFFFFF80000000 := by decide

/-! ### The step -/

theorem test_illegal_word : let t := after 0xFFFFFFFF 1 1 [] State.reset
    t.status.word = 0x105 ∧ t.q = 0 := by decide
theorem test_idle : step State.reset = .next State.reset := rfl
theorem test_reset_event :
    step { writerAt 1 3 [0xAE, 0xC0] with pending := [.reset] } = .next State.reset := rfl
theorem test_withFetchWord_runs :
    step (State.reset.withFetchWord 32 0x01030000) = exec (.rdcsr 3) State.reset := rfl

/-! ### Pseudo-instructions (R111) -/

theorem test_pseudo_newmsg : Pseudo.newmsg.commands.map (· 7) =
    [{ cw := 0x10010000, a := 0, b := 0, pin := [] }] := by decide
theorem test_pseudo_wquant : (Pseudo.wquant 12 5 6).commands.map (· 7) =
    [{ cw := 0x700C0000, a := 5, b := 6, pin := [] }, { cw := 0x120C0000, a := 7, b := 0, pin := [] }] := by
  decide
theorem test_pseudo_rquant : (Pseudo.rquant 12 6).commands.map (· 7) =
    [{ cw := 0x320C0000, a := 0, b := 0, pin := [] }, { cw := 0x710C0000, a := 7, b := 6, pin := [] }] := by
  decide
theorem test_pseudo_wstr : (Pseudo.wstr 2 [0x68, 0x69]).commands.map (· 7) =
    [{ cw := 0x15020000, a := 2, b := 0, pin := [0x68, 0x69] }] := by decide

/-! ### Witnesses: a concrete state and operands that meet the hypotheses of each statement, for each
clause at a boundary value -/

/-- A state with the operands given. -/
def withOp (a b : Word) (pin : List Byte) (s : State) : State :=
  { s with op := { a := a, b := b, pin := pin } }

/-- A full Writer that may not grow, with a partial byte at its end. -/
def fullWriter : State :=
  { writerAt 1 3 [0x12, 0xA0] with
    w := { offset := 1, bitOffset := 3, cap := 2, expand := false, mem := [(0, 0x12), (1, 0xA0)] } }

/-- A command transaction. -/
def transaction (cw : CommandWord) (a : Word) (pin : List Byte) : Command :=
  { cw := cw, a := a, b := 0, pin := pin }

theorem witness_illegal : IllegalTransaction (transaction 0x74000000 0 []) ∧
    IllegalTransaction (transaction 0x20000001 0 []) ∧
    IllegalTransaction (transaction 0x11010000 0 []) ∧
    IllegalTransaction (transaction 0x20000000 1 [1]) ∧
    IllegalTransaction (transaction 0x30000000 2 [1]) ∧
    ¬ IllegalTransaction (transaction 0x30000000 1 [1]) ∧
    ¬ IllegalTransaction (transaction 0x12FF0000 0 []) :=
  ⟨by decide, by decide, by decide, by decide, by decide, by decide, by decide⟩

/-- … in a state that has it pending. -/
theorem witness_pending :
    let s := { State.reset with pending := [.command (transaction 0x30000000 1 [1]), .reset] }
    s.Inv ∧ s.pending = .command (transaction 0x30000000 1 [1]) :: [.reset] ∧
      decode (transaction 0x30000000 1 [1]).cw = .ok .rload := by decide

theorem witness_resetEvent :
    { fullWriter with pending := [.reset, .reset] }.pending = .reset :: [.reset] := by decide

theorem witness_idle : fullWriter.pending = [] ∧ fullWriter.Inv := by decide

/-- A next state: an error and a success from one state that keeps the invariants. -/
theorem witness_exec : fullWriter.Inv ∧
    (∃ t, exec .wu8 fullWriter = .next t ∧ t.status.last = .noSpace) ∧
    (∃ t, exec .walign fullWriter = .next t ∧ t.status.last = .ok) ∧
    (∃ t, exec .clrerr fullWriter = .next t ∧ t.status.last = .ok) :=
  ⟨by decide, ⟨_, rfl, by decide⟩, ⟨_, rfl, by decide⟩, ⟨_, rfl, by decide⟩⟩

theorem witness_unusedOperands :
    usesA (.rbuf 2) = false ∧ usesB (.rbuf 2) = false ∧ usesA (.rbuf 0) = true ∧
    ∃ t, exec (.rbuf 2) (readerAt 0 0 [0, 1, 5]) = .next t ∧ t.status.last = .ok :=
  ⟨by decide, by decide, by decide, ⟨_, rfl, by decide⟩⟩

theorem witness_params : Params.wellFormed { varw := 1, wCapInit := 1, wCapMax := 1, rCapMax := 0 } =
    true ∧ Params.standard.wellFormed = true := by decide

theorem witness_step : State.reset.Inv ∧ State.reset.w.mem.wf = true ∧ State.reset.r.mem.wf = true ∧
    step State.reset = .next State.reset := ⟨by decide, by decide, by decide, rfl⟩

/-- Growth: the capacity 16 does not hold 3 + 16 bytes; the Writer grows. -/
theorem witness_growth :
    let s := withOp 16 0 (List.replicate 16 1) (writerAt 2 3 [1, 2, 0xA0])
    s.Inv ∧ (mirrorOf (.wbuf 0)).isSome = true ∧
      ∃ t, exec (.wbuf 0) s = .next t ∧ t.w.cap = 32 := ⟨by decide, by decide, ⟨_, rfl, by decide⟩⟩

theorem witness_peek : peekOf .rvars = some .pvars ∧ peekOf (.rbits 32) = some (.pbits 32) ∧
    ∃ t, exec .rvars (readerAt 0 0 [0x53]) = .next t ∧ t.status.last = .ok :=
  ⟨by decide, by decide, ⟨_, rfl, by decide⟩⟩

theorem witness_endOfBuffer :
    let s := readerAt 2 0 [1, 2]
    s.Inv ∧ s.op.pin = [] ∧ s.r.offset = s.r.len ∧ s.r.bitOffset = 0 ∧ s.op.a = 0 ∧
      (withOp 1 0 [] s).Inv ∧ (withOp 1 0 [] s).op.a ≠ 0 := by decide

theorem witness_align : (writerAt 0 7 [0xFE]).w.bitOffset ≠ 0 ∧ (writerAt 1 0 [1]).w.bitOffset = 0 ∧
    (readerAt 0 7 [1]).r.bitOffset ≠ 0 ∧ (readerAt 1 0 [1]).r.bitOffset = 0 ∧
    (writerAt 0 7 [0xFE]).op.pin = [] ∧ (readerAt 0 7 [1]).op.pin = [] := by decide

/-- `WBITS`: a count of 33, a value of 2^32 and of 2^32 − 1 at 32 bits, of 1 and 0 at 0 bits; a field that
no longer fits, and one that just fits. -/
theorem witness_wbits :
    let s := withOp 0x100000000 0 [] (writerAt 0 0 [])
    let t := withOp 0xFFFFFFFF 0 [] (writerAt 0 1 [0x80])
    s.Inv ∧ s.op.pin = [] ∧ 32 < (33 : Count).toNat ∧ 2 ^ (32 : Count).toNat ≤ s.op.a.toNat ∧
    t.Inv ∧ t.op.pin = [] ∧ t.op.a.toNat < 2 ^ (32 : Count).toNat ∧
    t.w.Fits t.params ((t.w.position + 32 + 7) / 8) := by decide

theorem witness_wbits_noBits :
    2 ^ (0 : Count).toNat ≤ (withOp 1 0 [] State.reset).op.a.toNat ∧
    (withOp 0 0 [] State.reset).op.a.toNat < 2 ^ (0 : Count).toNat := by decide

theorem witness_wbits_full : fullWriter.Inv ∧ fullWriter.op.pin = [] ∧
    ¬ fullWriter.w.Fits fullWriter.params ((fullWriter.w.position + 6 + 7) / 8) ∧
    fullWriter.w.Fits fullWriter.params ((fullWriter.w.position + 5 + 7) / 8) := by decide

/-- The unsigned writes: 255 and 256 at one byte, 2^64 − 1 at eight; room and none. -/
theorem witness_unsignedWrites :
    let s := withOp 0xFF 0 [] fullWriter
    let t := withOp 0x100 0 [] (writerAt 0 3 [0xA0])
    s.Inv ∧ s.op.pin = [] ∧ s.op.a.toNat < 2 ^ (8 * 1) ∧
      ¬ s.w.Fits s.params (s.w.start + (bigEndianBytes s.op.a.toNat 1).length) ∧
    t.Inv ∧ t.op.pin = [] ∧ 2 ^ (8 * 1) ≤ t.op.a.toNat ∧ t.op.a.toNat < 2 ^ (8 * 2) ∧
      t.w.Fits t.params (t.w.start + (bigEndianBytes t.op.a.toNat 2).length) ∧
    (withOp 0xFFFFFFFFFFFFFFFF 0 [] t).op.a.toNat < 2 ^ (8 * 8) := by decide

/-- The signed writes at one byte: −128, −129, 127, 128. -/
theorem witness_signedWrites :
    let s := fun a => withOp a 0 [] (writerAt 0 3 [0xA0])
    (s 0xFFFFFFFFFFFFFF80).Inv ∧ (s 0).op.pin = [] ∧
    -(2 ^ (8 * 1 - 1)) ≤ (s 0xFFFFFFFFFFFFFF80).op.a.toInt ∧
    (s 0xFFFFFFFFFFFFFF80).op.a.toInt ≤ 2 ^ (8 * 1 - 1) - 1 ∧
    (s 0xFFFFFFFFFFFFFF7F).op.a.toInt < -(2 ^ (8 * 1 - 1)) ∧
    (s 0x7F).op.a.toInt ≤ 2 ^ (8 * 1 - 1) - 1 ∧ 2 ^ (8 * 1 - 1) - 1 < (s 0x80).op.a.toInt ∧
    (s 0).w.Fits (s 0).params ((s 0).w.start + 1) := by decide

/-- `WBUF`: wrong framing, a bad width, a length of 256 and of 255 for a prefix of one byte, no prefix. -/
theorem witness_wbuf :
    let s := withOp 2 0 [1] (writerAt 0 0 [])
    let t := fun k => withOp (BitVec.ofNat 64 k) 0 (List.replicate k 1) (writerAt 0 0 [])
    s.Inv ∧ s.op.pin.length ≠ s.op.a.toNat ∧
    (t 1).Inv ∧ (t 1).op.pin.length = (t 1).op.a.toNat ∧ (3 : Count).toNat ∉ [0, 1, 2, 4] ∧
    (t 256).op.pin.length = (t 256).op.a.toNat ∧ 2 ^ (8 * (1 : Count).toNat) ≤ (t 256).op.a.toNat ∧
    (t 255).op.pin.length = (t 255).op.a.toNat ∧ (t 255).op.a.toNat < 2 ^ (8 * (1 : Count).toNat) ∧
    (0 : Count).toNat = 0 ∧ (t 1).w.Fits (t 1).params ((t 1).w.start + 2) := by decide +kernel

/-- The varint writes with VARW = 32: 2^32 and 2^32 − 1; −2^31 − 1 and −2^31, 2^31 − 1 and 2^31. -/
theorem witness_varintWrites :
    let s := fun a => withOp a 0 [] (State.resetWith { Params.standard with varw := 32 })
    (s 0).Inv ∧ (s 0).op.pin = [] ∧ 2 ^ (s 0).params.varw ≤ (s 0x100000000).op.a.toNat ∧
    (s 0xFFFFFFFF).op.a.toNat < 2 ^ (s 0).params.varw ∧
    ¬ InVarintRange (s 0).params (s 0xFFFFFFFF7FFFFFFF).op.a.toInt ∧
    InVarintRange (s 0).params (s 0xFFFFFFFF80000000).op.a.toInt ∧
    InVarintRange (s 0).params (s 0x7FFFFFFF).op.a.toInt ∧
    ¬ InVarintRange (s 0).params (s 0x80000000).op.a.toInt := by decide

/-- `RBITS`: a count of 33; 14 bits with 13 left, and 13. -/
theorem witness_bitReads :
    let s := readerAt 0 3 [0xAE, 0xCA]
    s.Inv ∧ s.op.pin = [] ∧ 32 < (33 : Count).toNat ∧
    8 * s.r.len < s.r.position + (14 : Count).toNat ∧
    s.r.position + (13 : Count).toNat ≤ 8 * s.r.len ∧
    s.r.position + (0 : Count).toNat ≤ 8 * s.r.len := by decide

/-- The byte-level reads: two bytes left after alignment, four wanted, two wanted. -/
theorem witness_reads :
    let s := readerAt 0 3 [0xA0, 0xAB, 0xCD]
    s.Inv ∧ s.op.pin = [] ∧ s.r.len < s.r.start + 4 ∧ s.r.start + 2 ≤ s.r.len := by decide

/-- `RBUF`: a bad width; the prefix missing; the payload missing; payload and prefix just there. -/
theorem witness_bufferReads :
    let s := readerAt 0 3 [0xE0, 0x02, 0x02]
    let t := readerAt 0 3 [0xE0, 0x01, 0x02]
    s.Inv ∧ s.op.pin = [] ∧ (5 : Count).toNat ∉ [0, 1, 2, 4] ∧
    s.r.len < s.r.start + (4 : Count).toNat ∧
    s.r.len < s.r.start + 1 + bigEndian s.r.mem s.r.start 1 ∧
    t.Inv ∧ t.r.start + 1 + bigEndian t.r.mem t.r.start 1 ≤ t.r.len ∧
    t.r.start + 0 + 2 ≤ t.r.len := by decide

/-- The varint reads with VARW = 32: no end in the buffer; the value 2^32 − 1; the value 2^32. -/
theorem witness_varintReads :
    let s := fun bs => { readerAt 0 0 bs with params := { Params.standard with varw := 32 } }
    (s [0x80, 0x80]).Inv ∧ (s []).op.pin = [] ∧
    (∀ k, ¬ VarintAt (s [0x80, 0x80]).r.mem (s [0x80, 0x80]).r.start (s [0x80, 0x80]).r.len k) ∧
    (s [0xFF, 0xFF, 0xFF, 0xFF, 0x0F]).Inv ∧
    VarintAt (s [0xFF, 0xFF, 0xFF, 0xFF, 0x0F]).r.mem 0 5 5 ∧
    varintValue (s [0xFF, 0xFF, 0xFF, 0xFF, 0x0F]).r.mem 0 5 = 2 ^ 32 - 1 ∧
    VarintAt (s [0x80, 0x80, 0x80, 0x80, 0x10]).r.mem 0 5 5 ∧
    varintValue (s [0x80, 0x80, 0x80, 0x80, 0x10]).r.mem 0 5 = 2 ^ 32 := by
  refine ⟨by decide, by decide, ?_, by decide, by decide, by decide, by decide, by decide⟩
  rintro k ⟨h1, h2, -, h4⟩
  have h2 : 0 + k ≤ 2 := h2
  have : k = 1 ∨ k = 2 := by omega
  rcases this with rfl | rfl <;> revert h4 <;> decide

theorem witness_alignedBits :
    let s := readerAt 1 0 [0x00, 0x12, 0x34]
    s.Inv ∧ s.op.pin = [] ∧ s.r.bitOffset = 0 ∧ (16 : Count).toNat ≤ 32 ∧
    8 * s.r.offset + (16 : Count).toNat ≤ 8 * s.r.len := by decide

theorem witness_unleb : Memory.Holds [(3, 0xAC), (4, 0x02), (5, 0xFF)] 3 (leb 300) ∧
    (leb 300).length ≤ 2 := by
  refine ⟨fun j b h => ?_, by decide⟩
  have h : [0xAC, 0x02][j]? = some b := h
  match j, h with
  | 0, h => cases h; rfl
  | 1, h => cases h; rfl

/-- Zigzag at VARW = 1 and 8: both ends of the signed range, the largest code. -/
theorem witness_zigzag : -(2 ^ (1 - 1)) ≤ (-1 : Int) ∧ (0 : Int) ≤ 2 ^ (1 - 1) - 1 ∧
    -(2 ^ (8 - 1)) ≤ (-128 : Int) ∧ (127 : Int) ≤ 2 ^ (8 - 1) - 1 ∧ (255 : Nat) < 2 ^ 8 := by decide

theorem witness_rdcsr : fullWriter.Inv ∧ fullWriter.op.pin = [] ∧ 9 < (10 : Count).toNat ∧
    (9 : Count).toNat ≤ 9 := by decide

/-- `WINIT`: flags of 2, a capacity of W_CAP_MAX + 1, of W_CAP_MAX, the default. -/
theorem witness_winit :
    let s := fun a => withOp a 0 [] State.reset
    (s 0).op.pin = [] ∧ 1 < (2 : Count).toNat ∧ (s 0).params.wCapMax < (s 65537).op.a.toNat ∧
    (s 65536).op.a.toNat ≤ (s 0).params.wCapMax ∧ (s 0).params.wCapInit ≤ (s 0).params.wCapMax ∧
    (1 : Count).toNat ≤ 1 := by decide

/-- `HANDOFF`: a message of two bytes for a Reader of one byte, and of two. -/
theorem witness_handoff :
    let s := fun k => { fullWriter with params := { Params.standard with rCapMax := k } }
    (s 1).Inv ∧ (s 1).op.pin = [] ∧ (s 1).params.rCapMax < (s 1).w.len ∧
    (s 2).Inv ∧ (s 2).w.len ≤ (s 2).params.rCapMax := by decide

/-- `RLOAD`: wrong framing; two bytes for a Reader of one, and of two. -/
theorem witness_rload :
    let s := fun k => withOp 2 0 [1, 2] (State.resetWith { Params.standard with rCapMax := k })
    (withOp 2 0 [1] (s 2)).op.pin.length ≠ (withOp 2 0 [1] (s 2)).op.a.toNat ∧
    (s 1).op.pin.length = (s 1).op.a.toNat ∧ (s 1).params.rCapMax < (s 1).op.a.toNat ∧
    (s 2).op.a.toNat ≤ (s 2).params.rCapMax := by decide

theorem witness_fieldList :
    (runOk ([(5, 0x15), (6, 0x36), (5, 0x0A)].map fun f =>
      (.wbits f.1, { a := f.2, b := 0, pin := [] })) State.reset).isSome = true ∧
    State.reset.Inv ∧ State.reset.w.position = 0 := by decide

/-- The mixed scenario of spec/95_test_vectors.md section 1.1 as a list of Writer data commands. -/
def mixedFields : List (Instr × Operands) :=
  [(.wu16, { a := 0x1234, b := 0, pin := [] }), (.wbits 3, { a := 5, b := 0, pin := [] }),
   (.wbuf 2, { a := 5, b := 0, pin := [0x68, 0x65, 0x6C, 0x6C, 0x6F] }),
   (.wvars, { a := 0xFFFFFFFFFFFFFFD6, b := 0, pin := [] })]

theorem witness_mirroredReads :
    let t := (runOk mixedFields State.reset).getD State.reset
    let u := { State.reset with r := { offset := 0, bitOffset := 0, len := t.w.len, mem := t.w.mem } }
    (∀ c ∈ mixedFields, (mirrorOf c.1).isSome = true) ∧ runOk mixedFields State.reset = some t ∧
    bytesOf t.w.mem = [0x12, 0x34, 0xA0, 0x00, 0x05, 0x68, 0x65, 0x6C, 0x6C, 0x6F, 0x53] ∧
    u.Inv ∧ u.params = State.reset.params := by decide

theorem realValue_two : realValue 0x4000000000000000 = 2 := by
  rw [realValue, if_pos (by decide), magnitude, if_neg (by decide),
    show fracOf 0x4000000000000000 = 0 by decide, show expOf 0x4000000000000000 = 1024 by decide,
    div_eq_iff (by positivity), Nat.cast_zero, add_zero, ← pow_add, ← pow_succ']

/-- The maximum 2.0 and its patterns' neighbours of no use as a maximum: 0, −0, −2.0, +∞, NaN. -/
theorem witness_validMax : ValidMax 0x4000000000000000 ∧ ¬ ValidMax 0 ∧
    ¬ ValidMax 0x8000000000000000 ∧ ¬ ValidMax 0xC000000000000000 ∧
    ¬ ValidMax 0x7FF0000000000000 ∧ ¬ ValidMax 0x7FF8000000000000 := by
  refine ⟨⟨by decide, by rw [realValue_two]; norm_num⟩, ?_, ?_, ?_, ?_, ?_⟩
  · rintro ⟨-, h⟩
    rw [realValue, if_pos (by decide), magnitude, if_pos (by decide),
      show fracOf 0 = 0 by decide, Nat.cast_zero, zero_div] at h
    exact lt_irrefl _ h
  · rintro ⟨-, h⟩
    rw [realValue, if_neg (by decide), magnitude, if_pos (by decide),
      show fracOf 0x8000000000000000 = 0 by decide] at h
    rw [Nat.cast_zero, zero_div, neg_zero] at h
    exact lt_irrefl _ h
  · rintro ⟨-, h⟩
    rw [realValue, if_neg (by decide), magnitude, if_neg (by decide),
      show fracOf 0xC000000000000000 = 0 by decide] at h
    have : (0 : ℚ) ≤ (2 ^ 52 + (0 : ℕ)) * 2 ^ expOf 0xC000000000000000 / 2 ^ 1075 := by positivity
    exact lt_irrefl _ (h.trans_le (neg_nonpos.mpr this))
  · rintro ⟨h, -⟩; exact h (by decide)
  · rintro ⟨h, -⟩; exact h (by decide)

/-- `TOPREC` at widths 1 and 32 of the value 1.0 with the maximum 2.0; of +∞, −∞ and NaN. -/
theorem witness_toprec :
    1 ≤ (1 : Count).toNat ∧ (32 : Count).toNat ≤ 32 ∧ (0 : Count).toNat < 1 ∧
    32 < (33 : Count).toNat ∧ isFinite 0x3FF0000000000000 ∧
    isInfinite 0x7FF0000000000000 ∧ ¬ isNegative 0x7FF0000000000000 ∧
    isInfinite 0xFFF0000000000000 ∧ isNegative 0xFFF0000000000000 ∧ isNaN 0x7FF0000000000001 ∧
    ClampedTo 0xFFF0000000000000 0x4000000000000000 0 :=
  ⟨by decide, by decide, by decide, by decide, by decide, by decide, by decide, by decide,
    by decide, by decide, .inl ⟨by decide, by decide, rfl⟩⟩

/-- `FROMPREC` at width 1: the codes 1 and 2. -/
theorem witness_fromprec :
    (withOp 1 0x4000000000000000 [] State.reset).op.a.toNat ≤ 2 ^ (1 : Count).toNat - 1 ∧
    2 ^ (1 : Count).toNat - 1 < (withOp 2 0x4000000000000000 [] State.reset).op.a.toNat := by decide

/-- The round trip of the value 1.0 with the maximum 2.0, which is at least 2^(−1042). -/
theorem witness_precisionRoundTrip :
    let s := withOp 0x3FF0000000000000 0x4000000000000000 [] State.reset
    s.op.pin = [] ∧ ValidMax s.op.b ∧ 1 / 2 ^ 1042 ≤ realValue s.op.b ∧ isFinite s.op.a := by
  refine ⟨rfl, witness_validMax.1, ?_, by decide⟩
  show 1 / 2 ^ 1042 ≤ realValue 0x4000000000000000
  rw [realValue_two]
  exact le_trans (div_le_one_of_le₀ (one_le_pow₀ (by norm_num)) (by positivity)) (by norm_num)

/-- `WQUANT 12` of 75.5 with the maximum 100 (the example of R264): both commands complete `OK`. -/
theorem witness_quantizedFields :
    (match State.reset.issue (commandOf (.toprec 12) 0x4052E00000000000 0x4059000000000000 []) with
      | .next t => match t.issue (commandOf (.wbits 12) t.q 0 []) with
        | .next u => t.status.last == .ok && t.q == 0xC14 && u.status.last == .ok
        | _ => false
      | _ => false) = true := by decide +kernel

/-- The command of `witness_pending` as R7's function: RLOAD of one byte. -/
theorem test_transact : State.reset.toBlock.transact Params.standard (transaction 0x30000000 1 [7]) =
    .next ({ State.reset.toBlock with r := { offset := 0, bitOffset := 0, len := 1, mem := [(0, 7)] } },
      { st := .ok, q := 0, pout := [] }) := rfl

/-- After the command no copy of its operands stands in the state (R21, R23), success or error. -/
theorem test_noOperandsKept :
    (∃ t, exec .rload (withOp 1 0 [7] State.reset) = .next t ∧ t.op = .absent) ∧
    (∃ t, exec .wu8 (withOp 256 5 [] State.reset) = .next t ∧ t.status.last = .overflow ∧
      t.op = .absent) := ⟨⟨_, rfl, rfl⟩, ⟨_, rfl, rfl, rfl⟩⟩

/-- A read from one state and from the state with another Writer, both with a next state. -/
theorem witness_separate :
    (∃ t, exec .ru8 (readerAt 0 0 [7]) = .next t ∧ t.q = 7) ∧
    (∃ t', exec .ru8 { readerAt 0 0 [7] with w := fullWriter.w } = .next t' ∧ t'.q = 7) ∧
    (∃ t', exec .wview { fullWriter with r := (readerAt 0 0 [7]).r } = .next t' ∧ t'.q = 2) :=
  ⟨⟨_, rfl, by decide⟩, ⟨_, rfl, by decide⟩, ⟨_, rfl, by decide⟩⟩

end Sys2Proof.Tests
end

section
/-! The step of a pending command as a function of the parameters, the record of R20 and the transaction
(spec/00_scope.md R7, spec/10_state.md R20 to R23).  The argument has three layers: every rule reads and
changes the block alone (`BlockRule`); so every command answers alone (`AnswersAlone`, `exec_answersAlone`,
the one split over the instructions); so the step of a pending command has one answer whatever the host's
lists and the operand fields hold (`step_command_answer`). -/

namespace Sys2Proof.Machine

variable {s : State} {c : Command} {rest : List HostEvent}

/-! ### The step, one equation per event -/

theorem step_of_idle (h : s.pending = []) : step s = .next s := by
  rw [step, State.takeEvent_nil h]

theorem step_of_reset (h : s.pending = .reset :: rest) :
    step s = .next (State.hostReset { s with pending := rest }) := by
  rw [step, State.takeEvent_cons h]

theorem step_of_decoded {i : Instr} (h : s.pending = .command c :: rest) (hd : decode c.cw = .ok i) :
    step s = exec i (State.latch { s with pending := rest } c) := by
  simp only [step, State.takeEvent_cons h, hd]

theorem step_of_badWord {w : BadWord} (h : s.pending = .command c :: rest)
    (hd : decode c.cw = .error w) :
    step s = .next ((State.latch { s with pending := rest } c).raise .illegalCommand) := by
  simp only [step, State.takeEvent_cons h, hd]

/-! ### Rules that read and change the block alone -/

/-- A value that does not depend on the host's lists. -/
def PortFree {α : Type} (f : State → α) : Prop :=
  ∀ (b : Block) (o : Operands) (p : Params) (pending : List HostEvent) (cs : List Completion),
    f ⟨b, o, p, pending, cs⟩ = f ⟨b, o, p, [], []⟩

/-- A rule whose result is fixed by the block, the operands and the parameters, and whose effect changes
the block alone. -/
def BlockRule (rule : State → Result Effect) : Prop :=
  ∀ (b : Block) (o : Operands) (p : Params),
    (∃ e : Stop, ∀ pending cs, rule ⟨b, o, p, pending, cs⟩ = .error e) ∨
    (∃ (b' : Block) (q : Word) (pout : List Byte), ∀ pending cs,
      rule ⟨b, o, p, pending, cs⟩ = .ok { state := ⟨b', o, p, pending, cs⟩, q := q, pout := pout })

theorem BlockRule.writing {x : State → Result Writer} (hx : PortFree x) :
    BlockRule fun s => s.writing (x s) := by
  intro b o p
  have hx := hx b o p
  cases h : x ⟨b, o, p, [], []⟩ with
  | error e => exact .inl ⟨e, fun _ _ => by simp only [hx, h, State.writing]⟩
  | ok w => exact .inr ⟨{ b with w := w }, 0, [], fun _ _ => by simp only [hx, h, State.writing]⟩

theorem BlockRule.reading {x : State → Result Reading} (peek : Bool) (hx : PortFree x) :
    BlockRule fun s => s.reading peek (x s) := by
  intro b o p
  have hx := hx b o p
  cases h : x ⟨b, o, p, [], []⟩ with
  | error e => exact .inl ⟨e, fun _ _ => by simp only [hx, h, State.reading]⟩
  | ok d =>
    refine .inr ⟨if peek then b else { b with r := d.reader }, d.q, d.pout, fun _ _ => ?_⟩
    cases peek <;> simp [hx, h, State.reading]

theorem BlockRule.computing {x : State → Result Word} (hx : PortFree x) :
    BlockRule fun s => s.computing (x s) := by
  intro b o p
  have hx := hx b o p
  cases h : x ⟨b, o, p, [], []⟩ with
  | error e => exact .inl ⟨e, fun _ _ => by simp only [hx, h, State.computing]⟩
  | ok q => exact .inr ⟨b, q, [], fun _ _ => by simp only [hx, h, State.computing]⟩

theorem BlockRule.viewRule : BlockRule State.viewRule := by
  intro b o p
  cases h : b.w.view with
  | error e => exact .inl ⟨e, fun _ _ => by simp only [State.viewRule, h]⟩
  | ok bytes => exact .inr ⟨b, _, bytes, fun _ _ => by simp only [State.viewRule, h]; rfl⟩

theorem BlockRule.handoffRule : BlockRule State.handoffRule := by
  intro b o p
  by_cases hcap : p.rCapMax < b.w.len
  · exact .inl ⟨.raise .noSpace, fun _ _ => if_pos hcap⟩
  · cases h : b.w.view with
    | error e => exact .inl ⟨e, fun _ _ => by simp only [State.handoffRule, hcap, h, if_false]⟩
    | ok bytes =>
      exact .inr ⟨{ b with r := Reader.load bytes, w := b.w.restart }, BitVec.ofNat 64 b.w.len, [],
        fun _ _ => by simp only [State.handoffRule, hcap, h, if_false]⟩

theorem BlockRule.loadRule : BlockRule State.loadRule := by
  intro b o p
  by_cases hcap : p.rCapMax < o.a.toNat
  · exact .inl ⟨.raise .noSpace, fun _ _ => if_pos hcap⟩
  · exact .inr ⟨{ b with r := Reader.load o.pin }, 0, [], fun _ _ => if_neg hcap⟩

theorem BlockRule.clearRule : BlockRule State.clearRule :=
  fun b _ _ => .inr ⟨{ b with status := b.status.clearSeen }, 0, [], fun _ _ => rfl⟩

/-! ### Commands that answer from the block alone -/

/-- The completion that goes with the block after a command and its payload: STATUS.LAST and Q are the
block's own (R22, R26). -/
def Block.completion (b : Block) (pout : List Byte) : Completion :=
  { st := b.status.last, q := b.q, pout := pout }

/-- A command begun in `s` ends with the block and the payload given, or in a fault: its completion is
appended, its operands are gone, and nothing else of the state changes. -/
def State.answer (s : State) : Except Fault (Block × List Byte) → Host.Outcome State Fault Refusal
  | .ok (b, pout) =>
    .next { s with
      toBlock := b, op := .absent, completions := s.completions ++ [b.completion pout] }
  | .error f => .fault f

/-- A command whose answer is fixed by the block, the operands and the parameters. -/
def AnswersAlone (f : State → Host.Outcome State Fault Refusal) : Prop :=
  ∀ (b : Block) (o : Operands) (p : Params), ∃ a : Except Fault (Block × List Byte),
    ∀ pending cs, f ⟨b, o, p, pending, cs⟩ = State.answer ⟨b, o, p, pending, cs⟩ a

/-- The error completion as an answer. -/
theorem State.raise_eq_answer (b : Block) (o o' : Operands) (p : Params) (pending : List HostEvent)
    (cs : List Completion) (e : Status) :
    .next (State.raise ⟨b, o, p, pending, cs⟩ e) = State.answer ⟨b, o', p, pending, cs⟩
      (.ok ({ b with status := b.status.fail e, q := 0 }, [])) := rfl

/-- The success completion of an effect on the block as an answer. -/
theorem State.complete_eq_answer (b b' : Block) (o : Operands) (p : Params)
    (pending : List HostEvent) (cs : List Completion) (q : Word) (pout : List Byte) :
    .next (State.complete ⟨b', o, p, pending, cs⟩ q pout) = State.answer ⟨b, o, p, pending, cs⟩
      (.ok ({ b' with status := b'.status.succeed, q := q }, pout)) := rfl

/-- A command made of a framing test and a rule on the block answers alone. -/
theorem AnswersAlone.perform {framed : State → Bool} {rule : State → Result Effect}
    (hf : PortFree framed) (hr : BlockRule rule) :
    AnswersAlone fun s => s.perform (framed s) (rule s) := by
  intro b o p
  have hf := hf b o p
  cases h : framed ⟨b, o, p, [], []⟩ with
  | false =>
    exact ⟨_, fun _ _ => (State.perform_illegal _ ((hf _ _).trans h)).trans
      (State.raise_eq_answer b o o p _ _ _)⟩
  | true =>
    obtain ⟨e, he⟩ | ⟨b', q, pout, hok⟩ := hr b o p
    · cases e with
      | raise st =>
        exact ⟨_, fun _ _ => (State.perform_raise ((hf _ _).trans h) (he _ _)).trans
          (State.raise_eq_answer b o o p _ _ _)⟩
      | fault f =>
        exact ⟨.error f, fun _ _ => by
          simp only [State.perform, hf, h, he, if_true, State.finish, State.answer]⟩
    · exact ⟨_, fun _ _ => (State.perform_ok ((hf _ _).trans h) (hok _ _)).trans
        (State.complete_eq_answer b b' o p _ _ q pout)⟩

/-- What is read off the operands, as both framing tests are (R108), does not depend on the host's lists. -/
theorem PortFree.ofOperands {α : Type} (f : Operands → α) : PortFree fun s => f s.op :=
  fun _ _ _ _ _ => rfl

/-- Every command answers from the block, the operands and the parameters alone. -/
theorem exec_answersAlone (i : Instr) : AnswersAlone (exec i) := by
  cases i with
  | winit | walign | wbits | wvaru | wvars | wbuf
  | wu8 | wu16 | wu32 | wu64 | wi8 | wi16 | wi32 | wi64 | wf16 | wf32 | wf64 =>
    exact .perform (.ofOperands _) (.writing fun _ _ _ _ _ => rfl)
  | ralign | rbits | rvaru | rvars | rbuf
  | ru8 | ru16 | ru32 | ru64 | ri8 | ri16 | ri32 | ri64 | rf16 | rf32 | rf64
  | pbits | pvaru | pvars | pbuf
  | pu8 | pu16 | pu32 | pu64 | pi8 | pi16 | pi32 | pi64 | pf16 | pf32 | pf64 =>
    exact .perform (.ofOperands _) (.reading _ fun _ _ _ _ _ => rfl)
  | rdcsr | toprec | fromprec | zigzag | unzigzag =>
    exact .perform (.ofOperands _) (.computing fun _ _ _ _ _ => rfl)
  | clrerr => exact .perform (.ofOperands _) .clearRule
  | wview => exact .perform (.ofOperands _) .viewRule
  | handoff => exact .perform (.ofOperands _) .handoffRule
  | rload => exact .perform (.ofOperands _) .loadRule

/-- The step of a pending command has one answer, whatever the host's lists and the operand fields hold:
a rejected word's is the error completion, a decoded word's is its command's. -/
theorem step_command_answer (b : Block) (p : Params) (c : Command) :
    ∃ a : Except Fault (Block × List Byte), ∀ (o : Operands) (rest : List HostEvent)
      (cs : List Completion),
      step ⟨b, o, p, .command c :: rest, cs⟩ = State.answer ⟨b, o, p, rest, cs⟩ a := by
  cases hd : decode c.cw with
  | error w =>
    exact ⟨_, fun o _ _ => (step_of_badWord rfl hd).trans (State.raise_eq_answer b _ o p _ _ _)⟩
  | ok i =>
    obtain ⟨a, ha⟩ := exec_answersAlone i b { a := c.a, b := c.b, pin := c.pin } p
    refine ⟨a, fun o rest cs => ?_⟩
    rw [step_of_decoded rfl hd]
    exact (ha rest cs).trans (by cases a <;> rfl)

/-- R7's function gives the block of the step's answer with its completion. -/
theorem Block.transact_of_ok {b b' : Block} {p : Params} {pout : List Byte}
    (h : step ⟨b, .absent, p, [.command c], []⟩ =
      State.answer ⟨b, .absent, p, [], []⟩ (.ok (b', pout))) :
    b.transact p c = .next (b', b'.completion pout) := by
  simp [Block.transact, h, State.answer, Block.completion]

/-- R7's function faults where the step's answer is a fault. -/
theorem Block.transact_of_fault {b : Block} {p : Params} {f : Fault}
    (h : step ⟨b, .absent, p, [.command c], []⟩ =
      State.answer ⟨b, .absent, p, [], []⟩ (.error f)) :
    b.transact p c = .fault f := by
  simp only [Block.transact, h, State.answer]

end Sys2Proof.Machine

open Sys2Proof Sys2Proof.Machine

/-- Settles O58: the step and R7's function share the one answer of `step_command_answer`. -/
theorem stepIsAFunctionOfBlockAndCommand : Obligations.StepIsAFunctionOfBlockAndCommand := by
  rintro ⟨b, o, p, _, cs⟩ c rest rfl
  obtain ⟨a, ha⟩ := step_command_answer b p c
  cases a with
  | error f =>
    rw [ha, Block.transact_of_fault (ha _ _ _)]
    simp [State.answer]
  | ok a =>
    obtain ⟨b', pout⟩ := a
    rw [ha, Block.transact_of_ok (ha _ _ _)]
    refine ⟨?_, ?_, fun f => by simp [State.answer]⟩
    · rintro _ _ ⟨⟩; rfl
    · rintro _ ⟨⟩; exact ⟨_, rfl, rfl, rfl⟩

/-- Settles O5: the step latches the transaction's operands and hands the command to `exec`. -/
theorem stepRunsTheDecodedCommand : Obligations.StepRunsTheDecodedCommand :=
  fun _ _ _ _ h hd => step_of_decoded h hd

/-- Settles O8, by the host's next event: reset keeps the parameters, and a command's answer does not
touch them. -/
theorem noStepChangesTheParameters : Obligations.NoStepChangesTheParameters := by
  rintro ⟨b, o, p, pending, cs⟩ t h
  match pending with
  | [] =>
    rw [step_of_idle rfl] at h
    cases h; rfl
  | .reset :: rest =>
    rw [step_of_reset rfl] at h
    cases h; rfl
  | .command c :: rest =>
    obtain ⟨a, ha⟩ := step_command_answer b p c
    rw [ha] at h
    cases a with
    | error f => cases h
    | ok a => cases h; rfl
end

section
/-! What every command can do, said once (spec/60_exceptions.md R304).  Each operation of the Writer, the
Reader and the pure unit meets a specification (`Meets`): it answers a value with a property, raises an
error status, or faults, the last only where the invariants fail.  From these, the one split over the
instructions (`exec_ends`) says how every command ends and what its effect on the state is
(`CommandEffect`); the statements on invariants, cursors and capacity are read off that effect.  What
STATUS and Q do not affect is a statement over two runs, and has a split of its own (`exec_endsAlike`). -/

namespace Sys2Proof.Machine

variable {α β : Type} {p : Params} {w w' : Writer} {r r' : Reader} {safe : Prop}

/-! ### Specifications of a rule's result -/

/-- The result is a value with the property `P`, an error status, or a fault that `safe` excludes. -/
inductive Meets (safe : Prop) (P : α → Prop) : Result α → Prop
  | ok {a : α} (h : P a) : Meets safe P (.ok a)
  | raise {e : Status} (h : e ≠ .ok) : Meets safe P (.error (.raise e))
  | fault {f : Fault} (h : ¬ safe) : Meets safe P (.error (.fault f))

theorem Meets.of_ok {P : α → Prop} {a : α} (h : Meets safe P (.ok a)) : P a := by
  cases h with
  | ok h => exact h

/-- An error passed on keeps what it meets. -/
theorem Meets.error {P : α → Prop} {Q : β → Prop} {e : Stop}
    (h : Meets safe P (.error e : Result α)) : Meets safe Q (.error e : Result β) := by
  cases h with
  | raise h => exact .raise h
  | fault h => exact .fault h

/-- A test before the rule raises an error status or leaves the result. -/
theorem Meets.unless {P : α → Prop} {c : Prop} [Decidable c] {e : Status} {x : Result α}
    (he : e ≠ .ok) (h : ¬ c → Meets safe P x) :
    Meets safe P (if c then .error (.raise e) else x) := by
  split_ifs with hc
  · exact .raise he
  · exact h hc

/-- A rule behind the test that lets it run, as in `Meets.unless`. -/
theorem Meets.provided {P : α → Prop} {c : Prop} [Decidable c] {e : Status} {x : Result α}
    (he : e ≠ .ok) (h : c → Meets safe P x) :
    Meets safe P (if c then x else .error (.raise e)) := by
  split_ifs with hc
  · exact h hc
  · exact .raise he

/-! ### The Writer's data commands -/

/-- What a Writer data command can do to the Writer (spec/10_state.md R31, R32, R35, R45): it keeps the
canonical form; and where the invariants hold it keeps them, the cursor does not move backward, and the
capacity grows only where the message no longer fits and the Writer may expand. -/
structure Writer.Moves (p : Params) (w w' : Writer) : Prop where
  canonical : w.mem.wf = true → w'.mem.wf = true
  inv : w.Inv p → w'.Inv p
  forward : w.Inv p → w.position ≤ w'.position
  expand : w.Inv p → w'.expand = w.expand
  capacity : w.Inv p → w.cap ≤ w'.cap
  growth : w.Inv p → w'.cap ≠ w.cap → w.expand = true ∧ w.cap < w'.len

theorem Writer.len_of_aligned (h : w.bitOffset = 0) : w.len = w.offset := by
  simp [Writer.len, h]

theorem Writer.position_of_aligned (h : w.bitOffset = 0) : w.position = 8 * w.offset := by
  simp [Writer.position, h]

/-- The aligned start is not before the cursor. -/
theorem Writer.position_le_start (hi : w.Inv p) : w.position ≤ 8 * w.start := by
  obtain ⟨hb, -⟩ := hi
  rw [Writer.start_eq, Writer.position]
  split_ifs <;> omega

theorem Writer.align_moves : w.Moves p w.align where
  canonical h := by unfold Writer.align; split_ifs <;> exact h
  inv hi := (Writer.align_inv hi).1
  forward hi := by
    obtain ⟨hb, -⟩ := hi
    unfold Writer.align
    split_ifs
    · exact le_rfl
    · simp only [Writer.position]; omega
  expand _ := by unfold Writer.align; split_ifs <;> rfl
  capacity _ := by unfold Writer.align; split_ifs <;> exact le_rfl
  growth _ hne := absurd (by unfold Writer.align; split_ifs <;> rfl) hne

/-- `Ensure` raises `NoSpace` or nothing. -/
theorem Writer.ensure_error {k : Nat} {e : Stop} (h : w.ensure p k = .error e) :
    e = .raise .noSpace := by
  by_cases hf : w.Fits p k
  · obtain ⟨c, hc⟩ := Writer.ensure_of_fits hf
    rw [hc] at h; cases h
  · rw [Writer.ensure_noSpace hf] at h
    exact (Except.error.inj h).symm

/-- `Ensure` changes the capacity alone. -/
theorem Writer.ensure_frame {k : Nat} (h : w.ensure p k = .ok w') :
    ∃ c, w' = { w with cap := c } := by
  by_cases hf : w.Fits p k
  · obtain ⟨c, hc⟩ := Writer.ensure_of_fits hf
    rw [hc] at h
    exact ⟨c, (Except.ok.inj h).symm⟩
  · rw [Writer.ensure_noSpace hf] at h; cases h

/-- The capacity `Ensure(k)` leaves is not lower, and another one only where `k` did not fit and the
Writer may expand. -/
theorem CapacityAfter.grows {k c : Nat} (h : CapacityAfter p w k c) (hf : w.Fits p k) :
    w.cap ≤ c ∧ (c ≠ w.cap → w.expand = true ∧ w.cap < k) := by
  obtain ⟨-, rfl⟩ | ⟨hk, -, -, hc, -⟩ := h
  · exact ⟨le_rfl, fun hne => absurd rfl hne⟩
  · obtain hk' | ⟨he, -⟩ := hf
    · omega
    · exact ⟨by omega, fun _ => ⟨he, hk⟩⟩

/-- The byte-level write keeps the canonical form, whatever the Writer was. -/
theorem Writer.byteWrite_canonical {bs : List Byte} (h : w.byteWrite p bs = .ok w')
    (hw : w.mem.wf = true) : w'.mem.wf = true := by
  unfold Writer.byteWrite at h
  split at h
  · cases h
  · rename_i w₁ he
    obtain ⟨c, rfl⟩ := Writer.ensure_frame he
    obtain rfl := Except.ok.inj h
    exact Memory.wf_writeBytes _ _ _ hw

theorem Writer.byteWrite_moves {bs : List Byte} (h : w.byteWrite p bs = .ok w') :
    w.Moves p w' where
  canonical := Writer.byteWrite_canonical h
  inv hi := (Writer.byteWrite_ok hi h).2.2.1
  forward hi := by
    obtain ⟨-, ⟨ho, hb, -⟩, -, -⟩ := Writer.byteWrite_ok hi h
    have := Writer.position_le_start hi
    rw [Writer.position_of_aligned hb, ho]; omega
  expand hi := by
    obtain ⟨-, ⟨-, -, he, -⟩, -, -⟩ := Writer.byteWrite_ok hi h
    exact he
  capacity hi := by
    obtain ⟨hf, ⟨-, -, -, hc, -⟩, -, -⟩ := Writer.byteWrite_ok hi h
    exact (hc.grows hf).1
  growth hi := by
    obtain ⟨hf, ⟨ho, hb, -, hc, -⟩, -, -⟩ := Writer.byteWrite_ok hi h
    rw [Writer.len_of_aligned hb, ho]
    exact (hc.grows hf).2

theorem Writer.byteWrite_meets (bs : List Byte) :
    Meets (w.Inv p) (w.Moves p) (w.byteWrite p bs) := by
  cases h : w.byteWrite p bs with
  | ok w' => exact .ok (Writer.byteWrite_moves h)
  | error e =>
    rw [Writer.byteWrite_error h]
    exact .raise (by decide)

theorem Writer.writeUnsigned_meets (k : Nat) (a : Word) :
    Meets (w.Inv p) (w.Moves p) (w.writeUnsigned p k a) :=
  .unless (by decide) fun _ => Writer.byteWrite_meets _

theorem Writer.writeSigned_meets (k : Nat) (a : Word) :
    Meets (w.Inv p) (w.Moves p) (w.writeSigned p k a) :=
  .provided (by decide) fun _ => Writer.byteWrite_meets _

theorem Writer.writeVarUnsigned_meets (a : Word) :
    Meets (w.Inv p) (w.Moves p) (w.writeVarUnsigned p a) :=
  .unless (by decide) fun _ => Writer.byteWrite_meets _

theorem Writer.writeVarSigned_meets (a : Word) :
    Meets (w.Inv p) (w.Moves p) (w.writeVarSigned p a) :=
  .provided (by decide) fun _ => Writer.byteWrite_meets _

theorem Writer.writeBuffer_meets (n : Nat) (a : Word) (pin : List Byte) :
    Meets (w.Inv p) (w.Moves p) (w.writeBuffer p n a pin) :=
  .unless (by decide) fun _ => .unless (by decide) fun _ => Writer.byteWrite_meets _

/-! ### `WBITS` -/

/-- The bit loop stores bytes one at a time, so it keeps the canonical form. -/
theorem Memory.putBits_canonical {m m' : Memory} {q v n : Nat} (h : m.putBits q v n = .ok m')
    (hm : m.wf = true) : m'.wf = true := by
  induction n generalizing m q with
  | zero => cases h; exact hm
  | succ n ih =>
    rw [Memory.putBits] at h
    split at h
    · cases h
    · rename_i m₁ h₁
      refine ih h ?_
      unfold Memory.putBit at h₁
      split at h₁
      · cases h₁
      · cases h₁; exact Memory.wf_write _ _ _ hm

/-- The bit loop faults or answers; it raises no status. -/
theorem Memory.putBits_error {m : Memory} {q v n : Nat} {e : Stop} (h : m.putBits q v n = .error e) :
    e = .fault .undefinedWriterByte := by
  induction n generalizing m q with
  | zero => cases h
  | succ n ih =>
    rw [Memory.putBits] at h
    split at h
    · rename_i e₁ h₁
      cases h
      unfold Memory.putBit at h₁
      split at h₁ <;> cases h₁
      rfl
    · exact ih h

/-- A Writer at stream bit position `q` with a clean memory and room for it keeps the invariants. -/
theorem CleanAt.inv {m : Memory} {q c : Nat} {x : Bool} (h : CleanAt m q) (hc : 1 ≤ c)
    (hM : c ≤ p.wCapMax) (hq : (q + 7) / 8 ≤ c) :
    Writer.Inv p { offset := q / 8, bitOffset := q % 8, cap := c, expand := x, mem := m } := by
  obtain ⟨hr, hz⟩ := h
  have hlen : q / 8 + (if q % 8 = 0 then 0 else 1) = (q + 7) / 8 := by split_ifs <;> omega
  refine ⟨by simp only; omega, hc, hM, ?_, ?_, hz⟩ <;> simp only [Writer.len, hlen]
  · exact hq
  · exact hr

/-- The capacity `WBITS` asks for: with no bit to write none, and what is written fits already. -/
theorem Writer.ensureBits_ok {n : Nat} {w₁ : Writer} (hi : w.Inv p)
    (h : (if n = 0 then .ok w else w.ensure p ((w.position + n + 7) / 8)) = .ok w₁) :
    ∃ c, w₁ = { w with cap := c } ∧ (w.position + n + 7) / 8 ≤ c ∧ c ≤ p.wCapMax ∧ w.cap ≤ c ∧
      (c ≠ w.cap → w.expand = true ∧ w.cap < (w.position + n + 7) / 8) := by
  split_ifs at h with hn
  · obtain rfl := Except.ok.inj h
    obtain ⟨hb, -, hM, hl, -, -⟩ := hi
    refine ⟨w.cap, rfl, ?_, hM, le_rfl, fun hne => absurd rfl hne⟩
    rw [Writer.len] at hl
    rw [Writer.position]
    split_ifs at hl <;> omega
  · obtain ⟨hf, c, rfl, hc, hk, hM, hle⟩ := Writer.ensure_ok hi h
    exact ⟨c, rfl, hk, hM, hle, (hc.grows hf).2⟩

/-- The room for the bits found and the bits stored, the Writer has moved as a data command may. -/
theorem Writer.putBits_moves {n v : Nat} {w₁ : Writer} {m : Memory}
    (h₁ : (if n = 0 then .ok w else w.ensure p ((w.position + n + 7) / 8)) = .ok w₁)
    (h₂ : w₁.mem.putBits w.position v n = .ok m) :
    w.Moves p { w₁ with
      mem := m, offset := (w.position + n) / 8, bitOffset := (w.position + n) % 8 } where
  canonical hw := by
    refine Memory.putBits_canonical h₂ ?_
    split_ifs at h₁
    · cases h₁; exact hw
    · obtain ⟨c, rfl⟩ := Writer.ensure_frame h₁
      exact hw
  inv hi := by
    obtain ⟨c, rfl, hk, hM, hc, -⟩ := Writer.ensureBits_ok hi h₁
    obtain ⟨m', hm', hclean, -⟩ := Memory.putBits_spec v n (Writer.cleanAt hi)
    obtain rfl := Except.ok.inj (h₂.symm.trans hm')
    exact hclean.inv (le_trans hi.2.1 hc) hM hk
  forward _ := by simp only [Writer.position]; omega
  expand hi := by obtain ⟨c, rfl, -⟩ := Writer.ensureBits_ok hi h₁; rfl
  capacity hi := by obtain ⟨c, rfl, -, -, hc, -⟩ := Writer.ensureBits_ok hi h₁; exact hc
  growth hi hne := by
    obtain ⟨c, rfl, -, -, -, hg⟩ := Writer.ensureBits_ok hi h₁
    obtain ⟨he, hlt⟩ := hg hne
    refine ⟨he, ?_⟩
    simp only [Writer.len]
    split_ifs <;> omega

theorem Writer.writeBits_meets (n v : Nat) :
    Meets (w.Inv p) (w.Moves p) (w.writeBits p n v) := by
  refine .unless (by decide) fun _ => .unless (by decide) fun _ => ?_
  split
  · rename_i e he
    split_ifs at he
    rw [Writer.ensure_error he]
    exact .raise (by decide)
  · rename_i w₁ h₁
    split
    · rename_i e he
      rw [Memory.putBits_error he]
      refine .fault fun hi => ?_
      obtain ⟨c, rfl, -⟩ := Writer.ensureBits_ok hi h₁
      obtain ⟨m, hm, -⟩ := Memory.putBits_spec v n (Writer.cleanAt hi)
      exact absurd (he.symm.trans hm) nofun
    · rename_i m h₂
      exact .ok (Writer.putBits_moves h₁ h₂)

/-! ### The Reader's data commands -/

/-- What a Reader data command can do to the Reader (spec/10_state.md R39, R40, R45): the buffer stays;
and where the invariants hold it keeps them, and the cursor does not move backward. -/
structure Reader.Moves (p : Params) (r r' : Reader) : Prop where
  mem : r'.mem = r.mem
  inv : r.Inv p → r'.Inv p
  forward : r.Inv p → r.position ≤ r'.position

/-- The aligned start is not before the cursor. -/
theorem Reader.position_le_start (hi : r.Inv p) : r.position ≤ 8 * r.start := by
  obtain ⟨hb, -⟩ := hi
  rw [Reader.start_eq, Reader.position]
  split_ifs <;> omega

/-- A jump to a byte boundary from the aligned start on. -/
theorem Reader.seekByte_moves {a : Nat} (h : r.Inv p → r.start ≤ a ∧ a ≤ r.len) :
    r.Moves p (r.seekByte a) where
  mem := rfl
  inv hi := Reader.seekByte_inv hi (h hi).2
  forward hi := by
    have hseek : (r.seekByte a).position = 8 * a := rfl
    have := Reader.position_le_start hi
    have := (h hi).1
    omega

theorem Reader.align_moves : r.Moves p r.align := by
  unfold Reader.align
  split_ifs with h
  · exact ⟨rfl, id, fun _ => le_rfl⟩
  · refine Reader.seekByte_moves fun hi => ?_
    obtain ⟨-, -, -, hpart, -⟩ := hi
    rw [Reader.start_eq, if_neg h]
    exact ⟨le_rfl, hpart h⟩

/-- Only in a Reader that breaks its invariants does a range inside its length miss a byte (R39). -/
theorem Reader.not_inv_of_readBytes_none {a k : Nat} (h : r.mem.readBytes a k = none)
    (hk : a + k ≤ r.len) : ¬ r.Inv p := by
  intro hi
  obtain ⟨bs, hbs, -⟩ := Reader.readBytes_ok hi hk
  rw [h] at hbs; cases hbs

theorem Reader.byteRead_meets (k : Nat) :
    Meets (r.Inv p) (fun x => r.Moves p x.2) (r.byteRead k) := by
  refine .unless (by decide) fun hk => ?_
  split
  · rename_i h
    exact .fault (Reader.not_inv_of_readBytes_none h (by omega))
  · exact .ok (Reader.seekByte_moves fun _ => by omega)

/-- A result with the Reader after it, handed on as a reading with the value `q` of it. -/
theorem Meets.reading {x : Result (α × Reader)} {y : Result Reading} (q : α → Word)
    (h : Meets safe (fun z => r.Moves p z.2) x)
    (hy : y = x.map fun z => { reader := z.2, q := q z.1, pout := [] }) :
    Meets safe (fun d => r.Moves p d.reader) y := by
  subst hy
  cases h with
  | ok h => exact .ok h
  | raise h => exact .raise h
  | fault h => exact .fault h

theorem Reader.readUnsigned_meets (k : Nat) :
    Meets (r.Inv p) (fun d => r.Moves p d.reader) (r.readUnsigned k) :=
  (r.byteRead_meets k).reading (fun bytes => BitVec.ofNat 64 (be bytes)) (by
    unfold Reader.readUnsigned; cases r.byteRead k <;> rfl)

theorem Reader.readSigned_meets (k : Nat) :
    Meets (r.Inv p) (fun d => r.Moves p d.reader) (r.readSigned k) :=
  (r.byteRead_meets k).reading (fun bytes => sext64 (be bytes) (8 * k)) (by
    unfold Reader.readSigned; cases r.byteRead k <;> rfl)

theorem Reader.readBits_meets (n : Nat) :
    Meets (r.Inv p) (fun d => r.Moves p d.reader) (r.readBits n) := by
  refine .unless (by decide) fun _ => .unless (by decide) fun hn => ?_
  split
  · rename_i h
    refine .fault fun hi => ?_
    obtain ⟨-, -, -, -, hr⟩ := hi
    rw [Memory.getBits_spec hr 0 n (by omega)] at h
    cases h
  · refine .ok ⟨rfl, fun hi => Reader.seekBit_inv hi (by omega), fun _ => ?_⟩
    simp only [Reader.position]; omega

/-- The length of a buffer is read from bytes inside the buffer; no status is raised. -/
theorem Reader.bufferLength_meets {n : Nat} (a : Word) (h : r.start + n ≤ r.len) :
    Meets (r.Inv p) (fun _ => True) (r.bufferLength n a) := by
  unfold Reader.bufferLength
  split_ifs
  · split
    · rename_i hx
      exact .fault (Reader.not_inv_of_readBytes_none hx h)
    · exact .ok trivial
  · exact .ok trivial

theorem Reader.readBuffer_meets (n : Nat) (a : Word) :
    Meets (r.Inv p) (fun d => r.Moves p d.reader) (r.readBuffer n a) := by
  refine .unless (by decide) fun _ => .unless (by decide) fun hn => ?_
  have h := r.bufferLength_meets (p := p) a (Nat.le_of_not_lt hn)
  split
  · rename_i hx
    rw [hx] at h
    exact h.error
  · refine .unless (by decide) fun hlen => ?_
    split
    · rename_i hx
      exact .fault (Reader.not_inv_of_readBytes_none hx (by omega))
    · exact .ok (Reader.seekByte_moves fun _ => by omega)

/-- The varint decoder consumes no more bytes than it has, and faults only at an undefined one. -/
theorem unleb_meets (m : Memory) (a k : Nat) :
    Meets (∀ j < k, (m.read (a + j)).isSome) (fun x => x.2 ≤ k) (unleb m a k) := by
  induction k generalizing a with
  | zero => exact .raise (by decide)
  | succ k ih =>
    rw [unleb]
    split
    · rename_i hb
      exact .fault fun hs => by simpa [hb] using hs 0 (by omega)
    · split_ifs
      · exact .ok (by simp)
      · have h := ih (a + 1)
        split <;> rename_i hx <;> rw [hx] at h
        · cases h with
          | raise he => exact .raise he
          | fault hn =>
            refine .fault fun hs => hn fun j hj => ?_
            have := hs (j + 1) (by omega)
            rwa [show a + 1 + j = a + (j + 1) by omega]
        · exact .ok (Nat.succ_le_succ h.of_ok)

theorem Reader.readVarint_meets :
    Meets (r.Inv p) (fun x => r.Moves p x.2) (r.readVarint p) := by
  have h := unleb_meets r.mem r.start (r.len - r.start)
  unfold Reader.readVarint
  split <;> rename_i hx <;> rw [hx] at h
  · cases h with
    | raise he => exact .raise he
    | fault hn =>
      refine .fault fun hi => hn fun j hj => ?_
      obtain ⟨-, -, -, -, hr⟩ := hi
      exact (Memory.isSome_of_range hr _).2 (by omega)
  · refine .unless (by decide) fun _ => .ok (Reader.seekByte_moves fun hi => ?_)
    have hk := h.of_ok
    have := Reader.start_le hi
    simp only at hk
    omega

theorem Reader.readVarUnsigned_meets :
    Meets (r.Inv p) (fun d => r.Moves p d.reader) (r.readVarUnsigned p) :=
  r.readVarint_meets.reading (BitVec.ofNat 64) (by
    unfold Reader.readVarUnsigned; cases r.readVarint p <;> rfl)

theorem Reader.readVarSigned_meets :
    Meets (r.Inv p) (fun d => r.Moves p d.reader) (r.readVarSigned p) :=
  r.readVarint_meets.reading (unzzWord p.varw) (by
    unfold Reader.readVarSigned; cases r.readVarint p <;> rfl)

/-! ### A new Writer -/

theorem Params.wellFormed_iff : p.wellFormed = true ↔
    (1 ≤ p.varw ∧ p.varw ≤ 64) ∧ (1 ≤ p.wCapMax ∧ p.wCapMax ≤ 2 ^ 32 - 1) ∧
    (1 ≤ p.wCapInit ∧ p.wCapInit ≤ p.wCapMax) ∧ p.rCapMax ≤ 2 ^ 32 - 1 := by
  simp only [Params.wellFormed, Bool.and_eq_true, decide_eq_true_eq, and_assoc]

/-- An empty Writer of a legal capacity keeps the invariants. -/
theorem Writer.empty_inv {c : Nat} {x : Bool} (hc : 1 ≤ c) (hM : c ≤ p.wCapMax) :
    Writer.Inv p { offset := 0, bitOffset := 0, cap := c, expand := x, mem := [] } :=
  ⟨Nat.zero_le _, hc, hM, Nat.zero_le _, rfl, fun hx => absurd rfl hx⟩

/-- The capacity after reset is legal (R8). -/
theorem Params.legal_wCapInit (h : p.wellFormed = true) : 1 ≤ p.wCapInit ∧ p.wCapInit ≤ p.wCapMax := by
  obtain ⟨-, -, hinit, -⟩ := Params.wellFormed_iff.1 h
  exact hinit

/-- `WINIT` makes an empty Writer of a legal capacity (R280). -/
theorem Writer.init_meets (n : Nat) (a : Word) :
    Meets safe (fun w => w.mem = [] ∧ (p.wellFormed = true → w.Inv p)) (Writer.init p n a) := by
  refine .unless (by decide) fun _ => .unless (by decide) fun hcap =>
    .ok ⟨rfl, fun hp => Writer.empty_inv ?_ (Nat.le_of_not_lt hcap)⟩
  split_ifs with ha
  · exact (Params.legal_wCapInit hp).1
  · exact Nat.one_le_iff_ne_zero.2 ha

/-! ### The commands without an effect on the units -/

theorem zigzagValue_meets (a : Word) : Meets safe (fun _ => True) (zigzagValue p a) :=
  .provided (by decide) fun _ => .ok trivial

theorem unzigzagValue_meets (a : Word) : Meets safe (fun _ => True) (unzigzagValue p a) :=
  .unless (by decide) fun _ => .ok trivial

theorem toPrecision_meets (n : Nat) (a b : Word) :
    Meets safe (fun _ => True) (toPrecision n a b) := by
  refine .unless (by decide) fun _ => ?_
  split
  · exact .raise (by decide)
  · split
    · exact .raise (by decide)
    · exact .ok trivial

theorem fromPrecision_meets (n : Nat) (a b : Word) :
    Meets safe (fun _ => True) (fromPrecision n a b) := by
  refine .unless (by decide) fun _ => ?_
  split
  · exact .raise (by decide)
  · exact .unless (by decide) fun _ => .ok trivial

theorem State.readCsr_meets (s : State) (n : Nat) : Meets safe (fun _ => True) (s.readCsr n) := by
  unfold State.readCsr
  split
  · exact .raise (by decide)
  · exact .ok trivial

/-! ### How every command ends -/

/-- The effect of a completed command on the state, before its completion. -/
inductive CommandEffect (i : Instr) (s : State) : State → Prop
  | unchanged : CommandEffect i s s
  | write {w : Writer} (hi : (mirrorOf i).isSome = true) (hw : s.w.Moves s.params w) :
      CommandEffect i s { s with w := w }
  | read {r : Reader} (hr : s.r.Moves s.params r) : CommandEffect i s { s with r := r }
  | init {n : Count} {w : Writer} (hi : i = .winit n) (hmem : w.mem = [])
      (hinv : s.params.wellFormed = true → w.Inv s.params) : CommandEffect i s { s with w := w }
  | handoff {bytes : List Byte} (hi : i = .handoff) (hcap : s.w.len ≤ s.params.rCapMax)
      (hview : s.w.view = .ok bytes) :
      CommandEffect i s { s with r := Reader.load bytes, w := s.w.restart }
  | load (hi : i = .rload) (hcap : s.op.pin.length ≤ s.params.rCapMax) :
      CommandEffect i s { s with r := Reader.load s.op.pin }
  | clear (hi : i = .clrerr) : CommandEffect i s { s with status := s.status.clearSeen }

/-- How a command ends: it completes with its effect, it raises an error status, or it faults, which no
state that keeps the invariants does. -/
inductive CommandEnds (i : Instr) (s : State) : Host.Outcome State Fault Refusal → Prop
  | completes {s' : State} {q : Word} {pout : List Byte} (h : CommandEffect i s s') :
      CommandEnds i s (.next (s'.complete q pout))
  | raises {e : Status} (h : e ≠ .ok) : CommandEnds i s (.next (s.raise e))
  | faults {f : Fault} (h : ¬ s.Inv) : CommandEnds i s (.fault f)

variable {i : Instr} {s t : State} {framed : Bool}

/-- A command ends as its rule's result does; the rule runs behind the framing test. -/
theorem CommandEnds.perform {x : Result Effect}
    (h : framed = true → Meets s.Inv (fun e => CommandEffect i s e.state) x) :
    CommandEnds i s (s.perform framed x) := by
  cases framed with
  | false => exact .raises (by decide)
  | true =>
    have hx := h rfl
    cases hx with
    | ok he => exact .completes he
    | raise he => exact .raises he
    | fault hs => exact .faults hs

theorem CommandEnds.writing {P : Writer → Prop} {x : Result Writer}
    (he : ∀ w, P w → CommandEffect i s { s with w := w }) (h : Meets (s.w.Inv s.params) P x) :
    CommandEnds i s (s.perform framed (s.writing x)) :=
  .perform fun _ => by
    cases h with
    | ok h => exact .ok (he _ h)
    | raise h => exact .raise h
    | fault h => exact .fault fun hs => h hs.2.1

/-- A Writer data command. -/
theorem CommandEnds.moving {x : Result Writer} (hi : (mirrorOf i).isSome = true)
    (h : Meets (s.w.Inv s.params) (s.w.Moves s.params) x) :
    CommandEnds i s (s.perform framed (s.writing x)) :=
  .writing (fun _ => .write hi) h

theorem CommandEnds.reading {x : Result Reading} {peek : Bool}
    (h : Meets (s.r.Inv s.params) (fun d => s.r.Moves s.params d.reader) x) :
    CommandEnds i s (s.perform framed (s.reading peek x)) :=
  .perform fun _ => by
    cases h with
    | ok h =>
      cases peek with
      | true => exact .ok .unchanged
      | false => exact .ok (.read h)
    | raise h => exact .raise h
    | fault h => exact .fault fun hs => h hs.2.2

theorem CommandEnds.computing {x : Result Word} (h : Meets s.Inv (fun _ => True) x) :
    CommandEnds i s (s.perform framed (s.computing x)) :=
  .perform fun _ => by
    cases h with
    | ok h => exact .ok .unchanged
    | raise h => exact .raise h
    | fault h => exact .fault h

/-- The view of the Writer faults only where a written byte is not defined. -/
theorem Writer.view_error {e : Stop} (h : w.view = .error e) :
    e = .fault .undefinedWriterByte ∧ ¬ w.Inv p := by
  refine ⟨?_, fun hi => ?_⟩
  · unfold Writer.view defined at h
    split at h <;> cases h
    rfl
  · obtain ⟨bs, hbs, -⟩ := Writer.view_ok hi
    rw [h] at hbs; cases hbs

theorem CommandEnds.view : CommandEnds .wview s (exec .wview s) := by
  refine .perform fun _ => ?_
  unfold State.viewRule
  split
  · rename_i h
    obtain ⟨rfl, hn⟩ := Writer.view_error (p := s.params) h
    exact .fault fun hs => hn hs.2.1
  · exact .ok .unchanged

theorem CommandEnds.handoff : CommandEnds .handoff s (exec .handoff s) := by
  refine .perform fun _ => .unless (by decide) fun hcap => ?_
  split
  · rename_i h
    obtain ⟨rfl, hn⟩ := Writer.view_error (p := s.params) h
    exact .fault fun hs => hn hs.2.1
  · rename_i h
    exact .ok (.handoff rfl (Nat.le_of_not_lt hcap) h)

theorem CommandEnds.load : CommandEnds .rload s (exec .rload s) := by
  refine .perform fun hf => .unless (by decide) fun hcap => .ok (.load rfl ?_)
  rw [(Operands.payloadOfLengthA_iff _).1 hf]
  exact Nat.le_of_not_lt hcap

/-- Every command ends in one of the ways of `CommandEnds`. -/
theorem exec_ends (i : Instr) (s : State) : CommandEnds i s (exec i s) := by
  cases i with
  | winit n =>
    exact .writing (fun w ⟨hmem, hinv⟩ => .init rfl hmem hinv) (Writer.init_meets _ _)
  | wview => exact .view
  | handoff => exact .handoff
  | rload => exact .load
  | clrerr => exact .perform fun _ => .ok (.clear rfl)
  | walign => exact .moving rfl (.ok Writer.align_moves)
  | wbits => exact .moving rfl (Writer.writeBits_meets _ _)
  | wvaru => exact .moving rfl (Writer.writeVarUnsigned_meets _)
  | wvars => exact .moving rfl (Writer.writeVarSigned_meets _)
  | wbuf => exact .moving rfl (Writer.writeBuffer_meets _ _ _)
  | wu8 | wu16 | wu32 | wu64 | wf16 | wf32 | wf64 =>
    exact .moving rfl (Writer.writeUnsigned_meets _ _)
  | wi8 | wi16 | wi32 | wi64 => exact .moving rfl (Writer.writeSigned_meets _ _)
  | ralign => exact .reading (.ok Reader.align_moves)
  | rbits | pbits => exact .reading (Reader.readBits_meets _)
  | rvaru | pvaru => exact .reading Reader.readVarUnsigned_meets
  | rvars | pvars => exact .reading Reader.readVarSigned_meets
  | rbuf | pbuf => exact .reading (Reader.readBuffer_meets _ _)
  | ru8 | ru16 | ru32 | ru64 | rf16 | rf32 | rf64
  | pu8 | pu16 | pu32 | pu64 | pf16 | pf32 | pf64 =>
    exact .reading (Reader.readUnsigned_meets _)
  | ri8 | ri16 | ri32 | ri64 | pi8 | pi16 | pi32 | pi64 =>
    exact .reading (Reader.readSigned_meets _)
  | rdcsr => exact .computing (State.readCsr_meets _ _)
  | toprec => exact .computing (toPrecision_meets _ _ _)
  | fromprec => exact .computing (fromPrecision_meets _ _ _)
  | zigzag => exact .computing (zigzagValue_meets _)
  | unzigzag => exact .computing (unzigzagValue_meets _)

/-- The inversion of `exec`: a next state is a completed effect or a raised error. -/
theorem exec_next (h : exec i s = .next t) :
    (∃ s' q pout, CommandEffect i s s' ∧ t = s'.complete q pout) ∨
    (∃ e, e ≠ .ok ∧ t = s.raise e) := by
  have hends := exec_ends i s
  rw [h] at hends
  cases hends with
  | completes he => exact .inl ⟨_, _, _, he, rfl⟩
  | raises he => exact .inr ⟨_, he, rfl⟩

/-- No command faults in a state that keeps the invariants (R312). -/
theorem exec_ne_fault (hi : s.Inv) {f : Fault} : exec i s ≠ .fault f := by
  intro h
  have hends := exec_ends i s
  rw [h] at hends
  cases hends with
  | faults hn => exact hn hi

/-! ### What every effect keeps -/

/-- Every effect keeps the invariants R35 and R40. -/
theorem CommandEffect.inv {s' : State} (h : CommandEffect i s s') (hs : s.Inv) : s'.Inv := by
  obtain ⟨hp, hw, hr⟩ := hs
  cases h with
  | unchanged => exact ⟨hp, hw, hr⟩
  | write _ hm => exact ⟨hp, hm.inv hw, hr⟩
  | read hm => exact ⟨hp, hw, hm.inv hr⟩
  | init _ _ hinv => exact ⟨hp, hinv hp, hr⟩
  | handoff _ hcap hview =>
    obtain ⟨bs, hbs, hlen, -⟩ := Writer.view_ok hw
    obtain rfl := Except.ok.inj (hview.symm.trans hbs)
    exact ⟨hp, Writer.restart_inv hw, Reader.load_inv (hlen ▸ hcap)⟩
  | load _ hcap => exact ⟨hp, hw, Reader.load_inv hcap⟩
  | clear => exact ⟨hp, hw, hr⟩

/-- Every effect keeps the canonical form of both memories, in every state (log 6). -/
theorem CommandEffect.canonical {s' : State} (h : CommandEffect i s s') (hw : s.w.mem.wf = true)
    (hr : s.r.mem.wf = true) : s'.w.mem.wf = true ∧ s'.r.mem.wf = true := by
  cases h with
  | unchanged | clear => exact ⟨hw, hr⟩
  | write _ hm => exact ⟨hm.canonical hw, hr⟩
  | read hm => exact ⟨hw, hm.mem ▸ hr⟩
  | init _ hmem => exact ⟨hmem ▸ rfl, hr⟩
  | handoff => exact ⟨rfl, Memory.wf_ofBytes _⟩
  | load => exact ⟨hw, Memory.wf_ofBytes _⟩

/-- Every effect but those of `WINIT`, `RLOAD` and `HANDOFF` leaves both cursors where they were or moves
them on (R45). -/
theorem CommandEffect.forward {s' : State} (h : CommandEffect i s s') (hs : s.Inv) :
    ((∀ n, i ≠ .winit n) → i ≠ .handoff → s.w.position ≤ s'.w.position) ∧
    (i ≠ .rload → i ≠ .handoff → s.r.position ≤ s'.r.position) := by
  obtain ⟨-, hw, hr⟩ := hs
  cases h with
  | unchanged | clear => exact ⟨fun _ _ => le_rfl, fun _ _ => le_rfl⟩
  | write _ hm => exact ⟨fun _ _ => hm.forward hw, fun _ _ => le_rfl⟩
  | read hm => exact ⟨fun _ _ => le_rfl, fun _ _ => hm.forward hr⟩
  | init hi => exact ⟨fun hne => absurd hi (hne _), fun _ _ => le_rfl⟩
  | handoff hi => exact ⟨fun _ hne => absurd hi hne, fun _ hne => absurd hi hne⟩
  | load hi => exact ⟨fun _ _ => le_rfl, fun hne => absurd hi hne⟩

/-- The Writer's flag and capacity after every effect but `WINIT`'s (R31, R32, R131). -/
theorem CommandEffect.capacity {s' : State} (h : CommandEffect i s s') (hs : s.Inv)
    (hne : ∀ n, i ≠ .winit n) :
    s'.w.expand = s.w.expand ∧ s.w.cap ≤ s'.w.cap ∧
    (s'.w.cap ≠ s.w.cap → (mirrorOf i).isSome = true ∧ s.w.expand = true ∧ s.w.cap < s'.w.len) := by
  obtain ⟨-, hw, -⟩ := hs
  cases h with
  | unchanged | clear | read | load | handoff => exact ⟨rfl, le_rfl, fun hc => absurd rfl hc⟩
  | write hi hm => exact ⟨hm.expand hw, hm.capacity hw, fun hc => ⟨hi, hm.growth hw hc⟩⟩
  | init hi => exact absurd hi (hne _)

/-- No effect but that of `CLRERR` changes STATUS (R26). -/
theorem CommandEffect.status {s' : State} (h : CommandEffect i s s') (hne : i ≠ .clrerr) :
    s'.status = s.status := by
  cases h with
  | clear hi => exact absurd hi hne
  | unchanged | write | read | init | handoff | load => rfl

/-- A `CLRERR` that completes leaves SEEN cleared (R288). -/
theorem clrerr_seen (h : exec .clrerr s = .next t) (hlast : t.status.last = .ok) :
    t.status.seen = false := by
  obtain ⟨-, e, he, rfl⟩ | ⟨-, st, he, -⟩ | ⟨-, rfl⟩ := State.perform_next h
  · cases he; rfl
  · cases he
  · cases hlast

/-- No effect changes the parameters (log 1). -/
theorem CommandEffect.params {s' : State} (h : CommandEffect i s s') : s'.params = s.params := by
  cases h <;> rfl

/-! ### What a step can do -/

/-- The reset state keeps the invariants (R44). -/
theorem State.resetWith_inv (h : p.wellFormed = true) : (State.resetWith p).Inv := by
  obtain ⟨hc, hM⟩ := Params.legal_wCapInit h
  exact ⟨h, Writer.empty_inv hc hM,
    Nat.zero_le _, Nat.zero_le _, Nat.zero_le _, fun hx => absurd rfl hx, rfl⟩

/-- The inversion of `step`: it is idle, it resets, it rejects a word, or it runs a command. -/
theorem step_next (h : step s = .next t) :
    t = s ∨ (∃ rest, t = State.hostReset { s with pending := rest }) ∨
    ∃ (c : Command) (rest : List HostEvent),
      t = (State.latch { s with pending := rest } c).raise .illegalCommand ∨
      ∃ i, exec i (State.latch { s with pending := rest } c) = .next t := by
  match hp : s.pending with
  | [] =>
    rw [step_of_idle hp] at h
    exact .inl (Host.Outcome.next.inj h).symm
  | .reset :: rest =>
    rw [step_of_reset hp] at h
    exact .inr (.inl ⟨rest, (Host.Outcome.next.inj h).symm⟩)
  | .command c :: rest =>
    refine .inr (.inr ⟨c, rest, ?_⟩)
    cases hd : decode c.cw with
    | error w =>
      rw [step_of_badWord hp hd] at h
      exact .inl (Host.Outcome.next.inj h).symm
    | ok i =>
      rw [step_of_decoded hp hd] at h
      exact .inr ⟨i, h⟩

/-- A step of a state that keeps the invariants does not fault (R312). -/
theorem step_ne_fault (hs : s.Inv) {f : Fault} : step s ≠ .fault f := by
  intro h
  match hp : s.pending with
  | [] => rw [step_of_idle hp] at h; cases h
  | .reset :: rest => rw [step_of_reset hp] at h; cases h
  | .command c :: rest =>
    cases hd : decode c.cw with
    | error w => rw [step_of_badWord hp hd] at h; cases h
    | ok i =>
      rw [step_of_decoded hp hd] at h
      exact exec_ne_fault (s := State.latch { s with pending := rest } c) hs h

/-! ### What STATUS and Q do not affect -/

/-- A value that does not depend on STATUS and Q. -/
def StatusFree (f : State → α) : Prop :=
  ∀ (s : State) (x : StatusReg) (y : Word), f { s with status := x, q := y } = f s

/-- The two results are the same error, or the same effect but for STATUS and Q. -/
inductive SameButStatus : Result Effect → Result Effect → Prop
  | error {e : Stop} : SameButStatus (.error e) (.error e)
  | ok {s : State} {x : StatusReg} {y q : Word} {pout : List Byte} :
      SameButStatus (.ok { state := s, q := q, pout := pout })
        (.ok { state := { s with status := x, q := y }, q := q, pout := pout })

/-- A rule whose result STATUS and Q do not affect. -/
def StatusBlind (rule : State → Result Effect) : Prop :=
  ∀ (s : State) (x : StatusReg) (y : Word),
    SameButStatus (rule s) (rule { s with status := x, q := y })

theorem StatusBlind.writing {f : State → Result Writer} (hf : StatusFree f) :
    StatusBlind fun s => s.writing (f s) := by
  intro s x y
  simp only [hf s x y]
  cases f s with
  | ok w => exact .ok
  | error e => exact .error

theorem StatusBlind.reading {f : State → Result Reading} (peek : Bool) (hf : StatusFree f) :
    StatusBlind fun s => s.reading peek (f s) := by
  intro s x y
  simp only [hf s x y]
  cases f s with
  | ok d => cases peek <;> exact .ok
  | error e => exact .error

theorem StatusBlind.computing {f : State → Result Word} (hf : StatusFree f) :
    StatusBlind fun s => s.computing (f s) := by
  intro s x y
  simp only [hf s x y]
  cases f s with
  | ok q => exact .ok
  | error e => exact .error

theorem StatusBlind.viewRule : StatusBlind State.viewRule := by
  intro s x y
  simp only [State.viewRule]
  cases s.w.view with
  | ok bytes => exact .ok
  | error e => exact .error

theorem StatusBlind.handoffRule : StatusBlind State.handoffRule := by
  intro s x y
  simp only [State.handoffRule]
  split_ifs
  · exact .error
  · cases s.w.view with
    | ok bytes => exact .ok
    | error e => exact .error

theorem StatusBlind.loadRule : StatusBlind State.loadRule := by
  intro s x y
  simp only [State.loadRule]
  split_ifs
  · exact .error
  · exact .ok

/-- Every register but register 0 is read without STATUS and Q (R28). -/
theorem State.readCsr_statusFree {n : Nat} (hn : n ≠ 0) : StatusFree fun s => s.readCsr n := by
  intro s x y
  have hcsr : State.csr { s with status := x, q := y } n = s.csr n := by
    match n with
    | 0 => exact absurd rfl hn
    | 1 | 2 | 3 | 4 | 5 | 6 | 7 | 8 | 9 | _ + 10 => rfl
  simp only [State.readCsr, hcsr]

/-- From `s` and from the same state with another STATUS and Q, the command does the same to the Writer
and the Reader and ends with the same status, result and completion. -/
def EndsAlike (f : State → Host.Outcome State Fault Refusal) : Prop :=
  ∀ (s t : State) (x : StatusReg) (y : Word), f s = .next t →
    ∃ u, f { s with status := x, q := y } = .next u ∧ u.w = t.w ∧ u.r = t.r ∧
      u.status.last = t.status.last ∧ u.q = t.q ∧ u.completions = t.completions

theorem EndsAlike.perform {framed : State → Bool} {rule : State → Result Effect}
    (hf : StatusFree framed) (hr : StatusBlind rule) :
    EndsAlike fun s => s.perform (framed s) (rule s) := by
  intro s t x y h
  have hsame := hr s x y
  simp only [hf s x y]
  obtain ⟨hfr, e, he, rfl⟩ | ⟨hfr, st, he, rfl⟩ | ⟨hfr, rfl⟩ := State.perform_next h
  · generalize rule { s with status := x, q := y } = a at hsame ⊢
    rw [he] at hsame
    cases hsame with
    | ok => exact ⟨_, State.perform_ok hfr rfl, rfl, rfl, rfl, rfl, rfl⟩
  · generalize rule { s with status := x, q := y } = a at hsame ⊢
    rw [he] at hsame
    cases hsame with
    | error => exact ⟨_, State.perform_raise hfr rfl, rfl, rfl, rfl, rfl, rfl⟩
  · exact ⟨_, State.perform_illegal _ hfr, rfl, rfl, rfl, rfl, rfl⟩

/-- Every command but `RDCSR 0` ends alike, whatever STATUS and Q hold (R26). -/
theorem exec_endsAlike (hne : i ≠ .rdcsr 0) : EndsAlike (exec i) := by
  cases i with
  | winit | walign | wbits | wvaru | wvars | wbuf
  | wu8 | wu16 | wu32 | wu64 | wi8 | wi16 | wi32 | wi64 | wf16 | wf32 | wf64 =>
    exact .perform (fun _ _ _ => rfl) (.writing fun _ _ _ => rfl)
  | ralign | rbits | rvaru | rvars | rbuf
  | ru8 | ru16 | ru32 | ru64 | ri8 | ri16 | ri32 | ri64 | rf16 | rf32 | rf64
  | pbits | pvaru | pvars | pbuf
  | pu8 | pu16 | pu32 | pu64 | pi8 | pi16 | pi32 | pi64 | pf16 | pf32 | pf64 =>
    exact .perform (fun _ _ _ => rfl) (.reading _ fun _ _ _ => rfl)
  | toprec | fromprec | zigzag | unzigzag =>
    exact .perform (fun _ _ _ => rfl) (.computing fun _ _ _ => rfl)
  | rdcsr n =>
    have hn : n.toNat ≠ 0 := fun h0 => hne (by rw [BitVec.eq_of_toNat_eq (y := 0#8) h0]; rfl)
    exact .perform (fun _ _ _ => rfl) (.computing (State.readCsr_statusFree hn))
  | clrerr => exact .perform (fun _ _ _ => rfl) fun _ _ _ => .ok
  | wview => exact .perform (fun _ _ _ => rfl) .viewRule
  | handoff => exact .perform (fun _ _ _ => rfl) .handoffRule
  | rload => exact .perform (fun _ _ _ => rfl) .loadRule

/-- `RDCSR 0` answers from every state with good framing, and leaves both units alone. -/
theorem rdcsr_zero_endsAlike (h : exec (.rdcsr 0) s = .next t) (x : StatusReg) (y : Word) :
    ∃ u, exec (.rdcsr 0) { s with status := x, q := y } = .next u ∧ u.w = t.w ∧ u.r = t.r ∧
      u.status.last = t.status.last := by
  obtain ⟨hf, e, he, rfl⟩ | ⟨-, st, he, -⟩ | ⟨hf, rfl⟩ := State.perform_next h
  · cases he
    exact ⟨_, State.perform_ok hf rfl, rfl, rfl, rfl⟩
  · cases he
  · exact ⟨_, State.perform_illegal _ hf, rfl, rfl, rfl⟩

end Sys2Proof.Machine

open Sys2Proof Sys2Proof.Machine

/-- Settles O16: the invariants are those of the block, which a reset and every command's effect keep. -/
theorem everyStepKeepsTheInvariants : Obligations.EveryStepKeepsTheInvariants := by
  refine ⟨fun _ => State.resetWith_inv, fun s t hs h => ?_⟩
  obtain rfl | ⟨rest, rfl⟩ | ⟨c, rest, rfl | ⟨i, hi⟩⟩ := step_next h
  · exact hs
  · exact State.resetWith_inv hs.1
  · exact hs
  · obtain ⟨s', q, pout, he, rfl⟩ | ⟨e, -, rfl⟩ := exec_next hi
    · exact he.inv hs
    · exact hs

/-- Settles O10: no command faults under the invariants, and every other answer of a pending command is
the block after it with its completion. -/
theorem everyCommandGivesOneCompletion : Obligations.EveryCommandGivesOneCompletion := by
  rintro ⟨b, o, p, _, cs⟩ c rest hs rfl
  obtain ⟨a, ha⟩ := step_command_answer b p c
  cases a with
  | ok a =>
    obtain ⟨b', pout⟩ := a
    exact ⟨_, b'.completion pout, ha o rest cs, rfl, rfl, rfl, rfl, rfl⟩
  | error f => exact absurd (ha o rest cs) (step_ne_fault hs)

/-- Settles O11, by how the command ends. -/
theorem seenIsStickyUntilCleared : Obligations.SeenIsStickyUntilCleared := by
  intro i s t h
  obtain ⟨s', q, pout, he, rfl⟩ | ⟨e, hne, rfl⟩ := exec_next h
  · refine ⟨fun hlast => absurd rfl hlast, ?_, fun _ hi => ?_⟩
    · rintro hlast rfl
      exact clrerr_seen h hlast
    · simp [he.status hi]
  · exact ⟨fun _ => rfl, fun hlast => absurd hlast hne, fun hlast => absurd hlast hne⟩

/-- Settles O13: `RDCSR 0` differs in its value alone, every other command in nothing. -/
theorem statusAndResultDoNotAffectCommands : Obligations.StatusAndResultDoNotAffectCommands := by
  intro i s t x y h
  by_cases hi : i = .rdcsr 0
  · subst hi
    obtain ⟨u, hu, hw, hr, hlast⟩ := rdcsr_zero_endsAlike h x y
    exact ⟨u, hu, hw, hr, hlast, fun hne => absurd rfl hne⟩
  · obtain ⟨u, hu, hw, hr, hlast, hend⟩ := exec_endsAlike hi s t x y h
    exact ⟨u, hu, hw, hr, hlast, fun _ => hend⟩

/-- Settles O17: every effect writes the memories byte by byte or makes new ones. -/
theorem everyStepKeepsTheMemoriesCanonical : Obligations.EveryStepKeepsTheMemoriesCanonical := by
  intro s t hw hr h
  obtain rfl | ⟨rest, rfl⟩ | ⟨c, rest, rfl | ⟨i, hi⟩⟩ := step_next h
  · exact ⟨hw, hr⟩
  · exact ⟨rfl, rfl⟩
  · exact ⟨hw, hr⟩
  · obtain ⟨s', q, pout, he, rfl⟩ | ⟨e, -, rfl⟩ := exec_next hi
    · exact he.canonical hw hr
    · exact ⟨hw, hr⟩

/-- Settles O19: an error leaves the cursors, and a completed command's effect moves them forward. -/
theorem cursorsNeverMoveBackward : Obligations.CursorsNeverMoveBackward := by
  intro i s t hs h
  obtain ⟨s', q, pout, he, rfl⟩ | ⟨e, -, rfl⟩ := exec_next h
  · exact he.forward hs
  · exact ⟨fun _ _ => le_rfl, fun _ _ => le_rfl⟩

/-- Settles O21: an error leaves the Writer, and the capacity after a completed command is bounded by the
invariants it keeps. -/
theorem capacityAndExpandChangeOnlyAsSaid : Obligations.CapacityAndExpandChangeOnlyAsSaid := by
  intro i s t hs h hne
  obtain ⟨s', q, pout, he, rfl⟩ | ⟨e, -, rfl⟩ := exec_next h
  · obtain ⟨hexpand, hcap, hgrowth⟩ := he.capacity hs hne
    obtain ⟨-, ⟨-, -, hM, -⟩, -⟩ := he.inv hs
    exact ⟨hexpand, hcap, he.params ▸ hM, hgrowth⟩
  · obtain ⟨-, ⟨-, -, hM, -⟩, -⟩ := hs
    exact ⟨rfl, le_rfl, hM, fun hc => absurd rfl hc⟩

/-- Settles O6, by the step of a reset event. -/
theorem resetEventGivesTheResetState : Obligations.ResetEventGivesTheResetState :=
  fun _ _ h => ⟨_, step_of_reset h, rfl, rfl, rfl, rfl⟩

/-- Settles O15: the default parameters are among the legal ones. -/
theorem resetStateKeepsTheInvariants : Obligations.ResetStateKeepsTheInvariants :=
  ⟨State.resetWith_inv (by decide), fun _ => State.resetWith_inv⟩

end

section
/-! Bit fields at a byte boundary (spec/20_memory.md R64, R67): a field is cut in two at any bit
(`bitField_add`), eight bits from a byte boundary are the byte (`bitField_byte`), so the bits of whole bytes
are their big-endian value (`bitField_bytes`), and a shorter field is what stands in front of the bits left
over. -/

namespace Sys2Proof.Machine

variable {s : State}

/-- A field is its first bits, followed by the rest of it. -/
theorem bitField_add (m : Memory) (p n j : Nat) :
    bitField m p (n + j) = bitField m p n * 2 ^ j + bitField m (p + n) j := by
  unfold bitField
  rw [Finset.sum_range_add, Finset.sum_mul]
  congr 1
  · refine Finset.sum_congr rfl fun i hi => ?_
    have hi := Finset.mem_range.1 hi
    rw [mul_assoc, ← pow_add]
    congr 2
    omega
  · refine Finset.sum_congr rfl fun i hi => ?_
    rw [show p + (n + i) = p + n + i by omega, show n + j - 1 - (n + i) = j - 1 - i by omega]

/-- The first `n` bits of a field are its value without the last `j`. -/
theorem bitField_top (m : Memory) (p n j : Nat) :
    bitField m p n = bitField m p (n + j) / 2 ^ j := by
  rw [bitField_add, Nat.mul_comm, Nat.mul_add_div (Nat.two_pow_pos j),
    Nat.div_eq_of_lt (bitField_lt _ _ _), Nat.add_zero]

/-- The bit `i` of byte `a`, bit 7 first (R64). -/
theorem bitAt_byte (m : Memory) (a : Nat) {i : Nat} (hi : i < 8) :
    bitAt m (8 * a + i) = byteAt m a / 2 ^ (7 - i) % 2 := by
  rw [bitAt, show (8 * a + i) / 8 = a by omega, show (8 * a + i) % 8 = i by omega]

/-- Eight bits from a byte boundary are the byte. -/
theorem bitField_byte (m : Memory) (a : Nat) : bitField m (8 * a) 8 = byteAt m a := by
  have hbits : bitField m (8 * a) 8 =
      ∑ i ∈ Finset.range 8, byteAt m a / 2 ^ (7 - i) % 2 * 2 ^ (7 - i) :=
    Finset.sum_congr rfl fun i hi => by rw [bitAt_byte m a (Finset.mem_range.1 hi)]
  have hlt := byteAt_lt m a
  rw [hbits]
  simp only [Finset.sum_range_succ, Finset.sum_range_zero]
  omega

/-- The bits of `k` whole bytes are their big-endian value (R63, R64). -/
theorem bitField_bytes (m : Memory) (a k : Nat) :
    bitField m (8 * a) (8 * k) = bigEndian m a k := by
  induction k generalizing a with
  | zero => rfl
  | succ k ih =>
    calc bitField m (8 * a) (8 * (k + 1))
        = bitField m (8 * a) 8 * 2 ^ (8 * k) + bitField m (8 * (a + 1)) (8 * k) := by
          rw [show 8 * (k + 1) = 8 + 8 * k by omega, bitField_add, Nat.mul_succ]
      _ = byteAt m a * 256 ^ k + bigEndian m (a + 1) k := by
          rw [bitField_byte, ih, pow_mul]
          rfl
      _ = bigEndian m a (k + 1) := (bigEndian_succ m a k).symm

/-- The `n` bits at a byte boundary are the top bits of any `k` bytes there that hold them (R67). -/
theorem bitField_aligned (m : Memory) (a : Nat) {n k : Nat} (h : n ≤ 8 * k) :
    bitField m (8 * a) n = bigEndian m a k / 2 ^ (8 * k - n) := by
  rw [← bitField_bytes, bitField_top m (8 * a) n (8 * k - n), Nat.add_sub_cancel' h]

/-- A Reader command or peek whose rule answers a reading completes with it (R304). -/
theorem State.perform_reading {x : Result Reading} {d : Reading} (peek : Bool)
    (hpin : s.op.pin = []) (hx : x = .ok d) :
    s.perform s.op.noPayload (s.reading peek x) =
      .next (State.afterOk (if peek then s else { s with r := d.reader }) d.q d.pout) := by
  subst hx
  exact State.perform_ok ((Operands.noPayload_iff _).2 hpin) rfl

/-- The bit-field read at an aligned cursor (R67, R172). -/
theorem Reader.readBits_aligned {p : Params} {r : Reader} (hi : r.Inv p) (hb : r.bitOffset = 0)
    {n : Nat} (hn : n ≤ 32) (hlen : 8 * r.offset + n ≤ 8 * r.len) :
    r.readBits n = .ok
      { reader := { r with offset := r.offset + n / 8, bitOffset := n % 8 }
        q := BitVec.ofNat 64
          (bigEndian r.mem r.offset ((n + 7) / 8) / 2 ^ (8 * ((n + 7) / 8) - n))
        pout := [] } := by
  have hpos : r.position = 8 * r.offset := by rw [Reader.position, hb, Nat.add_zero]
  rw [Reader.readBits_ok hi hn (hpos ▸ hlen), hpos, bitField_aligned (k := (n + 7) / 8) _ _ (by omega),
    Nat.mul_add_div (by omega), Nat.mul_add_mod]

end Sys2Proof.Machine

open Sys2Proof Sys2Proof.Machine

/-- Settles O39: the read and its peek both complete with the reading of `Reader.readBits_aligned`. -/
theorem alignedBitReadIsTheTopOfTheBytes : Obligations.AlignedBitReadIsTheTopOfTheBytes := by
  rintro n s ⟨-, -, hr⟩ hpin hb hn hlen
  have hread := Reader.readBits_aligned hr hb hn hlen
  exact ⟨State.perform_reading false hpin hread, State.perform_reading true hpin hread⟩
end

section
/-! The Writer and the Reader are separate (spec/20_memory.md R80).  A command's rule is run behind the
framing test, so what it leaves of each unit is what the rule gives or what was there before
(`State.perform_units`).  From that, the one split over the instructions (`exec_unitUse`) sorts the commands
by the unit they change: they leave the other one, but for `HANDOFF`, and what they make of their own does
not depend on it. -/

namespace Sys2Proof.Machine

variable {α : Type} {i : Instr} {s t : State} {r r' : Reader} {p : Params}

/-! ### The units after a command -/

/-- A property of the units before the command, and of the units the rule gives, is one of the units after
it: all of the rule's writes are made or none (R72, R304). -/
theorem State.perform_units {P : Writer → Reader → Prop} {framed : Bool} {x : Result Effect}
    (h : s.perform framed x = .next t) (hs : P s.w s.r)
    (hx : ∀ e, x = .ok e → P e.state.w e.state.r) : P t.w t.r := by
  obtain ⟨-, e, he, rfl⟩ | ⟨-, st, -, rfl⟩ | ⟨-, rfl⟩ := State.perform_next h
  · exact hx e he
  · exact hs
  · exact hs

/-- What a unit is after a command: what the rule gives if the framing is good and the rule completes, and
else what it was. -/
def afterRule (old : α) : Bool → Result α → α
  | true, .ok new => new
  | _, _ => old

theorem State.perform_writer {framed : Bool} {x : Result Effect} (h : s.perform framed x = .next t) :
    t.w = afterRule s.w framed (x.map fun e => e.state.w) := by
  obtain ⟨rfl, e, rfl, rfl⟩ | ⟨rfl, st, rfl, rfl⟩ | ⟨rfl, rfl⟩ := State.perform_next h <;> rfl

theorem State.perform_reader {framed : Bool} {x : Result Effect} (h : s.perform framed x = .next t) :
    t.r = afterRule s.r framed (x.map fun e => e.state.r) := by
  obtain ⟨rfl, e, rfl, rfl⟩ | ⟨rfl, st, rfl, rfl⟩ | ⟨rfl, rfl⟩ := State.perform_next h <;> rfl

/-! ### Commands that leave a unit, or do not look at the other one -/

/-- A value the Writer does not affect. -/
def WriterFree (f : State → α) : Prop := ∀ (s : State) (w : Writer), f { s with w := w } = f s

/-- A value the Reader does not affect. -/
def ReaderFree (f : State → α) : Prop := ∀ (s : State) (r : Reader), f { s with r := r } = f s

/-- The command leaves the Writer. -/
def LeavesWriter (f : State → Host.Outcome State Fault Refusal) : Prop :=
  ∀ s t, f s = .next t → t.w = s.w

/-- The command leaves the Reader. -/
def LeavesReader (f : State → Host.Outcome State Fault Refusal) : Prop :=
  ∀ s t, f s = .next t → t.r = s.r

/-- What the Writer is after the command does not depend on what the Reader was. -/
def WriterAlone (f : State → Host.Outcome State Fault Refusal) : Prop :=
  ∀ s t t' r, f s = .next t → f { s with r := r } = .next t' → t'.w = t.w

/-- What the Reader is after the command does not depend on what the Writer was. -/
def ReaderAlone (f : State → Host.Outcome State Fault Refusal) : Prop :=
  ∀ s t t' w, f s = .next t → f { s with w := w } = .next t' → t'.r = t.r

theorem LeavesWriter.alone {f : State → Host.Outcome State Fault Refusal} (h : LeavesWriter f) :
    WriterAlone f :=
  fun _ _ _ _ ht ht' => (h _ _ ht').trans (h _ _ ht).symm

theorem LeavesReader.alone {f : State → Host.Outcome State Fault Refusal} (h : LeavesReader f) :
    ReaderAlone f :=
  fun _ _ _ _ ht ht' => (h _ _ ht').trans (h _ _ ht).symm

section
variable {framed : State → Bool} {rule : State → Result Effect}

theorem LeavesWriter.perform (h : ∀ s e, rule s = .ok e → e.state.w = s.w) :
    LeavesWriter fun s => s.perform (framed s) (rule s) :=
  fun s _ ht => State.perform_units (P := fun w _ => w = s.w) ht rfl (h s)

theorem LeavesReader.perform (h : ∀ s e, rule s = .ok e → e.state.r = s.r) :
    LeavesReader fun s => s.perform (framed s) (rule s) :=
  fun s _ ht => State.perform_units (P := fun _ r => r = s.r) ht rfl (h s)

theorem WriterAlone.perform (hf : ReaderFree framed)
    (hr : ReaderFree fun s => (rule s).map fun e => e.state.w) :
    WriterAlone fun s => s.perform (framed s) (rule s) := by
  intro s t t' r ht ht'
  rw [State.perform_writer ht, State.perform_writer ht', hf s r]
  exact congrArg _ (hr s r)

theorem ReaderAlone.perform (hf : WriterFree framed)
    (hr : WriterFree fun s => (rule s).map fun e => e.state.r) :
    ReaderAlone fun s => s.perform (framed s) (rule s) := by
  intro s t t' w ht ht'
  rw [State.perform_reader ht, State.perform_reader ht', hf s w]
  exact congrArg _ (hr s w)

end

/-- The Reader `RLOAD` leaves is fixed by the operands (R286). -/
theorem State.loadRule_reader : WriterFree fun s => s.loadRule.map fun e => e.state.r := by
  intro s w
  simp only [State.loadRule]
  split_ifs <;> rfl

theorem State.loadRule_writer {e : Effect} (h : s.loadRule = .ok e) : e.state.w = s.w := by
  unfold State.loadRule at h
  split_ifs at h
  cases h
  rfl

theorem State.viewRule_state {e : Effect} (h : s.viewRule = .ok e) : e.state = s := by
  unfold State.viewRule at h
  split at h <;> cases h
  rfl

/-! ### The Reader's buffer -/

/-- The cursor alone differs: RB and R.len are the same. -/
def Reader.SameBuffer (r r' : Reader) : Prop := r'.mem = r.mem ∧ r'.len = r.len

/-- The result, if it is a reading, has the buffer of `r`. -/
def KeepsBuffer (r : Reader) (x : Result Reading) : Prop := ∀ d, x = .ok d → r.SameBuffer d.reader

theorem KeepsBuffer.error {e : Stop} : KeepsBuffer r (.error e) := nofun

theorem KeepsBuffer.ok {d : Reading} (h : r.SameBuffer d.reader) : KeepsBuffer r (.ok d) := by
  rintro _ ⟨⟩
  exact h

/-- A test before the rule. -/
theorem KeepsBuffer.unless {c : Prop} [Decidable c] {e : Stop} {x : Result Reading}
    (h : KeepsBuffer r x) : KeepsBuffer r (if c then .error e else x) := by
  split_ifs
  · exact .error
  · exact h

/-- A result with the Reader after it, handed on as a reading with the value `q` of it. -/
theorem KeepsBuffer.ofPair {x : Result (α × Reader)} {y : Result Reading} (q : α → Word)
    (h : ∀ a r', x = .ok (a, r') → r.SameBuffer r')
    (hy : y = x.map fun z => { reader := z.2, q := q z.1, pout := [] }) : KeepsBuffer r y := by
  subst hy
  cases x with
  | error e => exact .error
  | ok z => exact .ok (h z.1 z.2 rfl)

theorem Reader.sameBuffer_align (r : Reader) : r.SameBuffer r.align := by
  unfold Reader.align
  split_ifs <;> exact ⟨rfl, rfl⟩

theorem Reader.byteRead_sameBuffer {k : Nat} {bytes : List Byte} (h : r.byteRead k = .ok (bytes, r')) :
    r.SameBuffer r' := by
  unfold Reader.byteRead at h
  split_ifs at h
  split at h <;> cases h
  exact ⟨rfl, rfl⟩

theorem Reader.readVarint_sameBuffer {v : Nat} (h : r.readVarint p = .ok (v, r')) :
    r.SameBuffer r' := by
  unfold Reader.readVarint at h
  split at h
  · cases h
  · split_ifs at h
    cases h
    exact ⟨rfl, rfl⟩

theorem Reader.readBits_keepsBuffer (n : Nat) : KeepsBuffer r (r.readBits n) := by
  refine .unless (.unless ?_)
  split
  · exact .error
  · exact .ok ⟨rfl, rfl⟩

theorem Reader.readUnsigned_keepsBuffer (k : Nat) : KeepsBuffer r (r.readUnsigned k) :=
  .ofPair (fun bytes => BitVec.ofNat 64 (be bytes)) (fun _ _ => Reader.byteRead_sameBuffer) (by
    unfold Reader.readUnsigned; cases r.byteRead k <;> rfl)

theorem Reader.readSigned_keepsBuffer (k : Nat) : KeepsBuffer r (r.readSigned k) :=
  .ofPair (fun bytes => sext64 (be bytes) (8 * k)) (fun _ _ => Reader.byteRead_sameBuffer) (by
    unfold Reader.readSigned; cases r.byteRead k <;> rfl)

theorem Reader.readBuffer_keepsBuffer (n : Nat) (a : Word) : KeepsBuffer r (r.readBuffer n a) := by
  refine .unless (.unless ?_)
  split
  · exact .error
  · refine .unless ?_
    split
    · exact .error
    · exact .ok ⟨rfl, rfl⟩

theorem Reader.readVarUnsigned_keepsBuffer : KeepsBuffer r (r.readVarUnsigned p) :=
  .ofPair (BitVec.ofNat 64) (fun _ _ => Reader.readVarint_sameBuffer) (by
    unfold Reader.readVarUnsigned; cases r.readVarint p <;> rfl)

theorem Reader.readVarSigned_keepsBuffer : KeepsBuffer r (r.readVarSigned p) :=
  .ofPair (unzzWord p.varw) (fun _ _ => Reader.readVarint_sameBuffer) (by
    unfold Reader.readVarSigned; cases r.readVarint p <;> rfl)

/-! ### Which unit every command changes -/

/-- The command `i`, executed as `f`, changes neither unit, the Writer (groups 1 and 2) or the Reader
(groups 3 and 4).  Of those that change the Writer only `HANDOFF` changes the Reader too, and of those that
change the Reader only `RLOAD` changes its buffer. -/
inductive UnitUse (i : Instr) (f : State → Host.Outcome State Fault Refusal) : Prop
  | neither (hw : LeavesWriter f) (hr : LeavesReader f)
  | writer (hi : groupOf i ∈ [1, 2]) (hw : WriterAlone f) (hr : i ≠ .handoff → LeavesReader f)
  | reader (hi : groupOf i ∈ [3, 4]) (hw : LeavesWriter f) (hr : ReaderAlone f)
    (hbuf : i ≠ .rload → ∀ s t, f s = .next t → s.r.SameBuffer t.r)

section
variable {framed : State → Bool}

/-- A rule that changes no unit. -/
theorem UnitUse.still {rule : State → Result Effect}
    (h : ∀ s e, rule s = .ok e → e.state.w = s.w ∧ e.state.r = s.r) :
    UnitUse i fun s => s.perform (framed s) (rule s) :=
  .neither (.perform fun s e he => (h s e he).1) (.perform fun s e he => (h s e he).2)

theorem UnitUse.computing {x : State → Result Word} :
    UnitUse i fun s => s.perform (framed s) (s.computing (x s)) :=
  .still fun s e he => by
    obtain ⟨q, -, rfl⟩ := State.computing_ok he
    exact ⟨rfl, rfl⟩

theorem UnitUse.peeking {x : State → Result Reading} :
    UnitUse i fun s => s.perform (framed s) (s.reading true (x s)) :=
  .still fun s e he => by
    obtain ⟨d, -, rfl⟩ := State.reading_ok he
    exact ⟨rfl, rfl⟩

theorem UnitUse.writing {x : State → Result Writer} (hi : groupOf i ∈ [1, 2])
    (hf : ReaderFree framed) (hx : ReaderFree x) :
    UnitUse i fun s => s.perform (framed s) (s.writing (x s)) := by
  refine .writer hi (.perform hf fun s r => ?_) fun _ => .perform fun s e he => ?_
  · simp only [hx s r]
    cases x s <;> rfl
  · obtain ⟨w, -, rfl⟩ := State.writing_ok he
    rfl

theorem UnitUse.reading {x : State → Result Reading} (hi : groupOf i ∈ [3, 4])
    (hbuf : ∀ s, KeepsBuffer s.r (x s)) (hf : WriterFree framed) (hx : WriterFree x) :
    UnitUse i fun s => s.perform (framed s) (s.reading false (x s)) := by
  refine .reader hi (.perform fun s e he => ?_) (.perform hf fun s w => ?_) fun _ s t ht => ?_
  · obtain ⟨d, -, rfl⟩ := State.reading_ok he
    rfl
  · simp only [hx s w]
    cases x s <;> rfl
  · refine State.perform_units (P := fun _ r => s.r.SameBuffer r) ht ⟨rfl, rfl⟩ fun e he => ?_
    obtain ⟨d, hd, rfl⟩ := State.reading_ok he
    exact hbuf s d hd

end

/-- The unit every command changes (R80). -/
theorem exec_unitUse (i : Instr) : UnitUse i (exec i) := by
  cases i with
  | winit | walign | wbits | wvaru | wvars | wbuf
  | wu8 | wu16 | wu32 | wu64 | wi8 | wi16 | wi32 | wi64 | wf16 | wf32 | wf64 =>
    exact .writing (by simp [groupOf, Instr.opcode]) (fun _ _ => rfl) fun _ _ => rfl
  | handoff =>
    exact .writer (by decide) (.perform (fun _ _ => rfl) fun _ _ => rfl)
      fun hne => absurd rfl hne
  | rload =>
    exact .reader (by decide) (.perform fun _ _ => State.loadRule_writer)
      (.perform (fun _ _ => rfl) State.loadRule_reader) fun hne => absurd rfl hne
  | ralign =>
    exact .reading (by decide) (fun s => .ok s.r.sameBuffer_align) (fun _ _ => rfl) fun _ _ => rfl
  | rbits =>
    exact .reading (by simp [groupOf, Instr.opcode]) (fun _ => Reader.readBits_keepsBuffer _)
      (fun _ _ => rfl) fun _ _ => rfl
  | rvaru =>
    exact .reading (by decide) (fun _ => Reader.readVarUnsigned_keepsBuffer) (fun _ _ => rfl)
      fun _ _ => rfl
  | rvars =>
    exact .reading (by decide) (fun _ => Reader.readVarSigned_keepsBuffer) (fun _ _ => rfl)
      fun _ _ => rfl
  | rbuf =>
    exact .reading (by simp [groupOf, Instr.opcode]) (fun _ => Reader.readBuffer_keepsBuffer _ _)
      (fun _ _ => rfl) fun _ _ => rfl
  | ru8 | ru16 | ru32 | ru64 | rf16 | rf32 | rf64 =>
    exact .reading (by decide) (fun _ => Reader.readUnsigned_keepsBuffer _) (fun _ _ => rfl)
      fun _ _ => rfl
  | ri8 | ri16 | ri32 | ri64 =>
    exact .reading (by decide) (fun _ => Reader.readSigned_keepsBuffer _) (fun _ _ => rfl)
      fun _ _ => rfl
  | pbits | pvaru | pvars | pbuf
  | pu8 | pu16 | pu32 | pu64 | pi8 | pi16 | pi32 | pi64 | pf16 | pf32 | pf64 => exact .peeking
  | rdcsr | toprec | fromprec | zigzag | unzigzag => exact .computing
  | wview => exact .still fun s e he => by rw [State.viewRule_state he]; exact ⟨rfl, rfl⟩
  | clrerr => exact .still fun s e he => by cases he; exact ⟨rfl, rfl⟩

/-- No command carries anything from the Reader to the Writer. -/
theorem exec_writerAlone (i : Instr) : WriterAlone (exec i) := by
  cases exec_unitUse i with
  | neither hw _ | reader _ hw _ _ => exact hw.alone
  | writer _ hw _ => exact hw

/-- No command but `HANDOFF` carries anything from the Writer to the Reader. -/
theorem exec_readerAlone (hne : i ≠ .handoff) : ReaderAlone (exec i) := by
  cases exec_unitUse i with
  | neither _ hr => exact hr.alone
  | writer _ _ hr => exact (hr hne).alone
  | reader _ _ hr _ => exact hr

end Sys2Proof.Machine

open Sys2Proof Sys2Proof.Machine

/-- Settles O20, by the unit the command changes. -/
theorem writerAndReaderAreSeparate : Obligations.WriterAndReaderAreSeparate := by
  refine ⟨fun i s t h => ?_, fun i s t t' w hne => exec_readerAlone hne s t t' w,
    fun i s t t' r => exec_writerAlone i s t t' r⟩
  cases exec_unitUse i with
  | neither hw hr =>
    have hr := hr s t h
    exact ⟨fun _ => hw s t h, fun _ _ => hr, fun _ _ => hr ▸ ⟨rfl, rfl⟩⟩
  | writer hi _ hr =>
    have hr hne := hr hne s t h
    exact ⟨fun hn => absurd hi hn, fun _ hne => hr hne, fun hne _ => hr hne ▸ ⟨rfl, rfl⟩⟩
  | reader hi hw _ hbuf =>
    exact ⟨fun _ => hw s t h, fun hn _ => absurd hi hn, fun _ hne => hbuf hne s t h⟩
end

section
/-! The decoder and the encoder (spec/30_encoding.md R100 to R102, R106, R109).  A word is its three fields
(`append_fields`), and the opcode map gives a command exactly when the command's own opcode and count stand
in the word (`formOf_opcode`, `of_mem_opcodeMap`).  So a word decodes to a command exactly when its fields
are the command's (`decode_ok_iff`), from which both directions of the round trip follow. -/

namespace Sys2Proof

/-- The row gives the command `i` from a word with the count `n`: with the count where the row has one, and
without it only from the count 0 (R106, test 3). -/
def Form.Gives (n : Count) (i : Instr) : Form → Prop
  | .counted make => i = make n
  | .plain j => n = 0 ∧ i = j

/-! ### The opcode map -/

/-- No opcode stands in two rows. -/
theorem opcodeMap_nodup : (opcodeMap.map Prod.fst).Nodup := by decide

theorem formOf_eq_some {op : BitVec 8} {form : Form} :
    formOf op = some form ↔ (op, form) ∈ opcodeMap := by
  unfold formOf
  constructor
  · rintro h
    obtain ⟨row, hfind, rfl⟩ := Option.map_eq_some_iff.1 h
    obtain rfl : row.1 = op := by simpa using List.find?_some hfind
    exact List.mem_of_find?_eq_some hfind
  · intro h
    obtain ⟨row, hfind⟩ := Option.isSome_iff_exists.1
      (List.find?_isSome (p := fun row => row.1 == op).2 ⟨_, h, beq_self_eq_true op⟩)
    have hop : row.1 = op := by simpa using List.find?_some hfind
    obtain rfl := List.inj_on_of_nodup_map opcodeMap_nodup (List.mem_of_find?_eq_some hfind) h hop
    rw [hfind]; rfl

/-- Every command has a row, which gives it from its own count. -/
theorem formOf_opcode (i : Instr) :
    ∃ form, formOf i.opcode = some form ∧ form.Gives i.count i := by
  cases i with
  | rdcsr | winit | wbits | wbuf | rbits | rbuf | pbits | pbuf | toprec | fromprec =>
    exact ⟨_, rfl, rfl⟩
  | clrerr | walign | wvaru | wvars | wview | handoff
  | wu8 | wu16 | wu32 | wu64 | wi8 | wi16 | wi32 | wi64 | wf16 | wf32 | wf64
  | rload | ralign | rvaru | rvars
  | ru8 | ru16 | ru32 | ru64 | ri8 | ri16 | ri32 | ri64 | rf16 | rf32 | rf64
  | pvaru | pvars
  | pu8 | pu16 | pu32 | pu64 | pi8 | pi16 | pi32 | pi64 | pf16 | pf32 | pf64
  | zigzag | unzigzag => exact ⟨_, rfl, rfl, rfl⟩

/-- A row gives only commands of its opcode, from their own count: row by row of the map. -/
theorem of_mem_opcodeMap : ∀ row ∈ opcodeMap, ∀ n i, row.2.Gives n i →
    row.1 = i.opcode ∧ n = i.count := by
  simp [opcodeMap, Form.Gives, Instr.opcode, Instr.count]

/-! ### The fields of a word -/

/-- A word is its opcode, its count and its reserved field (R100). -/
theorem append_fields (cw : CommandWord) : opField cw ++ countField cw ++ zeroField cw = cw := by
  have hop : opField cw ++ countField cw = cw.extractLsb' 16 16 :=
    BitVec.extractLsb'_append_extractLsb'_eq_extractLsb' rfl
  rw [hop]
  exact BitVec.extractLsb'_append_extractLsb'

/-- A word decodes to what the row of its opcode gives from its count, if its reserved bits are 0. -/
theorem decode_eq_ok {cw : CommandWord} {i : Instr} : decode cw = .ok i ↔
    zeroField cw = 0 ∧ ∃ form, formOf (opField cw) = some form ∧ form.Gives (countField cw) i := by
  rw [decode]
  cases formOf (opField cw) with
  | none => simp
  | some form =>
    simp only [Option.some.injEq, exists_eq_left']
    by_cases hz : zeroField cw = 0
    · rw [if_neg (not_not.2 hz)]
      cases form with
      | counted make => simp only [hz, true_and, Form.Gives, Except.ok.injEq, eq_comm]
      | plain j =>
        by_cases hn : countField cw = 0
        · simp only [hz, hn, ne_eq, not_true, if_false, true_and, Form.Gives, Except.ok.injEq, eq_comm]
        · simp only [if_pos hn, hn, false_and, and_false, Form.Gives, reduceCtorEq]
    · simp only [if_pos hz, hz, false_and, reduceCtorEq]

/-- A word decodes to a command exactly when its fields are the command's. -/
theorem decode_ok_iff {cw : CommandWord} {i : Instr} : decode cw = .ok i ↔
    zeroField cw = 0 ∧ opField cw = i.opcode ∧ countField cw = i.count := by
  rw [decode_eq_ok]
  refine and_congr_right fun _ => ⟨?_, ?_⟩
  · rintro ⟨form, hform, hgives⟩
    exact of_mem_opcodeMap _ (formOf_eq_some.1 hform) _ _ hgives
  · rintro ⟨hop, hn⟩
    rw [hop, hn]
    exact formOf_opcode i

end Sys2Proof

open Sys2Proof

/-- Settles O2: the fields of a command's word are the command's. -/
theorem decodeOfEncodeGivesTheCommand : Obligations.DecodeOfEncodeGivesTheCommand :=
  fun i => decode_ok_iff.2 (Laws.ReservedBitsZero.fields i.opcode i.count)

/-- Settles O3: the word is put together from its fields, which are the command's. -/
theorem encodeOfDecodeGivesTheWord : Obligations.EncodeOfDecodeGivesTheWord := by
  intro cw i h
  obtain ⟨hzero, hop, hn⟩ := decode_ok_iff.1 h
  rw [encode, ← hop, ← hn, show 0#16 = zeroField cw from hzero.symm, append_fields]

/-- Settles O1: the eleven words are those of their commands, and the three others are decoded. -/
theorem sampleCommandWordsDecode : Obligations.SampleCommandWordsDecode := by
  have word (i : Instr) : decode (encode i) = .ok i := decodeOfEncodeGivesTheCommand i
  exact ⟨word (.rdcsr 3), word (.winit 1), word (.wbits 12), word .wf64, word .wvars, word (.rbuf 2),
    word .ri64, word (.pbuf 4), word .pf32, word (.fromprec 12), word .unzigzag, rfl, rfl, rfl⟩
end

section
/-! Illegal transactions (spec/30_encoding.md R106, R108).  Tests 1 to 3 are the decoder's
(`exists_decode_iff`), test 4 is the payload framing of the decoded command (`Operands.framedFor`).
Every command is its framing test and a rule that raises no `IllegalCommand` (`exec_performs`), so a wrong
framing is the only way in which a decoded command ends so. -/

namespace Sys2Proof

/-- The row's command uses the count (R101). -/
def Form.isCounted : Form → Bool
  | .counted _ => true
  | .plain _ => false

theorem opField_toNat (cw : CommandWord) : (opField cw).toNat = cw.toNat / 2 ^ 24 := by
  have := cw.isLt
  simp only [opField, BitVec.extractLsb'_toNat, Nat.shiftRight_eq_div_pow]
  omega

theorem countField_eq_zero_iff (cw : CommandWord) :
    countField cw = 0 ↔ cw.toNat / 2 ^ 16 % 256 = 0 := by
  rw [BitVec.toNat_eq, countField, BitVec.extractLsb'_toNat, Nat.shiftRight_eq_div_pow]
  rfl

theorem zeroField_eq_zero_iff (cw : CommandWord) : zeroField cw = 0 ↔ cw.toNat % 2 ^ 16 = 0 := by
  rw [BitVec.toNat_eq, zeroField, BitVec.extractLsb'_toNat, Nat.shiftRight_zero]
  rfl

end Sys2Proof

namespace Sys2Proof.Machine

variable {α : Type} {p : Params} {w : Writer} {r : Reader} {s t : State} {c : Command}

/-! ### Tests 1 to 3: the decoder -/

/-- The opcodes of the rows with a count, or of those without, in the order of the map. -/
def opcodesOfRows (counted : Bool) : List Nat :=
  (opcodeMap.filter fun row => row.2.isCounted == counted).map fun row => row.1.toNat

theorem countedOpcodes_eq : countedOpcodes = opcodesOfRows true := rfl

theorem plainOpcodes_eq : plainOpcodes = opcodesOfRows false := rfl

theorem mem_opcodesOfRows {op : BitVec 8} {counted : Bool} : op.toNat ∈ opcodesOfRows counted ↔
    ∃ form, formOf op = some form ∧ form.isCounted = counted := by
  simp only [opcodesOfRows, List.mem_map, List.mem_filter, BitVec.toNat_inj, beq_iff_eq,
    formOf_eq_some]
  constructor
  · rintro ⟨row, ⟨hrow, hc⟩, rfl⟩
    exact ⟨row.2, hrow, hc⟩
  · rintro ⟨form, hrow, hc⟩
    exact ⟨_, ⟨hrow, hc⟩, rfl⟩

/-- A word is accepted exactly when it passes the tests 1 to 3 of R106. -/
theorem exists_decode_iff {cw : CommandWord} : (∃ i, decode cw = .ok i) ↔
    cw.toNat / 2 ^ 24 ∈ countedOpcodes ++ plainOpcodes ∧ cw.toNat % 2 ^ 16 = 0 ∧
    (cw.toNat / 2 ^ 24 ∈ plainOpcodes → cw.toNat / 2 ^ 16 % 256 = 0) := by
  simp only [decode_eq_ok, ← opField_toNat, ← countField_eq_zero_iff, ← zeroField_eq_zero_iff,
    List.mem_append, countedOpcodes_eq, plainOpcodes_eq, mem_opcodesOfRows]
  rcases formOf (opField cw) with _ | make | j
  · simp
  · simp [Form.Gives, Form.isCounted]
  · simp [Form.Gives, Form.isCounted]

/-! ### Test 4: the payload framing -/

/-- The framing test of the command `i` (R108): `WBUF` and `RLOAD` take a payload of length A, every other
command takes none. -/
def Operands.framedFor (o : Operands) : Instr → Bool
  | .wbuf _ | .rload => o.payloadOfLengthA
  | _ => o.noPayload

theorem Operands.framedFor_eq_false_iff (o : Operands) (i : Instr) : o.framedFor i = false ↔
    (i.opcode.toNat ∈ [0x15, 0x30] ∧ o.pin.length ≠ o.a.toNat) ∨
    (i.opcode.toNat ∉ [0x15, 0x30] ∧ o.pin ≠ []) := by
  rw [← Bool.not_eq_true]
  cases i with
  | wbuf | rload => simp [Operands.framedFor, Instr.opcode]
  | _ => simp [Operands.framedFor, Instr.opcode]

/-- A transaction whose word is accepted is illegal exactly when its framing is wrong. -/
theorem illegalTransaction_iff_of_decoded {i : Instr} (h : decode c.cw = .ok i) :
    IllegalTransaction c ↔ Operands.framedFor { a := c.a, b := c.b, pin := c.pin } i = false := by
  obtain ⟨hop, hzero, hn⟩ := exists_decode_iff.1 ⟨i, h⟩
  obtain ⟨-, hi, -⟩ := decode_ok_iff.1 h
  rw [Operands.framedFor_eq_false_iff, ← hi, opField_toNat]
  constructor
  · rintro (hop' | hzero' | ⟨hplain, hn'⟩ | hframe)
    · exact absurd hop hop'
    · exact absurd hzero hzero'
    · exact absurd (hn hplain) hn'
    · exact hframe
  · exact fun hframe => .inr (.inr (.inr hframe))

/-- A transaction whose word is rejected is illegal. -/
theorem illegalTransaction_of_badWord {x : BadWord} (h : decode c.cw = .error x) :
    IllegalTransaction c := by
  by_contra hlegal
  simp only [IllegalTransaction, not_or, not_and, ne_eq, not_not] at hlegal
  obtain ⟨hop, hzero, hn, -⟩ := hlegal
  obtain ⟨i, hi⟩ := exists_decode_iff.2 ⟨hop, hzero, hn⟩
  rw [h] at hi; cases hi

/-! ### The statuses a rule raises -/

/-- An error status the result raises is one of `l`. -/
inductive Raises (l : List Status) : Result α → Prop
  | ok {x : α} : Raises l (.ok x)
  | fault {f : Fault} : Raises l (.error (.fault f))
  | raise {e : Status} (h : e ∈ l) : Raises l (.error (.raise e))

section
variable {β : Type} {l : List Status}

/-- An error passed on raises the same. -/
theorem Raises.error {e : Stop} (h : Raises l (.error e : Result α)) :
    Raises l (.error e : Result β) := by
  cases h with
  | fault => exact .fault
  | raise h => exact .raise h

/-- A result with its value changed raises the same. -/
theorem Raises.map {x : Result α} {y : Result β} (f : α → β) (h : Raises l x) (hy : y = x.map f) :
    Raises l y := by
  subst hy
  cases h with
  | ok => exact .ok
  | fault => exact .fault
  | raise h => exact .raise h

/-- A test before the rule. -/
theorem Raises.unless {b : Prop} [Decidable b] {e : Status} {x : Result α} (he : e ∈ l)
    (h : Raises l x) : Raises l (if b then .error (.raise e) else x) := by
  split_ifs
  · exact .raise he
  · exact h

/-- A rule behind the test that lets it run. -/
theorem Raises.provided {b : Prop} [Decidable b] {e : Status} {x : Result α} (he : e ∈ l)
    (h : Raises l x) : Raises l (if b then x else .error (.raise e)) := by
  split_ifs
  · exact h
  · exact .raise he

theorem Raises.writing {x : Result Writer} (h : Raises l x) : Raises l (s.writing x) := by
  cases h with
  | ok => exact .ok
  | fault => exact .fault
  | raise h => exact .raise h

theorem Raises.reading {x : Result Reading} {peek : Bool} (h : Raises l x) :
    Raises l (s.reading peek x) := by
  cases h with
  | ok => exact .ok
  | fault => exact .fault
  | raise h => exact .raise h

theorem Raises.computing {x : Result Word} (h : Raises l x) : Raises l (s.computing x) := by
  cases h with
  | ok => exact .ok
  | fault => exact .fault
  | raise h => exact .raise h

/-! ### The Writer's rules -/

theorem Writer.byteWrite_raises (hn : .noSpace ∈ l) (bs : List Byte) :
    Raises l (w.byteWrite p bs) := by
  cases h : w.byteWrite p bs with
  | ok => exact .ok
  | error e =>
    rw [Writer.byteWrite_error h]
    exact .raise hn

theorem Writer.writeBits_raises (n v : Nat) :
    Raises [.overflow, .invalidParameter, .noSpace] (w.writeBits p n v) := by
  refine .unless (by decide) (.unless (by decide) ?_)
  split
  · rename_i e he
    split_ifs at he
    rw [Writer.ensure_error he]
    exact .raise (by decide)
  · split
    · rename_i e he
      rw [Memory.putBits_error he]
      exact .fault
    · exact .ok

theorem Writer.writeUnsigned_raises (k : Nat) (a : Word) :
    Raises [.overflow, .noSpace] (w.writeUnsigned p k a) :=
  .unless (by decide) (Writer.byteWrite_raises (by decide) _)

theorem Writer.writeSigned_raises (k : Nat) (a : Word) :
    Raises [.overflow, .noSpace] (w.writeSigned p k a) :=
  .provided (by decide) (Writer.byteWrite_raises (by decide) _)

theorem Writer.writeVarUnsigned_raises (a : Word) :
    Raises [.overflow, .noSpace] (w.writeVarUnsigned p a) :=
  .unless (by decide) (Writer.byteWrite_raises (by decide) _)

theorem Writer.writeVarSigned_raises (a : Word) :
    Raises [.overflow, .noSpace] (w.writeVarSigned p a) :=
  .provided (by decide) (Writer.byteWrite_raises (by decide) _)

theorem Writer.writeBuffer_raises (n : Nat) (a : Word) (pin : List Byte) :
    Raises [.overflow, .invalidParameter, .noSpace] (w.writeBuffer p n a pin) :=
  .unless (by decide) (.unless (by decide) (Writer.byteWrite_raises (by decide) _))

theorem Writer.init_raises (n : Nat) (a : Word) : Raises [.invalidParameter] (Writer.init p n a) :=
  .unless (by decide) (.unless (by decide) .ok)

theorem Writer.view_raises : Raises l w.view := by
  unfold Writer.view defined
  split
  · exact .ok
  · exact .fault

/-! ### The Reader's rules -/

theorem Reader.byteRead_raises (k : Nat) : Raises [.outOfBounds] (r.byteRead k) := by
  refine .unless (by decide) ?_
  split
  · exact .fault
  · exact .ok

theorem Reader.readUnsigned_raises (k : Nat) : Raises [.outOfBounds] (r.readUnsigned k) :=
  (r.byteRead_raises k).map (fun z => ⟨z.2, BitVec.ofNat 64 (be z.1), []⟩) (by
    unfold Reader.readUnsigned; cases r.byteRead k <;> rfl)

theorem Reader.readSigned_raises (k : Nat) : Raises [.outOfBounds] (r.readSigned k) :=
  (r.byteRead_raises k).map (fun z => ⟨z.2, sext64 (be z.1) (8 * k), []⟩) (by
    unfold Reader.readSigned; cases r.byteRead k <;> rfl)

theorem Reader.readBits_raises (n : Nat) :
    Raises [.outOfBounds, .invalidParameter] (r.readBits n) := by
  refine .unless (by decide) (.unless (by decide) ?_)
  split
  · exact .fault
  · exact .ok

theorem Reader.bufferLength_raises (n : Nat) (a : Word) : Raises l (r.bufferLength n a) := by
  unfold Reader.bufferLength
  split_ifs
  · split
    · exact .fault
    · exact .ok
  · exact .ok

theorem Reader.readBuffer_raises (n : Nat) (a : Word) :
    Raises [.outOfBounds, .invalidParameter] (r.readBuffer n a) := by
  refine .unless (by decide) (.unless (by decide) ?_)
  split
  · rename_i h
    exact (h ▸ r.bufferLength_raises n a).error
  · refine .unless (by decide) ?_
    split
    · exact .fault
    · exact .ok

theorem unleb_raises (m : Memory) (a k : Nat) (ho : .outOfBounds ∈ l) : Raises l (unleb m a k) := by
  induction k generalizing a with
  | zero => exact .raise ho
  | succ k ih =>
    rw [unleb]
    split
    · exact .fault
    · split_ifs
      · exact .ok
      · split
        · rename_i h
          exact (h ▸ ih (a + 1)).error
        · exact .ok

theorem Reader.readVarint_raises : Raises [.overflow, .outOfBounds] (r.readVarint p) := by
  unfold Reader.readVarint
  split
  · rename_i h
    exact (h ▸ unleb_raises r.mem r.start (r.len - r.start) (by decide)).error
  · exact .unless (by decide) .ok

theorem Reader.readVarUnsigned_raises : Raises [.overflow, .outOfBounds] (r.readVarUnsigned p) :=
  r.readVarint_raises.map (fun z => ⟨z.2, BitVec.ofNat 64 z.1, []⟩) (by
    unfold Reader.readVarUnsigned; cases r.readVarint p <;> rfl)

theorem Reader.readVarSigned_raises : Raises [.overflow, .outOfBounds] (r.readVarSigned p) :=
  r.readVarint_raises.map (fun z => ⟨z.2, unzzWord p.varw z.1, []⟩) (by
    unfold Reader.readVarSigned; cases r.readVarint p <;> rfl)

/-! ### The other rules -/

theorem zigzagValue_raises (a : Word) : Raises [.overflow] (zigzagValue p a) :=
  .provided (by decide) .ok

theorem unzigzagValue_raises (a : Word) : Raises [.overflow] (unzigzagValue p a) :=
  .unless (by decide) .ok

theorem toPrecision_raises (n : Nat) (a b : Word) :
    Raises [.invalidParameter] (toPrecision n a b) := by
  refine .unless (by decide) ?_
  split
  · exact .raise (by decide)
  · split
    · exact .raise (by decide)
    · exact .ok

theorem fromPrecision_raises (n : Nat) (a b : Word) :
    Raises [.overflow, .invalidParameter] (fromPrecision n a b) := by
  refine .unless (by decide) ?_
  split
  · exact .raise (by decide)
  · exact .unless (by decide) .ok

theorem State.readCsr_raises (n : Nat) : Raises [.invalidParameter] (s.readCsr n) := by
  unfold State.readCsr
  split
  · exact .raise (by decide)
  · exact .ok

theorem State.viewRule_raises : Raises l s.viewRule := by
  unfold State.viewRule
  split
  · rename_i h
    exact (h ▸ s.w.view_raises).error
  · exact .ok

theorem State.handoffRule_raises : Raises [.noSpace] s.handoffRule := by
  refine .unless (by decide) ?_
  split
  · rename_i h
    exact (h ▸ s.w.view_raises).error
  · exact .ok

theorem State.loadRule_raises : Raises [.noSpace] s.loadRule := .unless (by decide) .ok

end

/-! ### How a decoded command ends -/

/-- Every command is its framing test and a rule that does not raise `IllegalCommand`. -/
theorem exec_performs (i : Instr) (s : State) : ∃ rule l,
    exec i s = s.perform (s.op.framedFor i) rule ∧ Raises l rule ∧ .illegalCommand ∉ l := by
  cases i with
  | rdcsr => exact ⟨_, _, rfl, .computing (State.readCsr_raises _), by decide⟩
  | clrerr => exact ⟨_, [], rfl, .ok, by decide⟩
  | winit => exact ⟨_, _, rfl, .writing (Writer.init_raises _ _), by decide⟩
  | walign => exact ⟨_, [], rfl, .ok, by decide⟩
  | wbits => exact ⟨_, _, rfl, .writing (Writer.writeBits_raises _ _), by decide⟩
  | wvaru => exact ⟨_, _, rfl, .writing (Writer.writeVarUnsigned_raises _), by decide⟩
  | wvars => exact ⟨_, _, rfl, .writing (Writer.writeVarSigned_raises _), by decide⟩
  | wbuf => exact ⟨_, _, rfl, .writing (Writer.writeBuffer_raises _ _ _), by decide⟩
  | wview => exact ⟨_, [], rfl, State.viewRule_raises, by decide⟩
  | handoff => exact ⟨_, _, rfl, State.handoffRule_raises, by decide⟩
  | rload => exact ⟨_, _, rfl, State.loadRule_raises, by decide⟩
  | wu8 | wu16 | wu32 | wu64 | wf16 | wf32 | wf64 =>
    exact ⟨_, _, rfl, .writing (Writer.writeUnsigned_raises _ _), by decide⟩
  | wi8 | wi16 | wi32 | wi64 =>
    exact ⟨_, _, rfl, .writing (Writer.writeSigned_raises _ _), by decide⟩
  | ralign => exact ⟨_, [], rfl, .ok, by decide⟩
  | rbits | pbits => exact ⟨_, _, rfl, .reading (Reader.readBits_raises _), by decide⟩
  | rvaru | pvaru => exact ⟨_, _, rfl, .reading Reader.readVarUnsigned_raises, by decide⟩
  | rvars | pvars => exact ⟨_, _, rfl, .reading Reader.readVarSigned_raises, by decide⟩
  | rbuf | pbuf => exact ⟨_, _, rfl, .reading (Reader.readBuffer_raises _ _), by decide⟩
  | ru8 | ru16 | ru32 | ru64 | rf16 | rf32 | rf64
  | pu8 | pu16 | pu32 | pu64 | pf16 | pf32 | pf64 =>
    exact ⟨_, _, rfl, .reading (Reader.readUnsigned_raises _), by decide⟩
  | ri8 | ri16 | ri32 | ri64 | pi8 | pi16 | pi32 | pi64 =>
    exact ⟨_, _, rfl, .reading (Reader.readSigned_raises _), by decide⟩
  | toprec => exact ⟨_, _, rfl, .computing (toPrecision_raises _ _ _), by decide⟩
  | fromprec => exact ⟨_, _, rfl, .computing (fromPrecision_raises _ _ _), by decide⟩
  | zigzag => exact ⟨_, _, rfl, .computing (zigzagValue_raises _), by decide⟩
  | unzigzag => exact ⟨_, _, rfl, .computing (unzigzagValue_raises _), by decide⟩

/-- A command whose framing is wrong ends in `IllegalCommand`. -/
theorem exec_of_not_framed {i : Instr} (h : s.op.framedFor i = false) :
    exec i s = .next (s.raise .illegalCommand) := by
  obtain ⟨rule, -, hexec, -⟩ := exec_performs i s
  rw [hexec, State.perform_illegal _ h]

/-- A command whose framing is right does not end in `IllegalCommand`. -/
theorem exec_last_of_framed {i : Instr} (hf : s.op.framedFor i = true) (h : exec i s = .next t) :
    t.status.last ≠ .illegalCommand := by
  obtain ⟨rule, l, hexec, hraises, hl⟩ := exec_performs i s
  rw [hexec] at h
  obtain ⟨-, e, -, rfl⟩ | ⟨-, st, rfl, rfl⟩ | ⟨hf', -⟩ := State.perform_next h
  · exact nofun
  · cases hraises with
    | raise hst => exact fun heq => hl (heq ▸ hst)
  · rw [hf] at hf'; cases hf'

end Sys2Proof.Machine

open Sys2Proof Sys2Proof.Machine

/-- Settles O4: a rejected word is test 1, 2 or 3, and of a decoded command only the framing is left. -/
theorem illegalTransactionsAreExactlyTheRejected :
    Obligations.IllegalTransactionsAreExactlyTheRejected := by
  intro s c rest h
  cases hd : decode c.cw with
  | error x => exact ⟨fun _ => step_of_badWord h hd, absurd (illegalTransaction_of_badWord hd)⟩
  | ok i =>
    rw [illegalTransaction_iff_of_decoded hd, step_of_decoded h hd]
    refine ⟨fun hf => ?_, fun hf => ⟨⟨i, rfl⟩, fun t => ?_⟩⟩
    · exact exec_of_not_framed (s := State.latch { s with pending := rest } c) hf
    · exact exec_last_of_framed (s := State.latch { s with pending := rest } c)
        (Bool.eq_true_of_not_eq_false hf)
end

section
/-! Operands a command does not use (spec/30_encoding.md R101).  With other operands a rule gives the same
result, but for the operands in the state of its effect (`Effect.withOperands`); and no command keeps its
operands, so it answers the same (`Ignores.perform`).  The one split over the instructions
(`exec_ignores_operands`) puts the operands that are used in place; the rest are read nowhere. -/

namespace Sys2Proof.Machine

variable {s : State} {o : Operands}

/-- The command answers the same in `s` with the operands `o`. -/
def Ignores (s : State) (o : Operands) (f : State → Host.Outcome State Fault Refusal) : Prop :=
  f { s with op := o } = f s

/-- The effect with other operands in its state. -/
def Effect.withOperands (o : Operands) (e : Effect) : Effect :=
  { e with state := { e.state with op := o } }

/-- A rule gives the same with the operands `o`, but for the operands in the state of its effect. -/
def RuleIgnores (s : State) (o : Operands) (rule : State → Result Effect) : Prop :=
  rule { s with op := o } = (rule s).map (Effect.withOperands o)

/-- No copy of the operands is kept (R21, R23), so two such results end in the same way. -/
theorem State.finish_withOperands (x : Result Effect) :
    State.finish { s with op := o } (x.map (Effect.withOperands o)) = s.finish x := by
  match x with
  | .ok e => rfl
  | .error (.raise st) => rfl
  | .error (.fault f) => rfl

theorem Ignores.perform {framed : State → Bool} {rule : State → Result Effect}
    (hf : framed { s with op := o } = framed s) (hr : RuleIgnores s o rule) :
    Ignores s o fun s => s.perform (framed s) (rule s) := by
  simp only [Ignores, State.perform, hf, show rule { s with op := o } = _ from hr]
  cases framed s with
  | true => exact State.finish_withOperands _
  | false => rfl

theorem RuleIgnores.writing {x : State → Result Writer} (hx : x { s with op := o } = x s) :
    RuleIgnores s o fun s => s.writing (x s) := by
  simp only [RuleIgnores, hx]
  cases x s <;> rfl

theorem RuleIgnores.reading {x : State → Result Reading} (peek : Bool)
    (hx : x { s with op := o } = x s) : RuleIgnores s o fun s => s.reading peek (x s) := by
  simp only [RuleIgnores, hx]
  cases x s with
  | error => rfl
  | ok => cases peek <;> rfl

theorem RuleIgnores.computing {x : State → Result Word} (hx : x { s with op := o } = x s) :
    RuleIgnores s o fun s => s.computing (x s) := by
  simp only [RuleIgnores, hx]
  cases x s <;> rfl

theorem RuleIgnores.viewRule : RuleIgnores s o State.viewRule := by
  unfold RuleIgnores State.viewRule
  cases s.w.view <;> rfl

theorem RuleIgnores.handoffRule : RuleIgnores s o State.handoffRule := by
  simp only [RuleIgnores, State.handoffRule]
  split_ifs
  · rfl
  · cases s.w.view <;> rfl

/-- `RLOAD` reads A and the payload. -/
theorem RuleIgnores.loadRule (ha : o.a = s.op.a) (hpin : o.pin = s.op.pin) :
    RuleIgnores s o State.loadRule := by
  simp only [RuleIgnores, State.loadRule, ha, hpin]
  split_ifs <;> rfl

/-- A buffer whose length stands in front of it is read without the operand A (R184). -/
theorem Reader.readBuffer_operand (r : Reader) {n : Nat} {a a' : Word} (h : n = 0 → a' = a) :
    r.readBuffer n a' = r.readBuffer n a := by
  by_cases hn : n = 0
  · rw [h hn]
  · have hlen : r.bufferLength n a' = r.bufferLength n a := by
      simp only [Reader.bufferLength, if_pos (Nat.pos_of_ne_zero hn)]
    unfold Reader.readBuffer
    rw [hlen]

/-- A command answers the same whatever the operands are that it does not use. -/
theorem exec_ignores_operands {i : Instr} (hpin : o.pin = s.op.pin)
    (ha : usesA i = true → o.a = s.op.a) (hb : usesB i = true → o.b = s.op.b) :
    Ignores s o (exec i) := by
  obtain ⟨a, b, pin⟩ := o
  obtain rfl : pin = s.op.pin := hpin
  cases i with
  | toprec | fromprec =>
    obtain rfl : a = s.op.a := ha rfl
    obtain rfl : b = s.op.b := hb (by simp [usesB, groupOf, Instr.opcode])
    rfl
  | winit | wbits | wvaru | wvars | wbuf
  | wu8 | wu16 | wu32 | wu64 | wi8 | wi16 | wi32 | wi64 | wf16 | wf32 | wf64 =>
    obtain rfl : a = s.op.a := ha rfl
    exact .perform rfl (.writing rfl)
  | zigzag | unzigzag =>
    obtain rfl : a = s.op.a := ha rfl
    exact .perform rfl (.computing rfl)
  | rload =>
    obtain rfl : a = s.op.a := ha rfl
    exact .perform rfl (.loadRule rfl rfl)
  | rbuf n | pbuf n =>
    refine .perform rfl (.reading _ (Reader.readBuffer_operand _ fun hn => ha ?_))
    exact beq_iff_eq.2 (BitVec.eq_of_toNat_eq hn)
  | walign => exact .perform rfl (.writing rfl)
  | ralign | rbits | rvaru | rvars
  | ru8 | ru16 | ru32 | ru64 | ri8 | ri16 | ri32 | ri64 | rf16 | rf32 | rf64
  | pbits | pvaru | pvars
  | pu8 | pu16 | pu32 | pu64 | pi8 | pi16 | pi32 | pi64 | pf16 | pf32 | pf64 =>
    exact .perform rfl (.reading _ rfl)
  | rdcsr => exact .perform rfl (.computing rfl)
  | clrerr => exact .perform rfl rfl
  | wview => exact .perform rfl .viewRule
  | handoff => exact .perform rfl .handoffRule

end Sys2Proof.Machine

open Sys2Proof Sys2Proof.Machine

/-- Settles O14, by the operands the command reads. -/
theorem unusedOperandsHaveNoEffect : Obligations.UnusedOperandsHaveNoEffect :=
  fun _ _ _ _ hpin ha hb h => (exec_ignores_operands hpin ha hb).trans h
end

section
/-! What the Writer's data commands write (spec/40_writer.md R130 to R150).  `WBITS` and the byte-level write
are described once, with their errors (`Writer.writeBits_of_fits`, `StoresOrNoSpace.of_byteWrite`); the
commands are tests in front of one of the two.  What stays of the message (R152) is a specification of the
rule's result (`Writer.Keeps`), proved for every data command by the one split over them
(`exec_keepsMessage`).  A list of bit fields (R153) appends its bits one field after the other
(`BitsAppended`). -/

namespace Sys2Proof.Machine

variable {p : Params} {w w' : Writer} {i : Instr} {s t : State} {n v : Nat} {safe : Prop}

/-! ### Command words -/

/-- A command's word as a number (R100). -/
theorem encode_toNat (i : Instr) :
    (encode i).toNat = i.opcode.toNat * 2 ^ 24 + i.count.toNat * 2 ^ 16 := by
  obtain ⟨hzero, hop, hcount⟩ : zeroField (encode i) = 0 ∧ opField (encode i) = i.opcode ∧
    countField (encode i) = i.count := Laws.ReservedBitsZero.fields i.opcode i.count
  rw [zeroField_eq_zero_iff] at hzero
  rw [← hop, ← hcount, opField_toNat, countField, BitVec.extractLsb'_toNat, Nat.shiftRight_eq_div_pow]
  omega

/-! ### How a rule of the Writer ends the command -/

section
variable {framed : Bool} {x : Result Writer} {e : Status}

/-- A Writer's rule that answers a Writer completes the command with it. -/
theorem State.perform_writing (hf : framed = true) (hx : x = .ok w') :
    s.perform framed (s.writing x) = .next (State.afterOk { s with w := w' } 0 []) := by
  subst hx
  exact State.perform_ok hf rfl

/-- A Writer's rule that raises an error ends the command in it. -/
theorem State.perform_writing_raise (hf : framed = true) (hx : x = .error (.raise e)) :
    s.perform framed (s.writing x) = .next (s.afterError e) :=
  State.perform_raise hf (State.writing_error.2 hx)

/-- A command with a Writer's rule that ended `OK` has the Writer the rule answered. -/
theorem State.of_perform_writing {P : Writer → Prop} (hx : Meets safe P x)
    (h : s.perform framed (s.writing x) = .next t) (hok : t.status.last = .ok) :
    ∃ w', x = .ok w' ∧ P w' ∧ t = State.afterOk { s with w := w' } 0 [] := by
  obtain ⟨-, e, he, rfl⟩ | ⟨-, st, he, rfl⟩ | ⟨-, rfl⟩ := State.perform_next h
  · obtain ⟨w', rfl, rfl⟩ := State.writing_ok he
    exact ⟨w', rfl, hx.of_ok, rfl⟩
  · obtain rfl := State.writing_error.1 he
    cases hx with
    | raise hne => exact absurd hok hne
  · cases hok

/-- The command stores the bytes its rule hands to the byte-level write (R130). -/
theorem StoresOrNoSpace.of_byteWrite {bytes : List Byte} (hi : s.Inv) (hf : framed = true)
    (hexec : exec i s = s.perform framed (s.writing x)) (hx : x = s.w.byteWrite s.params bytes) :
    StoresOrNoSpace i s bytes := by
  obtain ⟨-, hw, -⟩ := hi
  refine ⟨fun hn => ?_, fun hfits => ?_⟩
  · exact hexec.trans (State.perform_writing_raise hf (hx.trans (Writer.byteWrite_noSpace hn)))
  · obtain ⟨w', hw'⟩ := Writer.byteWrite_of_fits hfits
    obtain ⟨-, hwritten, -⟩ := Writer.byteWrite_ok hw hw'
    exact ⟨w', hexec.trans (State.perform_writing hf (hx.trans hw')), hwritten⟩

end

/-! ### The fixed-width writes -/

theorem Writer.writeUnsigned_overflow {k : Nat} {a : Word} (h : 2 ^ (8 * k) ≤ a.toNat) :
    w.writeUnsigned p k a = .error (.raise .overflow) := if_pos h

theorem Writer.writeUnsigned_of_lt {k : Nat} {a : Word} (h : a.toNat < 2 ^ (8 * k)) :
    w.writeUnsigned p k a = w.byteWrite p (bigEndianBytes a.toNat k) := by
  rw [← bytesBE_eq]
  exact if_neg (Nat.not_le.2 h)

theorem Writer.writeSigned_overflow {k : Nat} {a : Word} (h : ¬ inSignedRange (8 * k) a.toInt = true) :
    w.writeSigned p k a = .error (.raise .overflow) := if_neg h

theorem Writer.writeSigned_of_inRange {k : Nat} {a : Word} (h : inSignedRange (8 * k) a.toInt = true) :
    w.writeSigned p k a = w.byteWrite p (bigEndianBytes a.toNat k) := by
  rw [← bytesBE_eq]
  exact if_pos h

/-! ### `WBUF` -/

section
variable {a : Word} {pin : List Byte}

theorem Writer.writeBuffer_invalid (h : n ∉ [0, 1, 2, 4]) :
    w.writeBuffer p n a pin = .error (.raise .invalidParameter) := if_pos h

theorem Writer.writeBuffer_overflow (hn : n ∈ [1, 2, 4]) (ha : 2 ^ (8 * n) ≤ a.toNat) :
    w.writeBuffer p n a pin = .error (.raise .overflow) := by
  have hpos : 0 < n := Nat.pos_of_ne_zero fun h0 => absurd (h0 ▸ hn) (by decide)
  exact (if_neg (not_not.2 (List.mem_cons_of_mem 0 hn))).trans (if_pos ⟨hpos, ha⟩)

/-- With no length in front of it a payload of every length will do (R150). -/
theorem Writer.writeBuffer_of_fits (h : n = 0 ∨ n ∈ [1, 2, 4] ∧ a.toNat < 2 ^ (8 * n)) :
    w.writeBuffer p n a pin = w.byteWrite p (bigEndianBytes a.toNat n ++ pin) := by
  have hwidth : n ∈ Config.prefixWidths := by
    obtain rfl | ⟨hn, -⟩ := h
    · decide
    · exact List.mem_cons_of_mem 0 hn
  have hlen : ¬ (0 < n ∧ 2 ^ (8 * n) ≤ a.toNat) := by
    rintro ⟨hpos, hle⟩
    obtain rfl | ⟨-, hlt⟩ := h
    · exact absurd hpos (lt_irrefl 0)
    · exact absurd hlt (Nat.not_lt.2 hle)
  rw [← bytesBE_eq]
  exact (if_neg (not_not.2 hwidth)).trans (if_neg hlen)

end

/-! ### `WALIGN` -/

theorem Writer.align_of_aligned (h : w.bitOffset = 0) : w.align = w := if_pos h

theorem Writer.align_of_partial (h : w.bitOffset ≠ 0) :
    w.align = { w with offset := w.offset + 1, bitOffset := 0 } := if_neg h

theorem Writer.align_mem (w : Writer) : w.align.mem = w.mem := by
  unfold Writer.align
  split_ifs <;> rfl

/-! ### The cursor and the stream -/

theorem Writer.position_div (hi : w.Inv p) : w.position / 8 = w.offset := by
  obtain ⟨hb, -⟩ := hi
  unfold Writer.position
  omega

theorem Writer.position_mod (hi : w.Inv p) : w.position % 8 = w.bitOffset := by
  obtain ⟨hb, -⟩ := hi
  unfold Writer.position
  omega

/-- The written length is the bytes the bits before the cursor touch (R33). -/
theorem Writer.len_eq_position (hi : w.Inv p) : w.len = (w.position + 7) / 8 := by
  obtain ⟨hb, -⟩ := hi
  unfold Writer.len Writer.position
  split_ifs <;> omega

/-- Behind the cursor the stream is 0, to the end of its last byte (R35 item 5). -/
theorem Writer.bitAt_behind (hi : w.Inv p) {x : Nat} (hx : w.position ≤ x) (hlen : x < 8 * w.len) :
    bitAt w.mem x = 0 := by
  rw [Writer.len_eq_position hi] at hlen
  obtain ⟨-, hclean⟩ := Writer.cleanAt hi
  have hbyte : x / 8 = w.position / 8 := by omega
  obtain ⟨c, hc⟩ := Nat.dvd_of_mod_eq_zero (hclean (by omega))
  have hpow : 2 ^ (8 - w.position % 8) = 2 ^ (7 - x % 8) * (2 * 2 ^ (x % 8 - w.position % 8)) := by
    rw [← pow_succ', ← pow_add]
    congr 1
    omega
  rw [bitAt, hbyte, hc, hpow, Nat.mul_assoc, Nat.mul_div_cancel_left _ (Nat.two_pow_pos _), Nat.mul_assoc,
    Nat.mul_mod_right]

/-! ### `WBITS` -/

/-- `w'` is the Writer after `WBITS n` with the value `v` (R134): the field at the cursor, most significant
bit first, the cursor behind it, zeros behind that, nothing else changed. -/
structure BitsWritten (p : Params) (w w' : Writer) (n v : Nat) : Prop where
  offset : w'.offset = (w.position + n) / 8
  bitOffset : w'.bitOffset = (w.position + n) % 8
  expand : w'.expand = w.expand
  still : n = 0 → w' = w
  capacity : n ≠ 0 → CapacityAfter p w ((w.position + n + 7) / 8) w'.cap
  field : ∀ j < n, bitAt w'.mem (w.position + j) = (v.testBit (n - 1 - j)).toNat
  before : ∀ x < w.position, bitAt w'.mem x = bitAt w.mem x
  behind : ∀ x, w.position + n ≤ x → x < 8 * w'.len → bitAt w'.mem x = 0
  outside : SameOutside w.mem w'.mem (w.position / 8) ((w.position + n + 7) / 8 - w.position / 8)

theorem Writer.writeBits_invalid (h : 32 < n) :
    w.writeBits p n v = .error (.raise .invalidParameter) := if_pos h

theorem Writer.writeBits_overflow (hn : n ≤ 32) (hv : 2 ^ n ≤ v) :
    w.writeBits p n v = .error (.raise .overflow) :=
  (if_neg (Nat.not_lt.2 hn)).trans (if_pos hv)

theorem Writer.writeBits_noSpace (hn : n ≤ 32) (hv : v < 2 ^ n) (h0 : n ≠ 0)
    (hfits : ¬ w.Fits p ((w.position + n + 7) / 8)) :
    w.writeBits p n v = .error (.raise .noSpace) := by
  rw [Writer.writeBits, if_neg (show ¬ Config.bitsMax < n from Nat.not_lt.2 hn),
    if_neg (Nat.not_le.2 hv), if_neg h0, Writer.ensure_noSpace hfits]

/-- The Writer in which `WBITS` stores its bits: the capacity alone is another one, and only where there are
bits to store. -/
theorem Writer.room_of_fits (hi : w.Inv p) (hfits : n = 0 ∨ w.Fits p ((w.position + n + 7) / 8)) :
    ∃ c, (if n = 0 then .ok w else w.ensure p ((w.position + n + 7) / 8)) = .ok { w with cap := c } ∧
      (n = 0 → c = w.cap) ∧ (n ≠ 0 → CapacityAfter p w ((w.position + n + 7) / 8) c) := by
  by_cases h0 : n = 0
  · exact ⟨w.cap, if_pos h0, fun _ => rfl, fun hne => absurd h0 hne⟩
  · obtain ⟨c, hc⟩ := Writer.ensure_of_fits (hfits.resolve_left h0)
    obtain ⟨-, c', heq, hcap, -⟩ := Writer.ensure_ok hi hc
    obtain rfl : c = c' := congrArg Writer.cap heq
    exact ⟨c, (if_neg h0).trans hc, fun h => absurd h h0, fun _ => hcap⟩

/-- With its count and value in range and room for the bits, `WBITS` writes them. -/
theorem Writer.writeBits_of_fits (hi : w.Inv p) (hn : n ≤ 32) (hv : v < 2 ^ n)
    (hfits : n = 0 ∨ w.Fits p ((w.position + n + 7) / 8)) :
    ∃ w', w.writeBits p n v = .ok w' ∧ BitsWritten p w w' n v := by
  obtain ⟨c, hroom, hsame, hcap⟩ := Writer.room_of_fits hi hfits
  obtain ⟨m, hm, -, hfield, hbefore, houtside⟩ := Memory.putBits_spec v n (Writer.cleanAt hi)
  have hok : w.writeBits p n v = .ok { w with
      cap := c, mem := m, offset := (w.position + n) / 8, bitOffset := (w.position + n) % 8 } := by
    rw [Writer.writeBits, if_neg (show ¬ Config.bitsMax < n from Nat.not_lt.2 hn),
      if_neg (Nat.not_le.2 hv), hroom]
    simp only [hm]
  have hi' := (Meets.of_ok (hok ▸ Writer.writeBits_meets n v)).inv hi
  refine ⟨_, hok, ⟨rfl, rfl, rfl, ?_, hcap, hfield, hbefore, fun x hx => ?_, fun x hx => ?_⟩⟩
  · rintro rfl
    obtain rfl := Except.ok.inj hm
    obtain rfl := hsame rfl
    simp only [Nat.add_zero, Writer.position_div hi, Writer.position_mod hi]
  · refine Writer.bitAt_behind hi' (le_trans (le_of_eq ?_) hx)
    simp only [Writer.position]
    omega
  · exact houtside x (by omega)

/-- A `WBITS` that answers a Writer has written its bits. -/
theorem Writer.writeBits_ok (hi : w.Inv p) (h : w.writeBits p n v = .ok w') : BitsWritten p w w' n v := by
  have hn : n ≤ 32 := by
    by_contra hn
    rw [Writer.writeBits_invalid (by omega)] at h; cases h
  have hv : v < 2 ^ n := by
    by_contra hv
    rw [Writer.writeBits_overflow hn (by omega)] at h; cases h
  have hfits : n = 0 ∨ w.Fits p ((w.position + n + 7) / 8) := by
    by_contra hno
    obtain ⟨h0, hno⟩ := not_or.1 hno
    rw [Writer.writeBits_noSpace hn hv h0 hno] at h; cases h
  obtain ⟨w₁, hw₁, hbits⟩ := Writer.writeBits_of_fits hi hn hv hfits
  obtain rfl := Except.ok.inj (h.symm.trans hw₁)
  exact hbits

/-! ### What stays of the message (R152) -/

/-- The Writer keeps its flag, the bytes below `len` and the bits before its cursor. -/
structure Writer.Keeps (w : Writer) (len : Nat) (w' : Writer) : Prop where
  expand : w'.expand = w.expand
  bytes : ∀ a < len, w'.mem.read a = w.mem.read a
  bits : ∀ x < w.position, bitAt w'.mem x = bitAt w.mem x

/-- The bits of a byte are those it had if the byte reads as it did. -/
theorem bitAt_congr {m m' : Memory} {x : Nat} (h : m'.read (x / 8) = m.read (x / 8)) :
    bitAt m' x = bitAt m x := by
  rw [bitAt, bitAt, byteAt, byteAt, h]

/-- To keep the whole message is to keep its bits. -/
theorem Writer.Keeps.of_bytes (hi : w.Inv p) (he : w'.expand = w.expand)
    (hbytes : ∀ a < w.len, w'.mem.read a = w.mem.read a) : w.Keeps w.len w' where
  expand := he
  bytes := hbytes
  bits x hx := bitAt_congr (hbytes _ (by
    have := Writer.position_le_start hi
    rw [Writer.len_eq_start]
    omega))

theorem Writer.align_keeps (hi : w.Inv p) : w.Keeps w.len w.align :=
  .of_bytes hi (Writer.align_moves.expand hi) fun _ _ => by rw [Writer.align_mem]

/-- The byte-level write starts at the end of the message. -/
theorem Writer.byteWrite_keeps (hi : w.Inv p) (bytes : List Byte) :
    Meets safe (w.Keeps w.len) (w.byteWrite p bytes) := by
  cases h : w.byteWrite p bytes with
  | ok w' =>
    obtain ⟨-, ⟨-, -, he, -, -, hsame⟩, -⟩ := Writer.byteWrite_ok hi h
    exact .ok (.of_bytes hi he fun a ha => hsame a (.inl ha))
  | error e =>
    rw [Writer.byteWrite_error h]
    exact .raise (by decide)

/-- `WBITS` changes no byte below the cursor's. -/
theorem Writer.writeBits_keeps (hi : w.Inv p) (n v : Nat) :
    Meets (w.Inv p) (w.Keeps w.offset) (w.writeBits p n v) := by
  have hmeets := Writer.writeBits_meets (p := p) (w := w) n v
  cases h : w.writeBits p n v with
  | ok w' =>
    have hbits := Writer.writeBits_ok hi h
    exact .ok ⟨hbits.expand,
      fun a ha => hbits.outside a (.inl (ha.trans_eq (Writer.position_div hi).symm)), hbits.before⟩
  | error e => exact (h ▸ hmeets).error

/-- The bytes a Writer data command leaves: those below the cursor's for `WBITS`, and else all of the
message. -/
def keptLength (i : Instr) (w : Writer) : Nat :=
  match i with
  | .wbits _ => w.offset
  | _ => w.len

theorem keptLength_of_ne_wbits (h : ∀ n, i ≠ .wbits n) (w : Writer) : keptLength i w = w.len := by
  unfold keptLength
  split
  · exact absurd rfl (h _)
  · rfl

theorem offset_le_keptLength (i : Instr) (w : Writer) : w.offset ≤ keptLength i w := by
  unfold keptLength
  split
  · exact le_rfl
  · exact Nat.le_add_right _ _

/-- Every Writer data command is a rule of the Writer that keeps the message. -/
theorem exec_keepsMessage (hs : s.Inv) (hi : (mirrorOf i).isSome = true) : ∃ framed x,
    exec i s = s.perform framed (s.writing x) ∧
    Meets (s.w.Inv s.params) (s.w.Keeps (keptLength i s.w)) x := by
  obtain ⟨-, hw, -⟩ := hs
  have store := fun bytes => Writer.byteWrite_keeps (safe := s.w.Inv s.params) hw bytes
  cases i with
  | walign => exact ⟨_, _, rfl, .ok (Writer.align_keeps hw)⟩
  | wbits => exact ⟨_, _, rfl, Writer.writeBits_keeps hw _ _⟩
  | wu8 | wu16 | wu32 | wu64 | wf16 | wf32 | wf64 | wvaru =>
    exact ⟨_, _, rfl, .unless (by decide) fun _ => store _⟩
  | wi8 | wi16 | wi32 | wi64 | wvars =>
    exact ⟨_, _, rfl, .provided (by decide) fun _ => store _⟩
  | wbuf => exact ⟨_, _, rfl, .unless (by decide) fun _ => .unless (by decide) fun _ => store _⟩
  | _ => cases hi

/-! ### Lists of bit fields (R153) -/

/-- The bits of an `n`-bit field, most significant first (R92). -/
def bitsOf (n v : Nat) : List Bool := (List.range n).map fun j => v.testBit (n - 1 - j)

@[simp] theorem bitsOf_length (n v : Nat) : (bitsOf n v).length = n := by simp [bitsOf]

theorem fieldBits_cons (f : Count × Word) (fields : List (Count × Word)) :
    fieldBits (f :: fields) = bitsOf f.1.toNat f.2.toNat ++ fieldBits fields := List.flatMap_cons

theorem fieldBits_length (fields : List (Count × Word)) :
    (fieldBits fields).length = (fields.map fun f => f.1.toNat).sum := by
  induction fields with
  | nil => rfl
  | cons f fields ih => rw [fieldBits_cons, List.length_append, bitsOf_length, ih]; rfl

/-- `w'` is a Writer with the bits of `w` before its cursor, then `bits`, then its cursor. -/
structure BitsAppended (w w' : Writer) (bits : List Bool) : Prop where
  position : w'.position = w.position + bits.length
  before : ∀ x < w.position, bitAt w'.mem x = bitAt w.mem x
  bits : ∀ j b, bits[j]? = some b → bitAt w'.mem (w.position + j) = b.toNat

theorem BitsAppended.nil (w : Writer) : BitsAppended w w [] := ⟨rfl, fun _ _ => rfl, by simp⟩

theorem BitsAppended.append {w₁ w₂ : Writer} {bits bits' : List Bool} (h : BitsAppended w w₁ bits)
    (h' : BitsAppended w₁ w₂ bits') : BitsAppended w w₂ (bits ++ bits') where
  position := by rw [h'.position, h.position, List.length_append, Nat.add_assoc]
  before x hx := (h'.before x (by have := h.position; omega)).trans (h.before x hx)
  bits j b hj := by
    have hpos := h.position
    by_cases hlt : j < bits.length
    · rw [List.getElem?_append_left hlt] at hj
      exact (h'.before _ (by omega)).trans (h.bits j b hj)
    · rw [List.getElem?_append_right (by omega)] at hj
      rw [← h'.bits _ b hj]
      congr 1
      omega

theorem BitsWritten.appended (h : BitsWritten p w w' n v) : BitsAppended w w' (bitsOf n v) where
  position := by
    rw [Writer.position, h.offset, h.bitOffset, bitsOf_length]
    omega
  before := h.before
  bits j b hj := by
    obtain ⟨hlt, rfl⟩ := List.getElem?_eq_some_iff.1 hj
    rw [bitsOf_length] at hlt
    rw [h.field j hlt]
    simp [bitsOf]

/-- The `WBITS` that writes a field. -/
def fieldWrite (b : Word) (f : Count × Word) : Instr × Operands :=
  (.wbits f.1, { a := f.2, b := b, pin := [] })

theorem runOk_cons {c : Instr × Operands} {rest : List (Instr × Operands)}
    (h : runOk (c :: rest) s = some t) :
    ∃ u, exec c.1 { s with op := c.2 } = .next u ∧ u.status.last = .ok ∧ runOk rest u = some t := by
  rw [runOk] at h
  split at h
  · rename_i u hu
    split_ifs at h with hok
    exact ⟨u, hu, hok, h⟩
  · cases h
  · cases h

/-- Bit fields that all complete append their bits in order, and the invariants still hold. -/
theorem runOk_fields {fields : List (Count × Word)} {b : Word} (hs : s.Inv)
    (h : runOk (fields.map (fieldWrite b)) s = some t) :
    t.Inv ∧ BitsAppended s.w t.w (fieldBits fields) := by
  induction fields generalizing s with
  | nil =>
    obtain rfl := Option.some.inj h
    exact ⟨hs, .nil _⟩
  | cons f fields ih =>
    obtain ⟨u, hu, hok, hrest⟩ := runOk_cons h
    obtain ⟨hp, hw, hr⟩ := hs
    obtain ⟨w', hx, hmoves, rfl⟩ := State.of_perform_writing (Writer.writeBits_meets _ _) hu hok
    obtain ⟨ht, hbits⟩ := ih (s := State.afterOk { s with op := (fieldWrite b f).2, w := w' } 0 [])
      ⟨hp, hmoves.inv hw, hr⟩ hrest
    rw [fieldBits_cons]
    exact ⟨ht, (Writer.writeBits_ok hw hx).appended.append hbits⟩

end Sys2Proof.Machine

open Sys2Proof Sys2Proof.Machine

/-- Settles O22: an error leaves the Writer, and the rule of every data command keeps the message. -/
theorem writerDataCommandsKeepWhatIsWritten : Obligations.WriterDataCommandsKeepWhatIsWritten := by
  intro i s t hs hi h
  obtain ⟨framed, x, hexec, hkeeps⟩ := exec_keepsMessage hs hi
  rw [hexec] at h
  obtain ⟨-, e, he, rfl⟩ | ⟨-, st, -, rfl⟩ | ⟨-, rfl⟩ := State.perform_next h
  · obtain ⟨w', rfl, rfl⟩ := State.writing_ok he
    obtain ⟨hexpand, hbytes, hbits⟩ := hkeeps.of_ok
    exact ⟨rfl, hexpand, fun a ha => hbytes a (ha.trans_le (offset_le_keptLength i s.w)), hbits,
      fun hne a ha => hbytes a (ha.trans_eq (keptLength_of_ne_wbits hne s.w).symm)⟩
  · exact ⟨rfl, rfl, fun _ _ => rfl, fun _ _ => rfl, fun _ _ _ => rfl⟩
  · exact ⟨rfl, rfl, fun _ _ => rfl, fun _ _ => rfl, fun _ _ _ => rfl⟩

/-- Settles O26, by the outcomes of `Writer.writeBits`. -/
theorem wbitsPlacesTheFieldAtTheCursor : Obligations.WbitsPlacesTheFieldAtTheCursor := by
  rintro n s ⟨-, hw, -⟩ hpin
  have hf : s.op.noPayload = true := (Operands.noPayload_iff _).2 hpin
  refine ⟨by simp [encode_toNat, Instr.opcode, Instr.count], fun hn => ?_, fun hn hv => ?_,
    fun hn hv h0 hfits => ?_, fun hn hv hfits => ?_⟩
  · exact State.perform_writing_raise hf (Writer.writeBits_invalid hn)
  · exact State.perform_writing_raise hf (Writer.writeBits_overflow hn hv)
  · exact State.perform_writing_raise hf (Writer.writeBits_noSpace hn hv h0 hfits)
  · obtain ⟨w', hok, hbits⟩ := Writer.writeBits_of_fits hw hn hv hfits
    exact ⟨w', State.perform_writing hf hok, hbits.offset, hbits.bitOffset, hbits.expand, hbits.still,
      hbits.capacity, hbits.field, hbits.before, hbits.behind, hbits.outside⟩

/-- Settles O27: the seven commands are the unsigned write of their widths. -/
theorem unsignedWritesStoreBigEndianBytes : Obligations.UnsignedWritesStoreBigEndianBytes := by
  intro i k cw hrow
  obtain ⟨hcw, hexec⟩ : encode i = cw ∧ ∀ s, exec i s =
      s.perform s.op.noPayload (s.writing (s.w.writeUnsigned s.params k s.op.a)) := by
    simp only [List.mem_cons, Prod.mk.injEq, List.not_mem_nil, or_false] at hrow
    obtain ⟨rfl, rfl, rfl⟩ | ⟨rfl, rfl, rfl⟩ | ⟨rfl, rfl, rfl⟩ | ⟨rfl, rfl, rfl⟩ | ⟨rfl, rfl, rfl⟩ |
      ⟨rfl, rfl, rfl⟩ | ⟨rfl, rfl, rfl⟩ := hrow <;> exact ⟨rfl, fun _ => rfl⟩
  refine ⟨hcw, fun s hs hpin => ?_⟩
  have hf : s.op.noPayload = true := (Operands.noPayload_iff _).2 hpin
  exact ⟨fun ha => (hexec s).trans (State.perform_writing_raise hf (Writer.writeUnsigned_overflow ha)),
    fun ha => .of_byteWrite hs hf (hexec s) (Writer.writeUnsigned_of_lt ha)⟩

/-- Settles O28: the four commands are the signed write of their widths. -/
theorem signedWritesStoreTwosComplementBytes : Obligations.SignedWritesStoreTwosComplementBytes := by
  intro i k cw hrow
  obtain ⟨hcw, hexec⟩ : encode i = cw ∧ ∀ s, exec i s =
      s.perform s.op.noPayload (s.writing (s.w.writeSigned s.params k s.op.a)) := by
    simp only [List.mem_cons, Prod.mk.injEq, List.not_mem_nil, or_false] at hrow
    obtain ⟨rfl, rfl, rfl⟩ | ⟨rfl, rfl, rfl⟩ | ⟨rfl, rfl, rfl⟩ | ⟨rfl, rfl, rfl⟩ := hrow <;>
      exact ⟨rfl, fun _ => rfl⟩
  refine ⟨hcw, fun s hs hpin => ?_⟩
  have hf : s.op.noPayload = true := (Operands.noPayload_iff _).2 hpin
  refine ⟨fun hout => ?_, fun hlo hhi => ?_⟩
  · refine (hexec s).trans (State.perform_writing_raise hf (Writer.writeSigned_overflow ?_))
    rw [inSignedRange_iff]
    omega
  · exact .of_byteWrite hs hf (hexec s)
      (Writer.writeSigned_of_inRange ((inSignedRange_iff _ _).2 ⟨hlo, hhi⟩))

/-- Settles O29, by the framing test and the outcomes of `Writer.writeBuffer`. -/
theorem wbufStoresPrefixAndPayload : Obligations.WbufStoresPrefixAndPayload := by
  refine fun n s hs => ⟨by simp [encode_toNat, Instr.opcode, Instr.count], fun hlen => ?_, fun hlen => ?_⟩
  · exact State.perform_illegal _ (Bool.eq_false_iff.2 (mt (Operands.payloadOfLengthA_iff _).1 hlen))
  have hf : s.op.payloadOfLengthA = true := (Operands.payloadOfLengthA_iff _).2 hlen
  exact ⟨fun hn => State.perform_writing_raise hf (Writer.writeBuffer_invalid hn),
    fun hn ha => State.perform_writing_raise hf (Writer.writeBuffer_overflow hn ha),
    fun h => .of_byteWrite hs hf rfl (Writer.writeBuffer_of_fits h)⟩

/-- Settles O56: the fields' bits stand in front of the cursor, and behind it the stream is 0. -/
theorem bitFieldsGiveTheShortestStream : Obligations.BitFieldsGiveTheShortestStream := by
  intro fields b s t hs h0 h
  obtain ⟨⟨-, hw, -⟩, happended⟩ := runOk_fields (b := b) hs h
  have hpos : t.w.position = (fieldBits fields).length := by rw [happended.position, h0, Nat.zero_add]
  refine ⟨by rw [Writer.len_eq_position hw, hpos, fieldBits_length], fun x hx => ?_⟩
  cases hbit : (fieldBits fields)[x]? with
  | some bit =>
    have hfield := happended.bits x bit hbit
    rwa [h0, Nat.zero_add] at hfield
  | none =>
    have hbehind := List.getElem?_eq_none_iff.1 hbit
    exact Writer.bitAt_behind hw (hpos.trans_le hbehind) hx

/-- Settles O25, by the two cases of `Writer.align`. -/
theorem walignMovesToTheNextByte : Obligations.WalignMovesToTheNextByte := by
  refine ⟨rfl, fun s hpin => ?_⟩
  have hf : s.op.noPayload = true := (Operands.noPayload_iff _).2 hpin
  exact ⟨fun h => State.perform_writing hf (congrArg Except.ok (Writer.align_of_partial h)),
    fun h => State.perform_writing hf (congrArg Except.ok (Writer.align_of_aligned h))⟩
end

section
/-! What the Reader's data commands read (spec/41_reader.md R170 to R201).  Each rule of the Reader is
described once, with its errors; a read and its peek run the same rule and differ only in the Reader they
leave (`exec_peek`), so every statement on both is two uses of one equation. -/

namespace Sys2Proof.Machine

variable {p : Params} {r : Reader} {i j : Instr} {s t : State} {n k : Nat} {a : Word}

/-! ### How a rule of the Reader ends the command -/

section
variable {peek : Bool} {x : Result Reading} {d : Reading} {e : Status}

/-- A Reader command whose rule answers a reading completes with it; a peek leaves the Reader. -/
theorem EndsOk.of_reading (hexec : exec i s = s.perform s.op.noPayload (s.reading peek x))
    (hpin : s.op.pin = []) (hx : x = .ok d) :
    EndsOk i s (if peek then s else { s with r := d.reader }) d.q d.pout :=
  hexec.trans (State.perform_reading peek hpin hx)

/-- A Reader command whose rule raises an error ends in it. -/
theorem EndsInError.of_reading (hexec : exec i s = s.perform s.op.noPayload (s.reading peek x))
    (hpin : s.op.pin = []) (hx : x = .error (.raise e)) : EndsInError i s e :=
  hexec.trans (State.perform_raise ((Operands.noPayload_iff _).2 hpin) (State.reading_error.2 hx))

/-- Where a rule ends the read with a next state, it ends the peek with the same one, the Reader as it
was (R186). -/
theorem State.perform_peek {framed : Bool} (h : s.perform framed (s.reading false x) = .next t) :
    s.perform framed (s.reading true x) = .next { t with r := s.r } ∧
    { t with r := s.r } = { s with
      status := t.status, q := t.q, op := .absent, completions := t.completions } := by
  obtain ⟨rfl, e, he, rfl⟩ | ⟨rfl, e, he, rfl⟩ | ⟨rfl, rfl⟩ := State.perform_next h
  · obtain ⟨d, rfl, rfl⟩ := State.reading_ok he
    exact ⟨rfl, rfl⟩
  · obtain rfl := State.reading_error.1 he
    exact ⟨rfl, rfl⟩
  · exact ⟨rfl, rfl⟩

end

/-- A read and its peek run one rule of the Reader; the peek's opcode is 0x20 above the read's (R103). -/
theorem exec_peek (h : peekOf i = some j) (s : State) : ∃ x,
    exec i s = s.perform s.op.noPayload (s.reading false x) ∧
    exec j s = s.perform s.op.noPayload (s.reading true x) ∧ j.opcode = i.opcode + 0x20 := by
  cases i with
  | rbits | rvaru | rvars | rbuf
  | ru8 | ru16 | ru32 | ru64 | ri8 | ri16 | ri32 | ri64 | rf16 | rf32 | rf64 =>
    cases h
    exact ⟨_, rfl, rfl, rfl⟩
  | _ => cases h

/-! ### `RALIGN` -/

theorem Reader.align_of_aligned (h : r.bitOffset = 0) : r.align = r := if_pos h

theorem Reader.align_of_partial (h : r.bitOffset ≠ 0) : r.align = r.seekByte (r.offset + 1) := if_neg h

theorem ralign_of_aligned (hpin : s.op.pin = []) (h : s.r.bitOffset = 0) : EndsOk .ralign s s 0 [] := by
  have hend := EndsOk.of_reading (i := .ralign) rfl hpin rfl
  rwa [Reader.align_of_aligned h] at hend

theorem ralign_of_partial (hpin : s.op.pin = []) (h : s.r.bitOffset ≠ 0) :
    EndsOk .ralign s { s with r := s.r.seekByte (s.r.offset + 1) } 0 [] := by
  have hend := EndsOk.of_reading (i := .ralign) rfl hpin rfl
  rwa [Reader.align_of_partial h] at hend

/-! ### `RBITS` -/

theorem Reader.readBits_invalid (h : 32 < n) : r.readBits n = .error (.raise .invalidParameter) :=
  if_pos h

theorem Reader.readBits_outOfBounds (hn : n ≤ 32) (h : 8 * r.len < r.position + n) :
    r.readBits n = .error (.raise .outOfBounds) :=
  (if_neg (Nat.not_lt.2 hn)).trans (if_pos h)

/-! ### The fixed-width reads -/

/-- The bytes at an address, as a number, are less than 2^(8k). -/
theorem bigEndian_lt (m : Memory) (a k : Nat) : bigEndian m a k < 2 ^ (8 * k) :=
  bitField_bytes m a k ▸ bitField_lt m (8 * a) (8 * k)

/-- The byte-level read inside the buffer answers bytes of the big-endian value there (R170). -/
theorem Reader.byteRead_value (hi : r.Inv p) (h : r.start + k ≤ r.len) :
    ∃ bs, r.byteRead k = .ok (bs, r.seekByte (r.start + k)) ∧ be bs = bigEndian r.mem r.start k := by
  obtain ⟨bs, hread, rfl, hholds⟩ := Reader.byteRead_ok hi h
  exact ⟨bs, hread, be_eq_bigEndian hholds⟩

theorem Reader.readUnsigned_ok (hi : r.Inv p) (h : r.start + k ≤ r.len) :
    r.readUnsigned k = .ok
      { reader := r.seekByte (r.start + k)
        q := BitVec.ofNat 64 (bigEndian r.mem r.start k)
        pout := [] } := by
  obtain ⟨bs, hread, hbe⟩ := Reader.byteRead_value hi h
  simp only [Reader.readUnsigned, hread, hbe]

theorem Reader.readUnsigned_outOfBounds (h : r.len < r.start + k) :
    r.readUnsigned k = .error (.raise .outOfBounds) := by
  simp only [Reader.readUnsigned, Reader.byteRead_outOfBounds h]

theorem Reader.readSigned_ok (hi : r.Inv p) (h : r.start + k ≤ r.len) :
    r.readSigned k = .ok
      { reader := r.seekByte (r.start + k)
        q := sext64 (bigEndian r.mem r.start k) (8 * k)
        pout := [] } := by
  obtain ⟨bs, hread, hbe⟩ := Reader.byteRead_value hi h
  simp only [Reader.readSigned, hread, hbe]

theorem Reader.readSigned_outOfBounds (h : r.len < r.start + k) :
    r.readSigned k = .error (.raise .outOfBounds) := by
  simp only [Reader.readSigned, Reader.byteRead_outOfBounds h]

/-- A `w`-bit pattern denotes a number of the `w`-bit signed range (R9). -/
theorem signedOf_inRange {w v : Nat} (hw : 0 < w) (hv : v < 2 ^ w) :
    -(2 ^ (w - 1)) ≤ signedOf w v ∧ signedOf w v ≤ 2 ^ (w - 1) - 1 := by
  obtain ⟨w, rfl⟩ : ∃ w', w = w' + 1 := ⟨w - 1, by omega⟩
  rw [pow_succ] at hv
  unfold signedOf
  rw [Nat.add_sub_cancel, pow_succ]
  have hpow : ((2 ^ w : Nat) : Int) = 2 ^ w := by push_cast; rfl
  split_ifs with h <;> omega

/-- A number of a signed range of at most 64 bits is the signed reading of its 64-bit pattern. -/
theorem toInt_ofInt_of_inRange {w : Nat} {x : Int} (hw : w ≤ 64) (hlo : -(2 ^ (w - 1)) ≤ x)
    (hhi : x ≤ 2 ^ (w - 1) - 1) : (BitVec.ofInt 64 x).toInt = x := by
  have hpow : (2 : Int) ^ (w - 1) ≤ 2 ^ 63 := pow_le_pow_right₀ (by norm_num) (by omega)
  rw [BitVec.toInt_ofInt]
  exact Int.bmod_eq_of_le (by omega) (by omega)

/-- Sign extension keeps the number a pattern denotes (R9). -/
theorem sext64_toInt {w v : Nat} (hw0 : 0 < w) (hw : w ≤ 64) (hv : v < 2 ^ w) :
    (sext64 v w).toInt = twosComplement w v :=
  (signedOf_inRange hw0 hv).elim (toInt_ofInt_of_inRange hw)

/-- How a command that is the unsigned read of `k` bytes, or its peek, ends. -/
theorem unsignedReading_ends {peek : Bool} (hi : s.r.Inv s.params) (hpin : s.op.pin = [])
    (hexec : exec i s = s.perform s.op.noPayload (s.reading peek (s.r.readUnsigned k))) :
    (s.r.len < s.r.start + k → EndsInError i s .outOfBounds) ∧
    (s.r.start + k ≤ s.r.len →
      EndsOk i s (if peek then s else { s with r := s.r.seekByte (s.r.start + k) })
        (BitVec.ofNat 64 (bigEndian s.r.mem s.r.start k)) []) :=
  ⟨fun hlen => .of_reading hexec hpin (Reader.readUnsigned_outOfBounds hlen),
    fun hlen => .of_reading hexec hpin (Reader.readUnsigned_ok hi hlen)⟩

/-- How a command that is the signed read of `k` bytes, or its peek, ends. -/
theorem signedReading_ends {peek : Bool} (hi : s.r.Inv s.params) (hpin : s.op.pin = [])
    (hk : k ∈ [1, 2, 4, 8])
    (hexec : exec i s = s.perform s.op.noPayload (s.reading peek (s.r.readSigned k))) :
    (s.r.len < s.r.start + k → EndsInError i s .outOfBounds) ∧
    (s.r.start + k ≤ s.r.len → ∃ q : Word,
      q.toInt = twosComplement (8 * k) (bigEndian s.r.mem s.r.start k) ∧
      EndsOk i s (if peek then s else { s with r := s.r.seekByte (s.r.start + k) }) q []) := by
  obtain ⟨hk0, hk64⟩ : 0 < 8 * k ∧ 8 * k ≤ 64 :=
    (by decide : ∀ k ∈ [1, 2, 4, 8], 0 < 8 * k ∧ 8 * k ≤ 64) k hk
  exact ⟨fun hlen => .of_reading hexec hpin (Reader.readSigned_outOfBounds hlen),
    fun hlen => ⟨_, sext64_toInt hk0 hk64 (bigEndian_lt _ _ _),
      .of_reading hexec hpin (Reader.readSigned_ok hi hlen)⟩⟩

/-! ### `RBUF` -/

/-- The length a buffer read announces: the operand A, or the number its first `n` bytes hold (R184). -/
def Reader.announcedLength (r : Reader) (n : Nat) (a : Word) : Nat :=
  if n = 0 then a.toNat else bigEndian r.mem r.start n

theorem Reader.bufferLength_ok (hi : r.Inv p) (h : r.start + n ≤ r.len) :
    r.bufferLength n a = .ok (r.announcedLength n a) := by
  by_cases hn : n = 0
  · simp only [Reader.bufferLength, Reader.announcedLength, hn, lt_irrefl, if_false, if_true]
  · obtain ⟨bs, hread, rfl, hholds⟩ := Reader.readBytes_ok hi h
    simp only [Reader.bufferLength, Reader.announcedLength, if_pos (Nat.pos_of_ne_zero hn), if_neg hn,
      hread, be_eq_bigEndian hholds]

theorem Reader.readBuffer_invalid (h : n ∉ [0, 1, 2, 4]) :
    r.readBuffer n a = .error (.raise .invalidParameter) := if_pos h

theorem Reader.readBuffer_outOfBounds (hi : r.Inv p) (hn : n ∈ [0, 1, 2, 4])
    (h : r.len < r.start + n + r.announcedLength n a) :
    r.readBuffer n a = .error (.raise .outOfBounds) := by
  refine (if_neg (not_not.2 hn)).trans ?_
  by_cases hfront : r.len < r.start + n
  · exact if_pos hfront
  · simp only [if_neg hfront, Reader.bufferLength_ok hi (Nat.le_of_not_lt hfront), if_pos h]

/-- A buffer read inside the buffer answers the payload behind its length. -/
theorem Reader.readBuffer_ok (hi : r.Inv p) (hn : n ∈ [0, 1, 2, 4])
    (h : r.start + n + r.announcedLength n a ≤ r.len) : ∃ bs,
    bs.length = r.announcedLength n a ∧ r.mem.Holds (r.start + n) bs ∧
    r.readBuffer n a = .ok
      { reader := r.seekByte (r.start + n + r.announcedLength n a)
        q := BitVec.ofNat 64 (r.announcedLength n a)
        pout := bs } := by
  obtain ⟨bs, hread, hlen, hholds⟩ := Reader.readBytes_ok hi h
  refine ⟨bs, hlen, hholds, (if_neg (not_not.2 hn)).trans ?_⟩
  have hfront : r.start + n ≤ r.len := by omega
  simp only [if_neg (Nat.not_lt.2 hfront), Reader.bufferLength_ok hi hfront, if_neg (Nat.not_lt.2 h),
    hread]

/-! ### At the end of the buffer (R201) -/

/-- With no byte left a varint does not end inside the buffer. -/
theorem Reader.readVarint_outOfBounds (h : r.len ≤ r.start) :
    r.readVarint p = .error (.raise .outOfBounds) := by
  simp only [Reader.readVarint, Nat.sub_eq_zero_of_le h, unleb]

/-- A bit field of no bits is 0, and the cursor stays (R172). -/
theorem Reader.readBits_zero (hi : r.Inv p) :
    r.readBits 0 = .ok { reader := r, q := 0, pout := [] } := by
  have ⟨hb, _⟩ := hi
  have hlen : r.position + 0 ≤ 8 * r.len := by
    have := Reader.start_le hi
    have := Reader.position_le_start hi
    omega
  have hdiv : (r.position + 0) / 8 = r.offset := by unfold Reader.position; omega
  have hmod : (r.position + 0) % 8 = r.bitOffset := by unfold Reader.position; omega
  rw [Reader.readBits_ok hi (Nat.zero_le _) hlen, hdiv, hmod]
  rfl

/-- A payload of no bytes is empty, and an aligned cursor stays (R184). -/
theorem Reader.readBuffer_zero (hi : r.Inv p) (hb : r.bitOffset = 0) :
    r.readBuffer 0 0 = .ok { reader := r, q := 0, pout := [] } := by
  obtain ⟨bs, hbs, -, hread⟩ := Reader.readBuffer_ok (n := 0) (a := 0) hi (by decide)
    (Reader.start_le hi)
  obtain rfl := List.length_eq_zero_iff.1 hbs
  have hstay : r.seekByte r.start = r := by
    rw [Reader.start_eq, if_pos hb, Reader.seekByte, ← hb]
  exact hread.trans (by rw [← hstay]; rfl)

/-- The commands that read at least one byte, whatever A and the buffer hold. -/
def bytewiseReads : List Instr :=
  [.ru8, .ru16, .ru32, .ru64, .ri8, .ri16, .ri32, .ri64, .rf16, .rf32, .rf64,
    .rvaru, .rvars, .pu8, .pu16, .pu32, .pu64, .pi8, .pi16, .pi32, .pi64, .pf16, .pf32, .pf64,
    .pvaru, .pvars, .rbuf 1, .rbuf 2, .rbuf 4, .pbuf 1, .pbuf 2, .pbuf 4]

theorem Reader.readBuffer_atEnd (hi : r.Inv p) (h : r.start = r.len) {c : Count}
    (hc : c ∈ [(1 : Count), 2, 4]) : r.readBuffer c.toNat a = .error (.raise .outOfBounds) := by
  obtain ⟨hn, hpos⟩ : c.toNat ∈ [0, 1, 2, 4] ∧ 0 < c.toNat := by
    revert c; decide
  exact Reader.readBuffer_outOfBounds hi hn (by omega)

/-- With no byte left each of them raises `OutOfBounds`. -/
theorem exec_atEnd (hi : s.r.Inv s.params) (h : s.r.start = s.r.len) (hmem : i ∈ bytewiseReads) :
    ∃ peek x, exec i s = s.perform s.op.noPayload (s.reading peek x) ∧
      x = .error (.raise .outOfBounds) := by
  cases i with
  | ru8 | ru16 | ru32 | ru64 | rf16 | rf32 | rf64
  | pu8 | pu16 | pu32 | pu64 | pf16 | pf32 | pf64 =>
    exact ⟨_, _, rfl, Reader.readUnsigned_outOfBounds (by omega)⟩
  | ri8 | ri16 | ri32 | ri64 | pi8 | pi16 | pi32 | pi64 =>
    exact ⟨_, _, rfl, Reader.readSigned_outOfBounds (by omega)⟩
  | rvaru | pvaru =>
    exact ⟨_, _, rfl, by simp only [Reader.readVarUnsigned, Reader.readVarint_outOfBounds h.ge]⟩
  | rvars | pvars =>
    exact ⟨_, _, rfl, by simp only [Reader.readVarSigned, Reader.readVarint_outOfBounds h.ge]⟩
  | rbuf c | pbuf c =>
    exact ⟨_, _, rfl, Reader.readBuffer_atEnd hi h (by simpa [bytewiseReads] using hmem)⟩
  | _ => simp [bytewiseReads] at hmem

end Sys2Proof.Machine

open Sys2Proof Sys2Proof.Machine

/-- Settles O31, by the two cases of `Reader.align`. -/
theorem ralignMovesToTheNextByte : Obligations.RalignMovesToTheNextByte :=
  ⟨rfl, fun _ hpin => ⟨ralign_of_partial hpin, ralign_of_aligned hpin⟩⟩

/-- Settles O32, by the outcomes of `Reader.readBits`. -/
theorem bitReadsReturnTheFieldAtTheCursor : Obligations.BitReadsReturnTheFieldAtTheCursor := by
  rintro n s ⟨-, -, hr⟩ hpin
  refine ⟨by simp [encode_toNat, Instr.opcode, Instr.count],
    by simp [encode_toNat, Instr.opcode, Instr.count], fun hn => ?_, fun hn hlen => ?_,
    fun hn hlen => ⟨bitField_lt _ _ _, ?_⟩⟩
  · have hread := Reader.readBits_invalid (r := s.r) hn
    exact ⟨.of_reading rfl hpin hread, .of_reading rfl hpin hread⟩
  · have hread := Reader.readBits_outOfBounds hn hlen
    exact ⟨.of_reading rfl hpin hread, .of_reading rfl hpin hread⟩
  · have hread := Reader.readBits_ok hr hn hlen
    exact ⟨.of_reading (peek := false) rfl hpin hread, .of_reading (peek := true) rfl hpin hread⟩

/-- Settles O33: the seven commands are the unsigned read of their widths. -/
theorem unsignedReadsReturnBigEndianValues : Obligations.UnsignedReadsReturnBigEndianValues := by
  intro i k cw hrow
  obtain ⟨hcw, hexec⟩ : encode i = cw ∧ ∀ s, exec i s =
      s.perform s.op.noPayload (s.reading false (s.r.readUnsigned k)) := by
    simp only [List.mem_cons, Prod.mk.injEq, List.not_mem_nil, or_false] at hrow
    obtain ⟨rfl, rfl, rfl⟩ | ⟨rfl, rfl, rfl⟩ | ⟨rfl, rfl, rfl⟩ | ⟨rfl, rfl, rfl⟩ | ⟨rfl, rfl, rfl⟩ |
      ⟨rfl, rfl, rfl⟩ | ⟨rfl, rfl, rfl⟩ := hrow <;> exact ⟨rfl, fun _ => rfl⟩
  refine ⟨hcw, fun s ⟨_, _, hr⟩ hpin => ?_⟩
  obtain ⟨herror, hok⟩ := unsignedReading_ends hr hpin (hexec s)
  exact ⟨herror, fun hlen => ⟨bigEndian_lt _ _ _, hok hlen⟩⟩

/-- Settles O34: the four commands are the signed read of their widths. -/
theorem signedReadsReturnSignedValues : Obligations.SignedReadsReturnSignedValues := by
  intro i k cw hrow
  obtain ⟨hcw, hk, hexec⟩ : encode i = cw ∧ k ∈ [1, 2, 4, 8] ∧ ∀ s, exec i s =
      s.perform s.op.noPayload (s.reading false (s.r.readSigned k)) := by
    simp only [List.mem_cons, Prod.mk.injEq, List.not_mem_nil, or_false] at hrow
    obtain ⟨rfl, rfl, rfl⟩ | ⟨rfl, rfl, rfl⟩ | ⟨rfl, rfl, rfl⟩ | ⟨rfl, rfl, rfl⟩ := hrow <;>
      exact ⟨rfl, by decide, fun _ => rfl⟩
  exact ⟨hcw, fun s ⟨_, _, hr⟩ hpin => signedReading_ends hr hpin hk (hexec s)⟩

/-- Settles O35: the seven commands are the peek of the unsigned read of their widths. -/
theorem unsignedPeeksReturnBigEndianValues : Obligations.UnsignedPeeksReturnBigEndianValues := by
  intro i k cw hrow
  obtain ⟨hcw, hexec⟩ : encode i = cw ∧ ∀ s, exec i s =
      s.perform s.op.noPayload (s.reading true (s.r.readUnsigned k)) := by
    simp only [List.mem_cons, Prod.mk.injEq, List.not_mem_nil, or_false] at hrow
    obtain ⟨rfl, rfl, rfl⟩ | ⟨rfl, rfl, rfl⟩ | ⟨rfl, rfl, rfl⟩ | ⟨rfl, rfl, rfl⟩ | ⟨rfl, rfl, rfl⟩ |
      ⟨rfl, rfl, rfl⟩ | ⟨rfl, rfl, rfl⟩ := hrow <;> exact ⟨rfl, fun _ => rfl⟩
  exact ⟨hcw, fun s ⟨_, _, hr⟩ hpin => unsignedReading_ends hr hpin (hexec s)⟩

/-- Settles O36: the four commands are the peek of the signed read of their widths. -/
theorem signedPeeksReturnSignedValues : Obligations.SignedPeeksReturnSignedValues := by
  intro i k cw hrow
  obtain ⟨hcw, hk, hexec⟩ : encode i = cw ∧ k ∈ [1, 2, 4, 8] ∧ ∀ s, exec i s =
      s.perform s.op.noPayload (s.reading true (s.r.readSigned k)) := by
    simp only [List.mem_cons, Prod.mk.injEq, List.not_mem_nil, or_false] at hrow
    obtain ⟨rfl, rfl, rfl⟩ | ⟨rfl, rfl, rfl⟩ | ⟨rfl, rfl, rfl⟩ | ⟨rfl, rfl, rfl⟩ := hrow <;>
      exact ⟨rfl, by decide, fun _ => rfl⟩
  exact ⟨hcw, fun s ⟨_, _, hr⟩ hpin => signedReading_ends hr hpin hk (hexec s)⟩

/-- Settles O37, by the outcomes of `Reader.readBuffer`. -/
theorem bufferReadsReturnThePayload : Obligations.BufferReadsReturnThePayload := by
  rintro n s ⟨-, -, hr⟩ hpin
  refine ⟨by simp [encode_toNat, Instr.opcode, Instr.count],
    by simp [encode_toNat, Instr.opcode, Instr.count], fun hn => ?_, fun hn hlen => ?_,
    fun hn hlen => ?_⟩
  · have hread := Reader.readBuffer_invalid (r := s.r) (a := s.op.a) hn
    exact ⟨.of_reading rfl hpin hread, .of_reading rfl hpin hread⟩
  · have hread := Reader.readBuffer_outOfBounds (a := s.op.a) hr hn
      (hlen.elim (fun h => Nat.lt_add_right _ h) id)
    exact ⟨.of_reading rfl hpin hread, .of_reading rfl hpin hread⟩
  · obtain ⟨bs, hbs, hholds, hread⟩ := Reader.readBuffer_ok (a := s.op.a) hr hn hlen
    exact ⟨bs, hbs, hholds, .of_reading (peek := false) rfl hpin hread,
      .of_reading (peek := true) rfl hpin hread⟩

/-- Settles O23: the read and the peek run one rule. -/
theorem peeksAreReadsThatDoNotMove : Obligations.PeeksAreReadsThatDoNotMove := by
  intro i j s t hij h
  obtain ⟨x, hread, hpeek, hop⟩ := exec_peek hij s
  obtain ⟨hnext, hframe⟩ := State.perform_peek (hread.symm.trans h)
  exact ⟨hpeek.trans hnext, hframe, hop⟩

/-- Settles O24: no byte and no bit is left, so what needs one raises `OutOfBounds`, and what needs none
reads the empty field or the empty payload. -/
theorem readingAtTheEndOfTheBuffer : Obligations.ReadingAtTheEndOfTheBuffer := by
  rintro s ⟨-, -, hr⟩ hpin hend hbit
  have hstart : s.r.start = s.r.len := by rw [Reader.start_eq, if_pos hbit, hend]
  have hpos : s.r.position = 8 * s.r.len := by rw [Reader.position, hend, hbit, Nat.add_zero]
  refine ⟨fun i hi => ?_, fun n hn hn' => ?_, fun ha => ?_, fun ha => ?_, ?_, ?_⟩
  · obtain ⟨peek, x, hexec, hx⟩ := exec_atEnd hr hstart hi
    exact .of_reading hexec hpin hx
  · have hread := Reader.readBits_outOfBounds (r := s.r) hn' (by omega)
    exact ⟨.of_reading rfl hpin hread, .of_reading rfl hpin hread⟩
  · have hread := Reader.readBuffer_outOfBounds (n := 0) (a := s.op.a) hr (by decide) (by
      have : s.op.a.toNat ≠ 0 := fun h => ha (BitVec.eq_of_toNat_eq h)
      simp only [Reader.announcedLength, if_true]
      omega)
    exact ⟨.of_reading rfl hpin hread, .of_reading rfl hpin hread⟩
  · have hread : s.r.readBuffer 0 s.op.a = .ok { reader := s.r, q := 0, pout := [] } := by
      rw [ha, Reader.readBuffer_zero hr hbit]
    exact ⟨.of_reading (peek := false) rfl hpin hread, .of_reading (peek := true) rfl hpin hread⟩
  · exact ralign_of_aligned hpin hbit
  · have hread := Reader.readBits_zero hr
    exact ⟨.of_reading (peek := false) rfl hpin hread, .of_reading (peek := true) rfl hpin hread⟩
end

section
/-! Reading back what was written (spec/41_reader.md R202).  A Writer data command appends to the message, so
every later message goes on from the one it leaves (`Writer.Precedes`); and its mirror takes a Reader over such
a later message from the cursor before the command to the cursor behind it, and answers the value written
(`ReadsAcross`, `exec_mirror`, the one split over the data commands).  The byte-level commands need only that
their read answers the value where its bytes stand (`ReadsBytes`); for the varints that is the inverse of
LEB128 and of zigzag (spec/42_varint_zigzag.md R230 to R234). -/

namespace Sys2Proof.Machine

variable {p : Params} {w w' t : Writer} {r : Reader} {m : Memory} {k n : Nat}

/-! ### Byte lists in a memory -/

theorem Memory.holds_cons {a : Nat} {b : Byte} {bs : List Byte} :
    m.Holds a (b :: bs) ↔ m.read a = some b ∧ m.Holds (a + 1) bs := by
  refine ⟨fun h => ⟨h 0 b rfl, fun j c hj => ?_⟩, fun ⟨hb, h⟩ j c hj => ?_⟩
  · rw [show a + 1 + j = a + (j + 1) by omega]
    exact h (j + 1) c hj
  · cases j with
    | zero => exact hb.trans hj
    | succ j =>
      rw [show a + (j + 1) = a + 1 + j by omega]
      exact h j c hj

theorem Memory.holds_append {a : Nat} {bs bs' : List Byte} :
    m.Holds a (bs ++ bs') ↔ m.Holds a bs ∧ m.Holds (a + bs.length) bs' := by
  induction bs generalizing a with
  | nil => exact ⟨fun h => ⟨nofun, h⟩, fun h => h.2⟩
  | cons b bs ih =>
    rw [List.cons_append, Memory.holds_cons, Memory.holds_cons, ih, and_assoc, List.length_cons,
      show a + 1 + bs.length = a + (bs.length + 1) by omega]

/-- The bytes that stand at an address are what a range read answers. -/
theorem Memory.Holds.readBytes {a : Nat} {bs : List Byte} (h : m.Holds a bs) :
    m.readBytes a bs.length = some bs := (Memory.readBytes_eq_some _ _ _ _).2 ⟨rfl, h⟩

/-! ### LEB128 and zigzag -/

/-- The decoder inverts the encoder, whatever follows the bytes (R230, R231). -/
theorem unleb_leb {a u : Nat} (h : m.Holds a (leb u)) (hk : (leb u).length ≤ k) :
    unleb m a k = .ok (u, (leb u).length) := by
  induction u using Nat.strong_induction_on generalizing a k with
  | _ u ih =>
    rw [leb_eq] at h hk ⊢
    by_cases hu : u < 128
    · rw [if_pos hu] at h hk ⊢
      obtain ⟨k, rfl⟩ : ∃ k', k = k' + 1 := ⟨k - 1, by simp at hk; omega⟩
      have hbyte : (BitVec.ofNat 8 u).toNat = u := by rw [BitVec.toNat_ofNat]; omega
      rw [unleb, (Memory.holds_cons.1 h).1]
      simp only [hbyte, if_pos hu, List.length_singleton]
    · rw [if_neg hu] at h hk ⊢
      rw [List.length_cons] at hk
      obtain ⟨k, rfl⟩ : ∃ k', k = k' + 1 := ⟨k - 1, by omega⟩
      obtain ⟨hb, hrest⟩ := Memory.holds_cons.1 h
      have hbyte : (BitVec.ofNat 8 (u % 128 + 128)).toNat = u % 128 + 128 := by
        rw [BitVec.toNat_ofNat]; omega
      rw [unleb, hb]
      simp only [hbyte, if_neg (show ¬ u % 128 + 128 < 128 by omega),
        ih (u / 128) (by omega) (k := k) hrest (by omega), List.length_cons]
      congr 2
      omega

/-- The XOR with all ones is the complement. -/
theorem xor_ones {v x : Nat} (h : x < 2 ^ v) : x ^^^ (2 ^ v - 1) = 2 ^ v - 1 - x := by
  have hnot := congrArg BitVec.toNat (BitVec.xor_allOnes (x := BitVec.ofNat v x))
  rwa [BitVec.toNat_xor, BitVec.toNat_allOnes, BitVec.toNat_not, BitVec.toNat_ofNat,
    Nat.mod_eq_of_lt h] at hnot

/-- The `v`-bit pattern of a number of the signed range, as R9 reads it. -/
theorem patternOf_eq {v : Nat} {x : Int} (hlo : -(2 ^ v) ≤ x) (hhi : x < 2 ^ v) :
    (patternOf v x : Int) = if 0 ≤ x then x else x + 2 ^ v := by
  have hpos : (0 : Int) < 2 ^ v := by positivity
  rw [patternOf, Int.toNat_of_nonneg (Int.emod_nonneg _ hpos.ne')]
  split_ifs with h
  · exact Int.emod_eq_of_lt h hhi
  · rw [← Int.add_emod_right, Int.emod_eq_of_lt (by omega) (by omega)]

/-- The signed reading inverts the pattern (R9). -/
theorem signedOf_patternOf {v : Nat} {x : Int} (hv : 1 ≤ v) (hlo : -(2 ^ (v - 1)) ≤ x)
    (hhi : x ≤ 2 ^ (v - 1) - 1) : signedOf v (patternOf v x) = x := by
  obtain ⟨v, rfl⟩ : ∃ v', v = v' + 1 := ⟨v - 1, by omega⟩
  rw [Nat.add_sub_cancel] at hlo hhi
  have hcast : ((2 ^ v : Nat) : Int) = 2 ^ v := by push_cast; rfl
  have hpattern := patternOf_eq (v := v + 1) (x := x) (by rw [pow_succ]; omega) (by rw [pow_succ]; omega)
  rw [pow_succ] at hpattern
  rw [signedOf, Nat.add_sub_cancel, pow_succ]
  split_ifs at hpattern ⊢ <;> omega

/-- Zigzag is its arithmetic form (R233). -/
theorem zz_eq_zigzagOf {v : Nat} {x : Int} (hv : 1 ≤ v) (hlo : -(2 ^ (v - 1)) ≤ x)
    (hhi : x ≤ 2 ^ (v - 1) - 1) : (zz v x : Int) = zigzagOf x := by
  obtain ⟨v, rfl⟩ : ∃ v', v = v' + 1 := ⟨v - 1, by omega⟩
  rw [Nat.add_sub_cancel] at hlo hhi
  have hcast : ((2 ^ v : Nat) : Int) = 2 ^ v := by push_cast; rfl
  have hpattern := patternOf_eq (v := v + 1) (x := x) (by rw [pow_succ]; omega) (by rw [pow_succ]; omega)
  rw [zz, zigzagOf]
  by_cases hx : 0 ≤ x
  · rw [if_pos hx] at hpattern ⊢
    rw [if_neg (by omega), Nat.xor_zero, Nat.mod_eq_of_lt (by rw [pow_succ]; omega)]
    omega
  · rw [if_neg hx] at hpattern ⊢
    rw [pow_succ] at hpattern
    have hmod : patternOf (v + 1) x * 2 % 2 ^ (v + 1) = patternOf (v + 1) x * 2 - 2 ^ (v + 1) := by
      rw [Nat.mod_eq_sub_mod (by rw [pow_succ]; omega), Nat.mod_eq_of_lt (by rw [pow_succ]; omega)]
    rw [if_pos (by omega), hmod, xor_ones (by rw [pow_succ]; omega), pow_succ]
    omega

/-- Un-zigzag is its arithmetic form (R234). -/
theorem unzz_eq_unzigzagOf {v u : Nat} (hv : 1 ≤ v) (hu : u < 2 ^ v) : unzz v u = unzigzagOf u := by
  obtain ⟨v, rfl⟩ : ∃ v', v = v' + 1 := ⟨v - 1, by omega⟩
  rw [pow_succ] at hu
  have hcast : ((2 ^ v : Nat) : Int) = 2 ^ v := by push_cast; rfl
  rw [unzz, unzigzagOf]
  by_cases hodd : u % 2 = 1
  · rw [if_pos hodd, if_neg (show u % 2 ≠ 0 by omega), xor_ones (by rw [pow_succ]; omega), signedOf,
      if_neg (by rw [Nat.add_sub_cancel, pow_succ]; omega), pow_succ, pow_succ]
    omega
  · rw [if_neg hodd, if_pos (show u % 2 = 0 by omega), Nat.xor_zero, signedOf,
      if_pos (by rw [Nat.add_sub_cancel]; omega)]

/-- The zigzag code of a number of the signed range fits, and un-zigzag gives the number back (R235). -/
theorem unzz_zz {v : Nat} {x : Int} (hv : 1 ≤ v) (hlo : -(2 ^ (v - 1)) ≤ x) (hhi : x ≤ 2 ^ (v - 1) - 1) :
    zz v x < 2 ^ v ∧ unzz v (zz v x) = x := by
  have hzz := zz_eq_zigzagOf hv hlo hhi
  have hpow : 2 ^ v = 2 * 2 ^ (v - 1) := by rw [← pow_succ']; congr 1; omega
  have hcast : ((2 ^ (v - 1) : Nat) : Int) = 2 ^ (v - 1) := by push_cast; rfl
  unfold zigzagOf at hzz
  have hlt : zz v x < 2 ^ v := by
    rw [hpow]
    split_ifs at hzz <;> omega
  refine ⟨hlt, ?_⟩
  rw [unzz_eq_unzigzagOf hv hlt, unzigzagOf]
  split_ifs at hzz ⊢ <;> omega

/-! ### A read where its bytes stand -/

/-- Where the bytes stand at the aligned cursor, the read moves behind them and answers the value and the
payload given. -/
def ReadsBytes (p : Params) (read : Reader → Result Reading) (bytes : List Byte) (q : Word)
    (pout : List Byte) : Prop :=
  ∀ r : Reader, r.Inv p → r.start + bytes.length ≤ r.len → r.mem.Holds r.start bytes →
    read r = .ok { reader := r.seekByte (r.start + bytes.length), q := q, pout := pout }

/-- The byte-level read answers the bytes that stand at the aligned cursor (R170). -/
theorem Reader.byteRead_of_holds {bs : List Byte} (hlen : r.start + bs.length ≤ r.len)
    (h : r.mem.Holds r.start bs) :
    r.byteRead bs.length = .ok (bs, r.seekByte (r.start + bs.length)) := by
  rw [Reader.byteRead, if_neg (Nat.not_lt.2 hlen), h.readBytes]

/-- The number that `k` big-endian bytes of `v` denote, for a `v` that fits. -/
theorem be_bytesBE_of_lt {v : Nat} (h : v < 2 ^ (8 * k)) : be (bytesBE v k) = v := by
  rw [be_bytesBE, show (256 : Nat) = 2 ^ 8 from rfl, ← pow_mul, Nat.mod_eq_of_lt h]

theorem readUnsigned_readsBytes {a : Word} (ha : a.toNat < 2 ^ (8 * k)) :
    ReadsBytes p (fun r => r.readUnsigned k) (bytesBE a.toNat k) a [] := by
  intro r _ hlen hholds
  have hread := Reader.byteRead_of_holds hlen hholds
  rw [bytesBE_length] at hread ⊢
  simp only [Reader.readUnsigned, hread, be_bytesBE_of_lt ha, BitVec.ofNat_toNat, BitVec.setWidth_eq]

/-- The low bits of a word are the pattern of its signed value. -/
theorem toNat_mod_eq_patternOf (a : Word) {v : Nat} (hv : v ≤ 64) :
    a.toNat % 2 ^ v = patternOf v a.toInt := by
  have hmod : a.toInt % 2 ^ 64 = a.toNat := by
    have := a.isLt
    rw [BitVec.toInt_eq_toNat_cond]
    split_ifs <;> omega
  rw [patternOf, ← Int.emod_emod_of_dvd a.toInt (pow_dvd_pow 2 hv), hmod]
  norm_cast

theorem readSigned_readsBytes {a : Word} (hk : k ∈ [1, 2, 4, 8])
    (ha : inSignedRange (8 * k) a.toInt = true) :
    ReadsBytes p (fun r => r.readSigned k) (bytesBE a.toNat k) a [] := by
  intro r _ hlen hholds
  obtain ⟨hk0, hk64⟩ : 1 ≤ 8 * k ∧ 8 * k ≤ 64 :=
    (by decide : ∀ k ∈ [1, 2, 4, 8], 1 ≤ 8 * k ∧ 8 * k ≤ 64) k hk
  obtain ⟨hlo, hhi⟩ := (inSignedRange_iff _ _).1 ha
  have hread := Reader.byteRead_of_holds hlen hholds
  have hvalue : sext64 (be (bytesBE a.toNat k)) (8 * k) = a := by
    rw [be_bytesBE, show (256 : Nat) = 2 ^ 8 from rfl, ← pow_mul, toNat_mod_eq_patternOf a hk64, sext64,
      signedOf_patternOf hk0 hlo hhi, BitVec.ofInt_toInt]
  rw [bytesBE_length] at hread ⊢
  simp only [Reader.readSigned, hread, hvalue]

theorem Reader.readVarint_of_holds {u : Nat} (hu : u < 2 ^ p.varw)
    (hlen : r.start + (leb u).length ≤ r.len) (h : r.mem.Holds r.start (leb u)) :
    r.readVarint p = .ok (u, r.seekByte (r.start + (leb u).length)) := by
  simp only [Reader.readVarint, unleb_leb h (show _ ≤ r.len - r.start by omega),
    if_neg (Nat.not_le.2 hu)]

theorem readVarUnsigned_readsBytes {a : Word} (ha : a.toNat < 2 ^ p.varw) :
    ReadsBytes p (fun r => r.readVarUnsigned p) (leb a.toNat) a [] := by
  intro r _ hlen hholds
  simp only [Reader.readVarUnsigned, Reader.readVarint_of_holds ha hlen hholds, BitVec.ofNat_toNat,
    BitVec.setWidth_eq]

theorem readVarSigned_readsBytes {a : Word} (hp : p.wellFormed = true)
    (ha : inSignedRange p.varw a.toInt = true) :
    ReadsBytes p (fun r => r.readVarSigned p) (leb (zz p.varw a.toInt)) a [] := by
  intro r _ hlen hholds
  obtain ⟨⟨hv, -⟩, -⟩ := Params.wellFormed_iff.1 hp
  obtain ⟨hlo, hhi⟩ := (inSignedRange_iff _ _).1 ha
  obtain ⟨hlt, hinv⟩ := unzz_zz hv hlo hhi
  simp only [Reader.readVarSigned, Reader.readVarint_of_holds hlt hlen hholds, unzzWord, hinv,
    BitVec.ofInt_toInt]

theorem readBuffer_readsBytes {a : Word} {pin : List Byte} (hn : n ∈ [0, 1, 2, 4])
    (ha : ¬ (0 < n ∧ 2 ^ (8 * n) ≤ a.toNat)) (hpin : pin.length = a.toNat) :
    ReadsBytes p (fun r => r.readBuffer n a) (bytesBE a.toNat n ++ pin) a pin := by
  intro r hi hlen hholds
  obtain ⟨hfront, hpayload⟩ := Memory.holds_append.1 hholds
  rw [List.length_append, bytesBE_length, ← Nat.add_assoc] at hlen ⊢
  rw [bytesBE_length] at hpayload
  have hannounced : r.announcedLength n a = pin.length := by
    rw [Reader.announcedLength, hpin]
    split_ifs with h0
    · rfl
    · have hbe := be_eq_bigEndian hfront
      rw [bytesBE_length, be_bytesBE_of_lt (by omega)] at hbe
      exact hbe.symm
  obtain ⟨bs, hbs, hbytes, hread⟩ := Reader.readBuffer_ok (a := a) hi hn (hannounced ▸ hlen)
  obtain rfl : bs = pin := by
    have := hbytes.readBytes
    rw [hbs, hannounced, hpayload.readBytes] at this
    exact (Option.some.inj this).symm
  simp only [hread, hannounced, hpin, BitVec.ofNat_toNat, BitVec.setWidth_eq]

/-! ### A bit field where its bits stand -/

/-- The field whose bits are those of `v` is its low `n` bits (R92). -/
theorem bitField_of_bits {q v : Nat} (h : ∀ j < n, bitAt m (q + j) = (v.testBit (n - 1 - j)).toNat) :
    bitField m q n = v % 2 ^ n := by
  induction n generalizing q with
  | zero => rw [pow_zero, Nat.mod_one]; rfl
  | succ n ih =>
    have hfirst : bitField m q 1 = (v.testBit n).toNat := by
      simpa [bitField] using h 0 (Nat.succ_pos n)
    have hrest : bitField m (q + 1) n = v % 2 ^ n := ih fun j hj => by
      rw [show q + 1 + j = q + (j + 1) by omega, h (j + 1) (by omega),
        show n + 1 - 1 - (j + 1) = n - 1 - j by omega]
    rw [Nat.add_comm n 1, bitField_add, hfirst, hrest, Nat.toNat_testBit, Nat.add_comm 1 n, Nat.pow_succ,
      Nat.mod_mul, Nat.add_comm, Nat.mul_comm]

/-- A `WBITS` that answers a Writer had a count and a value in range. -/
theorem Writer.writeBits_inRange {v : Nat} (h : w.writeBits p n v = .ok w') : n ≤ 32 ∧ v < 2 ^ n := by
  have hn : n ≤ 32 := by
    by_contra hn
    rw [Writer.writeBits_invalid (by omega)] at h; cases h
  refine ⟨hn, ?_⟩
  by_contra hv
  rw [Writer.writeBits_overflow hn (by omega)] at h; cases h

/-! ### Messages that go on from another -/

/-- The message of `t` goes on from that of `w`: what stands before the cursor of `w` stands in both. -/
structure Writer.Precedes (w t : Writer) : Prop where
  forward : w.position ≤ t.position
  bytes : ∀ a, 8 * a + 8 ≤ w.position → t.mem.read a = w.mem.read a
  bits : ∀ x < w.position, bitAt t.mem x = bitAt w.mem x

theorem Writer.Precedes.refl (w : Writer) : w.Precedes w := ⟨le_rfl, fun _ _ => rfl, fun _ _ => rfl⟩

theorem Writer.Precedes.trans (h : w.Precedes w') (h' : w'.Precedes t) : w.Precedes t where
  forward := h.forward.trans h'.forward
  bytes a ha := (h'.bytes a (ha.trans h.forward)).trans (h.bytes a ha)
  bits x hx := (h'.bits x (hx.trans_le h.forward)).trans (h.bits x hx)

/-- Every command keeps the invariants. -/
theorem exec_inv {i : Instr} {s s' : State} (hs : s.Inv) (h : exec i s = .next s') : s'.Inv := by
  obtain ⟨s₁, q, pout, he, rfl⟩ | ⟨e, -, rfl⟩ := exec_next h
  · exact he.inv hs
  · exact hs

/-- Every Writer data command leaves a message that goes on from the one before (R45, R152). -/
theorem exec_precedes {i : Instr} {s s' : State} (hs : s.Inv) (hi : (mirrorOf i).isSome = true)
    (h : exec i s = .next s') : s'.params = s.params ∧ s.w.Precedes s'.w := by
  obtain ⟨hframe, -, hbytes, hbits, -⟩ := writerDataCommandsKeepWhatIsWritten i s s' hs hi h
  obtain ⟨hforward, -⟩ := cursorsNeverMoveBackward i s s' hs h
  obtain ⟨-, ⟨hb, -⟩, -⟩ := hs
  refine ⟨(congrArg State.params hframe).trans rfl, hforward ?_ ?_, fun a ha => hbytes a ?_, hbits⟩
  · rintro n rfl
    cases hi
  · rintro rfl
    cases hi
  · unfold Writer.position at ha
    omega

/-- Writer data commands that all complete leave a message that goes on from the one before. -/
theorem runOk_precedes {cs : List (Instr × Operands)} {s s' : State} (hs : s.Inv)
    (hcs : ∀ c ∈ cs, (mirrorOf c.1).isSome = true) (h : runOk cs s = some s') :
    s'.Inv ∧ s'.params = s.params ∧ s.w.Precedes s'.w := by
  induction cs generalizing s with
  | nil =>
    obtain rfl := Option.some.inj h
    exact ⟨hs, rfl, .refl _⟩
  | cons c cs ih =>
    obtain ⟨hc, hcs⟩ := List.forall_mem_cons.1 hcs
    obtain ⟨s₁, hexec, -, hrest⟩ := runOk_cons h
    obtain ⟨hp₁, hw₁⟩ := exec_precedes (s := { s with op := c.2 }) hs hc hexec
    obtain ⟨hs', hp', hw'⟩ := ih (exec_inv (s := { s with op := c.2 }) hs hexec) hcs hrest
    exact ⟨hs', hp'.trans hp₁, hw₁.trans hw'⟩

/-! ### The Reader over a later message -/

/-- A Reader over the message of `t`, its cursor where the Writer `w` has its own. -/
def Writer.readerOver (w t : Writer) : Reader :=
  { offset := w.offset, bitOffset := w.bitOffset, len := t.len, mem := t.mem }

theorem Writer.readerOver_inv (hw : w.Inv p) (ht : t.Inv p) (h : w.Precedes t)
    (hcap : t.len ≤ p.rCapMax) : (w.readerOver t).Inv p := by
  have hlen := Writer.len_eq_position ht
  have hpos := h.forward
  obtain ⟨hb, -⟩ := hw
  obtain ⟨-, -, -, -, hr, -⟩ := ht
  refine ⟨hb, ?_, hcap, fun hx => ?_, hr⟩ <;> simp only [Writer.readerOver, Writer.position] at * <;> omega

/-- In every message that goes on from `w'`, the read moves the Reader from the cursor of `w` to that of `w'`
and answers the value and the payload given. -/
def ReadsAcross (p : Params) (w : Writer) (read : Reader → Result Reading) (q : Word) (pout : List Byte)
    (w' : Writer) : Prop :=
  ∀ t : Writer, w'.Precedes t → t.Inv p → (w.readerOver t).Inv p →
    read (w.readerOver t) = .ok { reader := w'.readerOver t, q := q, pout := pout }

theorem Writer.align_readsAcross :
    ReadsAcross p w (fun r => .ok { reader := r.align, q := 0, pout := [] }) 0 [] w.align := by
  intro t _ _ _
  have halign : (w.readerOver t).align = w.align.readerOver t := by
    by_cases h : w.bitOffset = 0
    · rw [Writer.align_of_aligned h]
      exact Reader.align_of_aligned h
    · rw [Writer.align_of_partial h]
      exact Reader.align_of_partial h
  simp only [halign]

/-- A read that answers the value where the stored bytes stand reads across the byte-level write. -/
theorem Writer.byteWrite_readsAcross {bytes : List Byte} {read : Reader → Result Reading} {q : Word}
    {pout : List Byte} {safe : Prop} (hi : w.Inv p) (hread : ReadsBytes p read bytes q pout) :
    Meets safe (ReadsAcross p w read q pout) (w.byteWrite p bytes) := by
  cases h : w.byteWrite p bytes with
  | error e =>
    rw [Writer.byteWrite_error h]
    exact .raise (by decide)
  | ok w' =>
    obtain ⟨-, ⟨hoff, hbit, -, -, hholds, -⟩, -⟩ := Writer.byteWrite_ok hi h
    refine .ok fun t hw't ht hr => ?_
    have hpos : w'.position = 8 * (w.start + bytes.length) := by
      rw [Writer.position_of_aligned hbit, hoff]
    have hlen : w.start + bytes.length ≤ t.len := by
      have := hw't.forward
      rw [Writer.len_eq_position ht]
      omega
    have hstand : t.mem.Holds w.start bytes := fun j b hj => by
      have hlt := (List.getElem?_eq_some_iff.1 hj).1
      exact (hw't.bytes _ (by omega)).trans (hholds j b hj)
    have hcursor : (w.readerOver t).seekByte (w.start + bytes.length) = w'.readerOver t := by
      rw [Reader.seekByte, Writer.readerOver, Writer.readerOver, hoff, hbit]
    exact (hread _ hr hlen hstand).trans (by rw [← hcursor]; rfl)

theorem Writer.writeBits_readsAcross {a : Word} (hi : w.Inv p) :
    Meets (w.Inv p) (ReadsAcross p w (fun r => r.readBits n) a []) (w.writeBits p n a.toNat) := by
  have hmeets := Writer.writeBits_meets (p := p) (w := w) n a.toNat
  cases h : w.writeBits p n a.toNat with
  | error e => exact (h ▸ hmeets).error
  | ok w' =>
    obtain ⟨hn, hv⟩ := Writer.writeBits_inRange h
    have hbits := Writer.writeBits_ok hi h
    refine .ok fun t hw't ht hr => ?_
    have hpos : w'.position = w.position + n := by rw [hbits.appended.position, bitsOf_length]
    have hlen : (w.readerOver t).position + n ≤ 8 * (w.readerOver t).len := by
      have hforward := hw't.forward
      have hend := Writer.len_eq_position ht
      simp only [Writer.readerOver, Reader.position, Writer.position] at *
      omega
    have hfield : bitField t.mem w.position n = a.toNat := by
      rw [bitField_of_bits fun j hj => (hw't.bits _ (by omega)).trans (hbits.field j hj),
        Nat.mod_eq_of_lt hv]
    have hcursor : w'.readerOver t = { w.readerOver t with
        offset := (w.position + n) / 8, bitOffset := (w.position + n) % 8 } := by
      rw [Writer.readerOver, hbits.offset, hbits.bitOffset]; rfl
    have hq : BitVec.ofNat 64 (bitField t.mem w.position n) = a := by
      rw [hfield, BitVec.ofNat_toNat, BitVec.setWidth_eq]
    rw [hcursor]
    exact (Reader.readBits_ok hr hn hlen).trans (by rw [← hq]; rfl)

/-! ### Every data command and its mirror -/

/-- Every Writer data command is a rule of the Writer, and its mirror a rule of the Reader that reads across
it and answers what R202 says. -/
theorem exec_mirror {i j : Instr} {s : State} (hs : s.Inv) (hij : mirrorOf i = some j) :
    ∃ framed x read, exec i s = s.perform framed (s.writing x) ∧
      (∀ u : State, u.params = s.params → u.op.a = s.op.a →
        exec j u = u.perform u.op.noPayload (u.reading false (read u.r))) ∧
      (framed = true → Meets (s.w.Inv s.params)
        (ReadsAcross s.params s.w read (readBack (i, s.op)).q (readBack (i, s.op)).pout) x) := by
  obtain ⟨hp, hw, -⟩ := hs
  cases i with
  | walign =>
    cases hij
    exact ⟨_, _, _, rfl, fun _ _ _ => rfl, fun _ => .ok Writer.align_readsAcross⟩
  | wbits =>
    cases hij
    exact ⟨_, _, _, rfl, fun _ _ _ => rfl, fun _ => Writer.writeBits_readsAcross hw⟩
  | wvaru =>
    cases hij
    exact ⟨_, _, fun r => r.readVarUnsigned s.params, rfl, fun _ hu _ => by rw [← hu]; rfl,
      fun _ => .unless (by decide) fun ha =>
        Writer.byteWrite_readsAcross hw (readVarUnsigned_readsBytes (Nat.lt_of_not_le ha))⟩
  | wvars =>
    cases hij
    exact ⟨_, _, fun r => r.readVarSigned s.params, rfl, fun _ hu _ => by rw [← hu]; rfl,
      fun _ => .provided (by decide) fun ha =>
        Writer.byteWrite_readsAcross hw (readVarSigned_readsBytes hp ha)⟩
  | wbuf n =>
    cases hij
    refine ⟨_, _, fun r => r.readBuffer n.toNat s.op.a, rfl, fun _ _ hu => by rw [← hu]; rfl,
      fun hf => ?_⟩
    refine .unless (by decide) fun hn => .unless (by decide) fun ha => ?_
    exact Writer.byteWrite_readsAcross hw
      (readBuffer_readsBytes (not_not.1 hn) ha ((Operands.payloadOfLengthA_iff _).1 hf))
  | wu8 | wu16 | wu32 | wu64 | wf16 | wf32 | wf64 =>
    cases hij
    exact ⟨_, _, _, rfl, fun _ _ _ => rfl, fun _ => .unless (by decide) fun ha =>
      Writer.byteWrite_readsAcross hw (readUnsigned_readsBytes (Nat.lt_of_not_le ha))⟩
  | wi8 | wi16 | wi32 | wi64 =>
    cases hij
    exact ⟨_, _, _, rfl, fun _ _ _ => rfl, fun _ => .provided (by decide) fun ha =>
      Writer.byteWrite_readsAcross hw (readSigned_readsBytes (by decide) ha)⟩
  | _ => cases hij

/-- A Writer data command that completes, and its mirror on a Reader over a later message: the Reader is taken
from the cursor before the command to the cursor behind it. -/
theorem exec_mirrored {i j : Instr} {s s' u : State} (hs : s.Inv) (hij : mirrorOf i = some j)
    (h : exec i s = .next s') (hok : s'.status.last = .ok) (hs' : s'.w.Precedes t) (ht : t.Inv s.params)
    (hcap : t.len ≤ s.params.rCapMax) (hp : u.params = s.params) (hr : u.r = s.w.readerOver t)
    (ha : u.op.a = s.op.a) (hpin : u.op.pin = []) :
    exec j u = .next (State.afterOk { u with r := s'.w.readerOver t }
      (readBack (i, s.op)).q (readBack (i, s.op)).pout) := by
  obtain ⟨-, hprecedes⟩ := exec_precedes hs (by rw [hij]; rfl) h
  obtain ⟨framed, x, read, hwrite, hread, hmeets⟩ := exec_mirror hs hij
  cases framed with
  | false =>
    rw [hwrite, State.perform_illegal _ rfl] at h
    cases h; cases hok
  | true =>
    obtain ⟨w', -, hacross, rfl⟩ := State.of_perform_writing (hmeets rfl) (hwrite.symm.trans h) hok
    obtain ⟨-, hw, -⟩ := hs
    have hinv := Writer.readerOver_inv hw ht (hprecedes.trans hs') hcap
    exact (hread u hp ha).trans
      (State.perform_reading false hpin ((congrArg read hr).trans (hacross t hs' ht hinv)))

theorem runOk_cons_of_ok {c : Instr × Operands} {rest : List (Instr × Operands)} {s s' : State}
    (h : exec c.1 { s with op := c.2 } = .next s') (hok : s'.status.last = .ok) :
    runOk (c :: rest) s = runOk rest s' := by
  simp only [runOk, h, if_pos hok]

/-- The mirrored list takes a Reader over the whole message along with the Writer's cursor, and gives the
completions of R202. -/
theorem runOk_mirrored {cs : List (Instr × Operands)} {s t u : State} (hs : s.Inv)
    (hcs : ∀ c ∈ cs, (mirrorOf c.1).isSome = true) (h : runOk cs s = some t)
    (hcap : t.w.len ≤ s.params.rCapMax) (hp : u.params = s.params) (hr : u.r = s.w.readerOver t.w) :
    ∃ v, runOk (cs.map mirrored) u = some v ∧
      v.completions = u.completions ++ cs.map readBack ∧ v.r = t.w.readerOver t.w := by
  induction cs generalizing s u with
  | nil =>
    obtain rfl := Option.some.inj h
    exact ⟨u, rfl, (List.append_nil _).symm, hr⟩
  | cons c cs ih =>
    obtain ⟨hc, hcs⟩ := List.forall_mem_cons.1 hcs
    obtain ⟨j, hj⟩ := Option.isSome_iff_exists.1 hc
    obtain ⟨s₁, hexec, hok, hrest⟩ := runOk_cons h
    have hs₁ : s₁.Inv := exec_inv (s := { s with op := c.2 }) hs hexec
    obtain ⟨hp₁, -⟩ := exec_precedes (s := { s with op := c.2 }) hs hc hexec
    obtain ⟨⟨-, ht, -⟩, hpt, hw₁⟩ := runOk_precedes hs₁ hcs hrest
    have hread := exec_mirrored (s := { s with op := c.2 })
      (u := { u with op := (mirrored c).2 }) hs hj hexec hok hw₁
      (hpt.trans hp₁ ▸ ht) hcap hp hr rfl rfl
    obtain ⟨v, hv, hcompletions, hcursor⟩ := ih (u := State.afterOk { u with
      op := (mirrored c).2, r := s₁.w.readerOver t.w } (readBack c).q (readBack c).pout)
      hs₁ hcs hrest (hp₁ ▸ hcap) (hp.trans hp₁.symm) rfl
    have hmirror : (mirrored c).1 = j := by rw [mirrored, hj]; rfl
    refine ⟨v, (runOk_cons_of_ok (c := mirrored c) (hmirror ▸ hread) rfl).trans hv, ?_, hcursor⟩
    rw [hcompletions, List.map_cons, State.afterOk_completions, List.append_assoc]
    rfl

end Sys2Proof.Machine

open Sys2Proof Sys2Proof.Machine

/-- Settles O57: the Reader at the start of the message is the one over it at the empty Writer's cursor, and
the mirrored list takes it to the cursor at the end. -/
theorem mirroredReadsReturnWhatWasWritten : Obligations.MirroredReadsReturnWhatWasWritten := by
  intro cs s t u hs h0 hcs h hu hp hoff hbit hlen hmem
  obtain ⟨hw₁, hw₂⟩ : s.w.offset = 0 ∧ s.w.bitOffset = 0 := by
    unfold Writer.position at h0
    omega
  have hstart : u.r = s.w.readerOver t.w := by
    rw [Writer.readerOver, hw₁.trans hoff.symm, hw₂.trans hbit.symm, ← hlen, ← hmem]
  have hcap : t.w.len ≤ s.params.rCapMax := by
    obtain ⟨-, -, -, -, hlenMax, -⟩ := hu
    rw [← hlen, ← hp]
    exact hlenMax
  obtain ⟨v, hv, hcompletions, hr⟩ := runOk_mirrored hs hcs h hcap hp hstart
  exact ⟨v, hv, hcompletions, by rw [hr]; rfl, by rw [hr]; rfl⟩
end

section
/-! The varint and zigzag commands (spec/42_varint_zigzag.md R230 to R245).  LEB128 emits one group a round, so
its bytes are the shortest encoding by the recursion of `leb_eq` (`isVarint_leb`).  Zigzag's laws are those of
its arithmetic form (`zigzagOf_unzigzagOf`), to which R233 and R234 reduce the bit formulas.  The four varint
reads and peeks are the scan `Reader.readVarint` with a word made of the value, so one lemma ends them all
(`varintReading_ends`). -/

namespace Sys2Proof.Machine

variable {p : Params} {w : Writer} {r : Reader} {i : Instr} {s : State} {k u v : Nat} {a : Word}

/-! ### The shortest encoding (R230) -/

/-- A number of one group is its own encoding. -/
theorem IsVarint.singleton (h : u < 128) : IsVarint u [BitVec.ofNat 8 u] := by
  refine ⟨le_rfl, by simpa using h, fun m hm _ => hm, fun j b hj => ?_⟩
  obtain ⟨rfl, rfl⟩ : j = 0 ∧ BitVec.ofNat 8 u = b := by
    simpa [List.getElem?_singleton] using hj
  simp only [BitVec.toNat_ofNat, List.length_singleton, if_true]
  omega

/-- The lowest group, marked, in front of the encoding of the other groups. -/
theorem IsVarint.cons {bytes : List Byte} (hu : 128 ≤ u) (h : IsVarint (u / 128) bytes) :
    IsVarint u (BitVec.ofNat 8 (u % 128 + 128) :: bytes) := by
  obtain ⟨hpos, hfits, hleast, hgroups⟩ := h
  have hshift : ∀ m, 2 ^ (7 * (m + 1)) = 2 ^ (7 * m) * 128 := fun m => pow_add 2 (7 * m) 7
  refine ⟨Nat.succ_pos _, ?_, fun m hm hlt => ?_, fun j b hj => ?_⟩
  · rw [List.length_cons, hshift]
    omega
  · obtain ⟨m, rfl⟩ : ∃ m', m = m' + 1 := ⟨m - 1, by omega⟩
    rw [hshift] at hlt
    have hm0 : m ≠ 0 := by
      rintro rfl
      omega
    exact Nat.succ_le_succ (hleast m (by omega) (by omega))
  · cases j with
    | zero =>
      obtain rfl := Option.some.inj hj
      rw [List.length_cons, if_neg (by omega), BitVec.toNat_ofNat]
      omega
    | succ j =>
      rw [hgroups j b hj, List.length_cons, Nat.div_div_eq_div_mul, Nat.mul_comm 128, ← hshift]
      simp only [Nat.add_right_cancel_iff]

theorem isVarint_leb (u : Nat) : IsVarint u (leb u) := by
  induction u using Nat.strong_induction_on with
  | _ u ih =>
    rw [leb_eq]
    split_ifs with hu
    · exact .singleton hu
    · exact .cons (Nat.le_of_not_lt hu) (ih (u / 128) (by omega))

/-! ### Zigzag as a bijection (R233 to R235) -/

/-- In arithmetic form, the code of the number a code stands for is that code. -/
theorem zigzagOf_unzigzagOf (u : Nat) : zigzagOf (unzigzagOf u) = u := by
  unfold zigzagOf unzigzagOf
  split_ifs <;> omega

theorem unzz_inRange (hv : 1 ≤ v) (hu : u < 2 ^ v) :
    -(2 ^ (v - 1)) ≤ unzz v u ∧ unzz v u ≤ 2 ^ (v - 1) - 1 := by
  have hcast : ((2 ^ (v - 1) : Nat) : Int) = 2 ^ (v - 1) := Int.natCast_pow 2 (v - 1)
  rw [unzz_eq_unzigzagOf hv hu, unzigzagOf]
  rw [← Nat.two_pow_pred_mul_two hv] at hu
  split_ifs <;> omega

theorem zz_unzz (hv : 1 ≤ v) (hu : u < 2 ^ v) : zz v (unzz v u) = u := by
  obtain ⟨hlo, hhi⟩ := unzz_inRange hv hu
  have hzz := zz_eq_zigzagOf hv hlo hhi
  rw [unzz_eq_unzigzagOf hv hu, zigzagOf_unzigzagOf] at hzz
  rw [unzz_eq_unzigzagOf hv hu]
  exact Int.ofNat_inj.1 hzz

theorem zz_largest (hv : 1 ≤ v) : zz v (2 ^ (v - 1) - 1) = 2 ^ v - 2 := by
  have hpos : (0 : Int) < 2 ^ (v - 1) := by positivity
  have hcast : ((2 ^ (v - 1) : Nat) : Int) = 2 ^ (v - 1) := Int.natCast_pow 2 (v - 1)
  have hzz := zz_eq_zigzagOf (x := 2 ^ (v - 1) - 1) hv (by omega) le_rfl
  rw [zigzagOf, if_pos (by omega)] at hzz
  rw [← Nat.two_pow_pred_mul_two hv]
  omega

theorem zz_smallest (hv : 1 ≤ v) : zz v (-(2 ^ (v - 1))) = 2 ^ v - 1 := by
  have hpos : (0 : Int) < 2 ^ (v - 1) := by positivity
  have hcast : ((2 ^ (v - 1) : Nat) : Int) = 2 ^ (v - 1) := Int.natCast_pow 2 (v - 1)
  have hzz := zz_eq_zigzagOf (x := -(2 ^ (v - 1))) hv le_rfl (by omega)
  rw [zigzagOf, if_neg (by omega)] at hzz
  rw [← Nat.two_pow_pred_mul_two hv]
  omega

/-- The varint width is at least 1 and at most the width of a word (R8). -/
theorem Params.legal_varw (h : p.wellFormed = true) : 1 ≤ p.varw ∧ p.varw ≤ 64 :=
  (Params.wellFormed_iff.1 h).1

/-- The code the machine computes, as the natural number of the arithmetic form. -/
theorem zz_eq_toNat (hp : p.wellFormed = true) {x : Int} (hx : InVarintRange p x) :
    zz p.varw x = (zigzagOf x).toNat := by
  obtain ⟨hlo, hhi⟩ := hx
  rw [← zz_eq_zigzagOf (Params.legal_varw hp).1 hlo hhi, Int.toNat_natCast]

/-- The word of a signed result denotes the number the code stands for. -/
theorem unzzWord_toInt (hp : p.wellFormed = true) (hu : u < 2 ^ p.varw) :
    (unzzWord p.varw u).toInt = unzigzagOf u := by
  obtain ⟨hv, hv64⟩ := Params.legal_varw hp
  obtain ⟨hlo, hhi⟩ := unzz_inRange hv hu
  rw [unzzWord, toInt_ofInt_of_inRange hv64 hlo hhi, unzz_eq_unzigzagOf hv hu]

/-! ### `WVARU` and `WVARS` -/

theorem Writer.writeVarUnsigned_overflow (h : 2 ^ p.varw ≤ a.toNat) :
    w.writeVarUnsigned p a = .error (.raise .overflow) := if_pos h

theorem Writer.writeVarUnsigned_of_lt (h : a.toNat < 2 ^ p.varw) :
    w.writeVarUnsigned p a = w.byteWrite p (leb a.toNat) := if_neg (Nat.not_le.2 h)

theorem Writer.writeVarSigned_overflow (h : ¬ InVarintRange p a.toInt) :
    w.writeVarSigned p a = .error (.raise .overflow) := if_neg (mt (inSignedRange_iff _ _).1 h)

theorem Writer.writeVarSigned_of_inRange (hp : p.wellFormed = true) (h : InVarintRange p a.toInt) :
    w.writeVarSigned p a = w.byteWrite p (leb (zigzagOf a.toInt).toNat) := by
  rw [← zz_eq_toNat hp h]
  exact if_pos ((inSignedRange_iff _ _).2 h)

/-! ### The varint reads and peeks -/

/-- The bytes the machine scans are those from the aligned cursor to the end (R238). -/
theorem Reader.start_add_remaining (hi : r.Inv p) : r.start + (r.len - r.start) = r.len :=
  Nat.add_sub_cancel' (Reader.start_le hi)

theorem Reader.readVarint_outOfBounds_of_none (hi : r.Inv p)
    (h : ∀ k, ¬ VarintAt r.mem r.start r.len k) :
    r.readVarint p = .error (.raise .outOfBounds) := by
  have hend := Reader.start_add_remaining hi
  obtain ⟨-, -, -, -, hr⟩ := hi
  have hscan := unleb_outOfBounds (k := r.len - r.start) hr hend.le (hend.symm ▸ h)
  simp only [Reader.readVarint, hscan]

/-- Where a varint stands the scan finds it; the range test of its value comes after. -/
theorem Reader.readVarint_of_varintAt (hi : r.Inv p) (h : VarintAt r.mem r.start r.len k) :
    r.readVarint p = if 2 ^ p.varw ≤ varintValue r.mem r.start k then .error (.raise .overflow)
      else .ok (varintValue r.mem r.start k, r.seekByte (r.start + k)) := by
  have hend := Reader.start_add_remaining hi
  obtain ⟨-, -, -, -, hr⟩ := hi
  have hscan := unleb_of_varintAt (k := r.len - r.start) hr hend.le (hend.symm ▸ h)
  simp only [Reader.readVarint, hscan]

/-- What a varint read answers: the word made of the value, and the Reader behind the bytes. -/
def varintReading (word : Nat → Word) (x : Nat × Reader) : Reading :=
  { reader := x.2, q := word x.1, pout := [] }

theorem Reader.readVarUnsigned_eq (p : Params) (r : Reader) :
    r.readVarUnsigned p = (r.readVarint p).map (varintReading (BitVec.ofNat 64)) := by
  unfold Reader.readVarUnsigned
  cases r.readVarint p <;> rfl

theorem Reader.readVarSigned_eq (p : Params) (r : Reader) :
    r.readVarSigned p = (r.readVarint p).map (varintReading (unzzWord p.varw)) := by
  unfold Reader.readVarSigned
  cases r.readVarint p <;> rfl

/-- How a command that is a varint read, or its peek, ends. -/
theorem varintReading_ends {peek : Bool} {word : Nat → Word} {x : Result Reading}
    (hi : s.r.Inv s.params) (hpin : s.op.pin = [])
    (hexec : exec i s = s.perform s.op.noPayload (s.reading peek x))
    (hx : x = (s.r.readVarint s.params).map (varintReading word)) :
    ((∀ k, ¬ VarintAt s.r.mem s.r.start s.r.len k) → EndsInError i s .outOfBounds) ∧
    ∀ k, VarintAt s.r.mem s.r.start s.r.len k →
      (2 ^ s.params.varw ≤ varintValue s.r.mem s.r.start k → EndsInError i s .overflow) ∧
      (varintValue s.r.mem s.r.start k < 2 ^ s.params.varw →
        EndsOk i s (if peek then s else { s with r := s.r.seekByte (s.r.start + k) })
          (word (varintValue s.r.mem s.r.start k)) []) := by
  refine ⟨fun h => ?_, fun k h => ⟨fun hv => ?_, fun hv => ?_⟩⟩
  · rw [Reader.readVarint_outOfBounds_of_none hi h] at hx
    exact .of_reading hexec hpin hx
  · rw [Reader.readVarint_of_varintAt hi h, if_pos hv] at hx
    exact .of_reading hexec hpin hx
  · rw [Reader.readVarint_of_varintAt hi h, if_neg (Nat.not_le.2 hv)] at hx
    exact .of_reading hexec hpin hx

/-! ### `ZIGZAG` and `UNZIGZAG` -/

section
variable {x : Result Word} {q : Word} {e : Status}

/-- A command that only computes completes with the value of its rule. -/
theorem EndsOk.of_computing (hexec : exec i s = s.perform s.op.noPayload (s.computing x))
    (hpin : s.op.pin = []) (hx : x = .ok q) : EndsOk i s s q [] := by
  subst hx
  exact hexec.trans (State.perform_ok ((Operands.noPayload_iff _).2 hpin) rfl)

/-- A command that only computes ends in the error its rule raises. -/
theorem EndsInError.of_computing (hexec : exec i s = s.perform s.op.noPayload (s.computing x))
    (hpin : s.op.pin = []) (hx : x = .error (.raise e)) : EndsInError i s e :=
  hexec.trans (State.perform_raise ((Operands.noPayload_iff _).2 hpin) (State.computing_error.2 hx))

end

theorem zigzagValue_overflow (h : ¬ InVarintRange p a.toInt) :
    zigzagValue p a = .error (.raise .overflow) := if_neg (mt (inSignedRange_iff _ _).1 h)

theorem zigzagValue_of_inRange (hp : p.wellFormed = true) (h : InVarintRange p a.toInt) :
    zigzagValue p a = .ok (BitVec.ofNat 64 (zigzagOf a.toInt).toNat) := by
  rw [← zz_eq_toNat hp h]
  exact if_pos ((inSignedRange_iff _ _).2 h)

theorem unzigzagValue_overflow (h : 2 ^ p.varw ≤ a.toNat) :
    unzigzagValue p a = .error (.raise .overflow) := if_pos h

theorem unzigzagValue_of_lt (h : a.toNat < 2 ^ p.varw) :
    unzigzagValue p a = .ok (unzzWord p.varw a.toNat) := if_neg (Nat.not_le.2 h)

end Sys2Proof.Machine

open Sys2Proof Sys2Proof.Machine

/-- Settles O30: the two commands hand the encoding of A, or of its zigzag code, to the byte-level write. -/
theorem varintWritesStoreTheShortestEncoding : Obligations.VarintWritesStoreTheShortestEncoding := by
  refine ⟨rfl, rfl, fun s hs hpin => ?_⟩
  have hf : s.op.noPayload = true := (Operands.noPayload_iff _).2 hpin
  have ⟨hp, _⟩ := hs
  exact ⟨fun ha => State.perform_writing_raise hf (Writer.writeVarUnsigned_overflow ha),
    fun ha => ⟨_, isVarint_leb _, .of_byteWrite hs hf rfl (Writer.writeVarUnsigned_of_lt ha)⟩,
    fun ha => State.perform_writing_raise hf (Writer.writeVarSigned_overflow ha),
    fun ha => ⟨_, isVarint_leb _, .of_byteWrite hs hf rfl (Writer.writeVarSigned_of_inRange hp ha)⟩⟩

/-- Settles O38: the four commands are one scan, the signed ones with the un-zigzag of its value. -/
theorem varintReadsReturnTheDecodedValue : Obligations.VarintReadsReturnTheDecodedValue := by
  refine ⟨rfl, rfl, rfl, rfl, fun s ⟨hp, _, hr⟩ hpin => ?_⟩
  have hu := Reader.readVarUnsigned_eq s.params s.r
  have hs := Reader.readVarSigned_eq s.params s.r
  obtain ⟨hnone₁, hsome₁⟩ := varintReading_ends (i := .rvaru) hr hpin rfl hu
  obtain ⟨hnone₂, hsome₂⟩ := varintReading_ends (i := .rvars) hr hpin rfl hs
  obtain ⟨hnone₃, hsome₃⟩ := varintReading_ends (i := .pvaru) hr hpin rfl hu
  obtain ⟨hnone₄, hsome₄⟩ := varintReading_ends (i := .pvars) hr hpin rfl hs
  refine ⟨fun h => ⟨hnone₁ h, hnone₂ h, hnone₃ h, hnone₄ h⟩, fun k h => ?_⟩
  obtain ⟨hover₁, hok₁⟩ := hsome₁ k h
  obtain ⟨hover₂, hok₂⟩ := hsome₂ k h
  obtain ⟨hover₃, hok₃⟩ := hsome₃ k h
  obtain ⟨hover₄, hok₄⟩ := hsome₄ k h
  exact ⟨fun hv => ⟨hover₁ hv, hover₂ hv, hover₃ hv, hover₄ hv⟩,
    fun hv => ⟨hok₁ hv, hok₃ hv, _, unzzWord_toInt hp hv, hok₂ hv, hok₄ hv⟩⟩

/-- Settles O40, by the recursion of `leb`: each round emits the lowest group of what is left. -/
theorem lebIsTheShortestEncoding : Obligations.LebIsTheShortestEncoding := isVarint_leb

/-- Settles O41, by the recursion of `leb`: each round of the decoder takes off the group one round emitted. -/
theorem unlebInvertsLeb : Obligations.UnlebInvertsLeb := fun _ _ _ _ => unleb_leb

/-- Settles O42: the XOR with all ones is the complement. -/
theorem zigzagIsItsArithmeticForm : Obligations.ZigzagIsItsArithmeticForm := fun _ _ => zz_eq_zigzagOf

/-- Settles O43: the XOR with all ones is the complement, whose signed reading is negative. -/
theorem unzigzagIsItsArithmeticForm : Obligations.UnzigzagIsItsArithmeticForm :=
  fun _ _ => unzz_eq_unzigzagOf

/-- Settles O44: the arithmetic forms are inverse to each other, and the bit formulas equal them. -/
theorem zigzagIsABijection : Obligations.ZigzagIsABijection := by
  refine fun v hv => ⟨fun x => unzz_zz hv, fun u hu => ?_, zz_largest hv, zz_smallest hv⟩
  obtain ⟨hlo, hhi⟩ := unzz_inRange hv hu
  exact ⟨hlo, hhi, zz_unzz hv hu⟩

/-- Settles O45, by the range tests in front of the two functions. -/
theorem zigzagCommandsReturnTheMappedValues : Obligations.ZigzagCommandsReturnTheMappedValues := by
  refine ⟨rfl, rfl, fun s ⟨hp, _⟩ hpin => ?_⟩
  exact ⟨fun ha => .of_computing rfl hpin (zigzagValue_overflow ha),
    fun ha => .of_computing rfl hpin (zigzagValue_of_inRange hp ha),
    fun ha => .of_computing rfl hpin (unzigzagValue_overflow ha),
    fun ha => ⟨_, unzzWord_toInt hp ha, .of_computing rfl hpin (unzigzagValue_of_lt ha)⟩⟩
end
section
/-! The precision codec (spec/43_precision.md R260 to R268).  Exponent and fraction of a pattern with sign 0 are
one number, and its magnitude in units of 2^(−1074) is a strictly monotone function of that number
(`unitsOf_strictMono`).  So `rne64` has to decide between the two patterns about the exact value
(`rne64_roundsTo`), and R263's nearest pattern, R265's corner cases and R266's bound all follow from the one
description of that decision (`RoundsTo`).  `TOPREC` is R261 with the unit cancelled (`quant_eq_floor`). -/

namespace Sys2Proof.Machine

section
variable {a b p : Word} {c y : ℚ} {j k m n x q num den : Nat}

/-! ### Magnitudes in whole units (R260) -/

/-- The magnitude of the pattern with sign 0 and number `k`, in units of 2^(−1074): exponent and fraction
together are one number, so the patterns stand in the order of their magnitudes. -/
def unitsOf (k : Nat) : Nat :=
  if k < 2 ^ 52 then k else (2 ^ 52 + k % 2 ^ 52) * 2 ^ (k / 2 ^ 52 - 1)

/-- The smallest positive binary64, 2^(−1074). -/
def unitValue : ℚ := 1 / 2 ^ 1074

theorem unitValue_pos : 0 < unitValue := by unfold unitValue; positivity

/-- A significand of at most 53 bits and an exponent, put together as R263 does; the carry to 2^53
included. -/
theorem unitsOf_assemble (hq : q ≤ 2 ^ 53) (hx : x = 0 ∨ 2 ^ 52 ≤ q) :
    unitsOf (x * 2 ^ 52 + q) = q * 2 ^ x := by
  unfold unitsOf
  obtain hsub | hnormal := Nat.lt_or_ge q (2 ^ 52)
  · obtain rfl : x = 0 := hx.resolve_right (by omega)
    rw [if_pos (by omega)]
    omega
  · rw [if_neg (by omega)]
    obtain rfl | hlt := Nat.eq_or_lt_of_le hq
    · rw [show (x * 2 ^ 52 + 2 ^ 53) % 2 ^ 52 = 0 by omega,
        show (x * 2 ^ 52 + 2 ^ 53) / 2 ^ 52 - 1 = x + 1 by omega, Nat.pow_succ' (n := x)]
      omega
    · rw [show 2 ^ 52 + (x * 2 ^ 52 + q) % 2 ^ 52 = q by omega,
        show (x * 2 ^ 52 + q) / 2 ^ 52 - 1 = x by omega]

/-- Every number is put together from a significand and an exponent. -/
theorem exists_assemble (k : Nat) : ∃ q, q < 2 ^ 53 ∧ (k / 2 ^ 52 - 1 = 0 ∨ 2 ^ 52 ≤ q) ∧
    k = (k / 2 ^ 52 - 1) * 2 ^ 52 + q :=
  ⟨k - (k / 2 ^ 52 - 1) * 2 ^ 52, by omega, by omega, by omega⟩

/-- The step from a pattern to the next is one unit in the last place. -/
theorem unitsOf_succ (k : Nat) : unitsOf (k + 1) = unitsOf k + 2 ^ (k / 2 ^ 52 - 1) := by
  obtain ⟨q, hq, hx, hk⟩ := exists_assemble k
  generalize k / 2 ^ 52 - 1 = x at hx hk ⊢
  subst hk
  rw [unitsOf_assemble hq.le hx, Nat.add_assoc, unitsOf_assemble (q := q + 1) hq (by omega),
    Nat.add_mul, Nat.one_mul]

theorem unitsOf_strictMono : StrictMono unitsOf :=
  strictMono_nat_of_lt_succ fun k => by
    rw [unitsOf_succ]
    exact Nat.lt_add_of_pos_right (Nat.two_pow_pos _)

@[simp] theorem unitsOf_zero : unitsOf 0 = 0 := rfl

/-- The step to the next pattern is one unit, or small against the magnitude. -/
theorem step_le_unitsOf (k : Nat) :
    unitsOf (k + 1) = unitsOf k + 1 ∨ 2 ^ 52 * unitsOf (k + 1) ≤ (2 ^ 52 + 1) * unitsOf k := by
  obtain ⟨q, hq, hx, hk⟩ := exists_assemble k
  rw [unitsOf_succ]
  generalize k / 2 ^ 52 - 1 = x at hx hk ⊢
  subst hk
  rw [unitsOf_assemble hq.le hx]
  obtain rfl | hnormal := hx
  · exact .inl rfl
  · have hstep := Nat.mul_le_mul_right (2 ^ x) hnormal
    exact .inr (by linarith)

/-! ### Rounding to the nearest pattern (R263) -/

/-- `k` is the pattern number of the rounding of `y` units: of the two patterns about `y` the nearer one, on
a tie the even one. -/
inductive RoundsTo (y : ℚ) : Nat → Prop
  | down {k : Nat} (hlo : unitsOf k ≤ y) (hhi : y < unitsOf (k + 1))
      (h : y - unitsOf k < unitsOf (k + 1) - y ∨ y - unitsOf k = unitsOf (k + 1) - y ∧ k % 2 = 0) :
      RoundsTo y k
  | up {k : Nat} (hlo : unitsOf k ≤ y) (hhi : y < unitsOf (k + 1))
      (h : unitsOf (k + 1) - y < y - unitsOf k ∨ y - unitsOf k = unitsOf (k + 1) - y ∧ k % 2 = 1) :
      RoundsTo y (k + 1)

theorem unitsOf_cast_le (h : j ≤ k) : (unitsOf j : ℚ) ≤ unitsOf k :=
  Nat.cast_le.2 (unitsOf_strictMono.monotone h)

/-- No other pattern is nearer, and where one is as near the result is even. -/
theorem RoundsTo.nearest (h : RoundsTo y k) (j : Nat) :
    |(unitsOf k : ℚ) - y| ≤ |(unitsOf j : ℚ) - y| ∧
      (|(unitsOf k : ℚ) - y| = |(unitsOf j : ℚ) - y| → unitsOf j ≠ unitsOf k → k % 2 = 0) := by
  cases h with
  | @down k hlo hhi h =>
    rw [abs_of_nonpos (sub_nonpos.2 hlo)]
    obtain hj | hj := Nat.lt_or_ge k j
    · have hjk := unitsOf_cast_le (Nat.succ_le_of_lt hj)
      rw [abs_of_nonneg (by linarith)]
      obtain h | ⟨h, heven⟩ := h
      · exact ⟨by linarith, fun heq => by linarith⟩
      · exact ⟨by linarith, fun _ _ => heven⟩
    · have hjk := unitsOf_cast_le hj
      rw [abs_of_nonpos (by linarith)]
      exact ⟨by linarith, fun heq hne => absurd (Nat.cast_injective (R := ℚ) (by linarith)) hne⟩
  | @up k hlo hhi h =>
    rw [abs_of_nonneg (sub_nonneg.2 hhi.le)]
    obtain hj | hj := Nat.lt_or_ge k j
    · have hjk := unitsOf_cast_le (Nat.succ_le_of_lt hj)
      rw [abs_of_nonneg (by linarith)]
      exact ⟨by linarith, fun heq hne => absurd (Nat.cast_injective (R := ℚ) (by linarith)) hne⟩
    · have hjk := unitsOf_cast_le hj
      rw [abs_of_nonpos (by linarith)]
      obtain h | ⟨h, hodd⟩ := h
      · exact ⟨by linarith, fun heq => by linarith⟩
      · exact ⟨by linarith, fun _ _ => by omega⟩

/-- Rounding does not go above a pattern at or above `y`. -/
theorem RoundsTo.le_of_le (h : RoundsTo y k) (hy : y ≤ unitsOf m) : k ≤ m := by
  by_contra hkm
  cases h with
  | @down k hlo hhi h =>
    have hle : unitsOf k ≤ unitsOf m := Nat.cast_le.1 (hlo.trans hy)
    exact hkm (unitsOf_strictMono.le_iff_le.1 hle)
  | @up k hlo hhi h =>
    have hmk := unitsOf_cast_le (show m ≤ k by omega)
    obtain h | ⟨h, -⟩ := h <;> linarith

/-- An exact value rounds to itself. -/
theorem RoundsTo.eq_of_eq (h : RoundsTo y k) (hy : y = unitsOf m) : k = m := by
  obtain ⟨hnear, -⟩ := h.nearest m
  rw [hy, sub_self, abs_zero, abs_nonpos_iff, sub_eq_zero, Nat.cast_inj] at hnear
  exact unitsOf_strictMono.injective hnear

/-- Half the step from a pattern not above `y`: half a unit, or a 2^(−53) of `y`. -/
theorem half_step_le (hlo : unitsOf k ≤ y) :
    ((unitsOf (k + 1) : ℚ) - unitsOf k) / 2 ≤ max (y / 2 ^ 53) (1 / 2) := by
  obtain hstep | hstep := step_le_unitsOf k
  · refine le_max_of_le_right ?_
    rw [hstep]
    push_cast
    linarith
  · refine le_max_of_le_left ?_
    have : (2 ^ 52 * unitsOf (k + 1) : ℚ) ≤ (2 ^ 52 + 1) * unitsOf k := by exact_mod_cast hstep
    linarith

/-- Rounding is off by at most half a unit in the last place (R266). -/
theorem RoundsTo.error_le (h : RoundsTo y k) : |(unitsOf k : ℚ) - y| ≤ max (y / 2 ^ 53) (1 / 2) := by
  cases h with
  | @down k hlo hhi h =>
    rw [abs_of_nonpos (sub_nonpos.2 hlo)]
    obtain h | ⟨h, -⟩ := h <;> linarith [half_step_le hlo]
  | @up k hlo hhi h =>
    rw [abs_of_nonneg (sub_nonneg.2 hhi.le)]
    obtain h | ⟨h, -⟩ := h <;> linarith [half_step_le hlo]

/-! ### `rne64` (R263) -/

/-- The two numbers about the quotient between which `roundHalfEven` decides. -/
theorem roundHalfEven_cases (num den : Nat) :
    (roundHalfEven num den = num / den ∧ (2 * (num % den) < den ∨
      2 * (num % den) = den ∧ num / den % 2 = 0)) ∨
    (roundHalfEven num den = num / den + 1 ∧ (den < 2 * (num % den) ∨
      2 * (num % den) = den ∧ num / den % 2 = 1)) := by
  simp only [roundHalfEven]
  split_ifs with h <;> omega

/-- The shift of `rne64` leaves a significand of 53 bits, or of fewer with no shift. -/
theorem shifted_bounds (v : Nat) :
    v / 2 ^ (v.log2 - 52) < 2 ^ 53 ∧ (v.log2 - 52 = 0 ∨ 2 ^ 52 ≤ v / 2 ^ (v.log2 - 52)) := by
  have hlt : v < 2 ^ (v.log2 + 1) := Nat.lt_log2_self
  rw [Nat.div_lt_iff_lt_mul (Nat.two_pow_pos _), Nat.le_div_iff_mul_le (Nat.two_pow_pos _), ← pow_add,
    ← pow_add]
  refine ⟨hlt.trans_le (Nat.pow_le_pow_right (by omega) (by omega)), ?_⟩
  obtain hlarge | hsmall := Nat.lt_or_ge 52 v.log2
  · have hv : v ≠ 0 := by
      rintro rfl
      simp at hlarge
    rw [Nat.add_sub_cancel' hlarge.le]
    exact .inr (Nat.log2_self_le hv)
  · exact .inl (Nat.sub_eq_zero_of_le hsmall)

/-- The three ways `rne64` writes its pattern are one sum of exponent and significand. -/
theorem rne64_eq (num den : Nat) : ∃ x q, q = num / (den * 2 ^ x) ∧ q < 2 ^ 53 ∧ (x = 0 ∨ 2 ^ 52 ≤ q) ∧
    rne64 num den = BitVec.ofNat 64 (x * 2 ^ 52 + roundHalfEven num (den * 2 ^ x)) := by
  obtain ⟨hq, hx⟩ := shifted_bounds (num / den)
  rw [Nat.div_div_eq_div_mul] at hq hx
  refine ⟨_, _, rfl, hq, hx, ?_⟩
  unfold rne64
  extract_lets x r
  have hr : r = num / (den * 2 ^ x) ∨ r = num / (den * 2 ^ x) + 1 :=
    (roundHalfEven_cases num (den * 2 ^ x)).imp And.left And.left
  have hx : x = 0 ∨ 2 ^ 52 ≤ num / (den * 2 ^ x) := hx
  change _ = BitVec.ofNat 64 (x * 2 ^ 52 + r)
  split_ifs <;> refine congrArg (BitVec.ofNat 64) ?_ <;> omega

/-- The remainder of the shifted quotient, against half a unit in the last place. -/
theorem remainder_compare (hden : 0 < den) (d x : Nat) :
    ((d : ℚ) / den < 2 ^ x - d / den ↔ 2 * d < den * 2 ^ x) ∧
    ((d : ℚ) / den = 2 ^ x - d / den ↔ 2 * d = den * 2 ^ x) ∧
    (2 ^ x - (d : ℚ) / den < d / den ↔ den * 2 ^ x < 2 * d) := by
  have hden' : (0 : ℚ) < den := Nat.cast_pos.2 hden
  rw [lt_sub_iff_add_lt, eq_sub_iff_add_eq, sub_lt_iff_lt_add, ← add_div, ← two_mul, div_lt_iff₀ hden',
    lt_div_iff₀ hden', div_eq_iff hden'.ne', mul_comm (2 ^ x : ℚ)]
  norm_cast

/-- `rne64` gives the rounding of its quotient. -/
theorem rne64_roundsTo (num : Nat) (hden : 0 < den) :
    ∃ k, rne64 num den = BitVec.ofNat 64 k ∧ RoundsTo ((num : ℚ) / den) k := by
  obtain ⟨x, q, hqdef, hq, hx, hrne⟩ := rne64_eq num den
  refine ⟨_, hrne, ?_⟩
  have hmod := Nat.mod_lt num (Nat.mul_pos hden (Nat.two_pow_pos x))
  have hnum := Nat.div_add_mod num (den * 2 ^ x)
  have hcases := roundHalfEven_cases num (den * 2 ^ x)
  rw [← hqdef] at hcases hnum
  generalize num % (den * 2 ^ x) = d at hmod hcases hnum
  obtain ⟨hlt, heq, hgt⟩ := remainder_compare hden d x
  have hlo : (num : ℚ) / den - unitsOf (x * 2 ^ 52 + q) = d / den := by
    rw [unitsOf_assemble hq.le hx, ← hnum]
    push_cast
    field_simp
    ring
  have hhi : unitsOf (x * 2 ^ 52 + q + 1) - (num : ℚ) / den = 2 ^ x - d / den := by
    rw [Nat.add_assoc, unitsOf_assemble (q := q + 1) hq (by omega), ← hnum]
    push_cast
    field_simp
    ring
  have hbelow : (unitsOf (x * 2 ^ 52 + q) : ℚ) ≤ num / den := by
    rw [← sub_nonneg, hlo]
    positivity
  have habove : (num : ℚ) / den < unitsOf (x * 2 ^ 52 + q + 1) := by
    rw [← sub_pos, hhi, sub_pos, div_lt_iff₀' (Nat.cast_pos.2 hden)]
    exact_mod_cast hmod
  rw [← hhi, ← hlo] at hlt heq hgt
  obtain ⟨hr, h⟩ | ⟨hr, h⟩ := hcases
  · rw [hr]
    exact .down hbelow habove (h.imp hlt.2 fun ⟨htie, heven⟩ => ⟨heq.2 htie, by omega⟩)
  · rw [hr, ← Nat.add_assoc]
    exact .up hbelow habove (h.imp hgt.2 fun ⟨htie, hodd⟩ => ⟨heq.2 htie, by omega⟩)

/-! ### binary64 patterns (R260) -/

theorem expOf_eq (p : Word) : expOf p = p.toNat % 2 ^ 63 / 2 ^ 52 := by
  unfold expOf
  omega

theorem fracOf_eq (p : Word) : fracOf p = p.toNat % 2 ^ 63 % 2 ^ 52 := by
  unfold fracOf
  omega

/-- The magnitude of a pattern, in units: that of the pattern with sign 0. -/
def wordUnits (p : Word) : Nat := unitsOf (p.toNat % 2 ^ 63)

theorem wordUnits_of_nonneg (h : ¬ isNegative p) : wordUnits p = unitsOf p.toNat := by
  rw [wordUnits, Nat.mod_eq_of_lt (Nat.lt_of_not_le h)]

/-- R260's two cases, in units. -/
theorem wordUnits_eq (p : Word) : wordUnits p =
    if expOf p = 0 then fracOf p else (2 ^ 52 + fracOf p) * 2 ^ (expOf p - 1) := by
  rw [wordUnits, unitsOf, expOf_eq, fracOf_eq]
  obtain hsub | hnormal := Nat.lt_or_ge (p.toNat % 2 ^ 63) (2 ^ 52)
  · rw [if_pos hsub, if_pos (Nat.div_eq_of_lt hsub), Nat.mod_eq_of_lt hsub]
  · rw [if_neg (Nat.not_lt.2 hnormal), if_neg (by omega)]

/-- R260's value of a magnitude, in units. -/
theorem magnitude_eq (p : Word) : magnitude p = wordUnits p * unitValue := by
  rw [magnitude, wordUnits_eq, unitValue, mul_one_div]
  cases expOf p with
  | zero => rw [if_pos rfl, if_pos rfl]
  | succ e =>
    rw [if_neg e.succ_ne_zero, if_neg e.succ_ne_zero, Nat.add_sub_cancel, pow_succ (2 : ℚ) e,
      pow_succ (2 : ℚ) 1074, ← mul_assoc, mul_div_mul_right _ _ two_ne_zero, Nat.cast_mul, Nat.cast_add,
      Nat.cast_pow, Nat.cast_pow, Nat.cast_two]

theorem realValue_of_nonneg (h : ¬ isNegative p) : realValue p = unitsOf p.toNat * unitValue := by
  rw [realValue, if_pos (Nat.lt_of_not_le h), magnitude_eq, wordUnits_of_nonneg h]

theorem realValue_of_negative (h : isNegative p) : realValue p = -(wordUnits p * unitValue) := by
  rw [realValue, if_neg (Nat.not_lt.2 h), magnitude_eq]

theorem realValue_nonneg (h : ¬ isNegative p) : 0 ≤ realValue p := by
  rw [realValue_of_nonneg h]
  exact mul_nonneg (Nat.cast_nonneg _) unitValue_pos.le

theorem realValue_nonpos (h : isNegative p) : realValue p ≤ 0 := by
  rw [realValue_of_negative h, neg_nonpos]
  exact mul_nonneg (Nat.cast_nonneg _) unitValue_pos.le

/-- The machine's reading of a pattern, in the terms of R260. -/
theorem binary64_eq (p : Word) : binary64 p =
    if expOf p = 2047 then if fracOf p = 0 then .infinite (decide (isNegative p)) else .nan
    else .finite (decide (isNegative p)) (wordUnits p) := by
  have hexp : exponentField p = expOf p := by
    rw [exponentField, BitVec.extractLsb'_toNat, Nat.shiftRight_eq_div_pow, expOf]
  have hfrac : fractionField p = fracOf p := by
    rw [fractionField, BitVec.extractLsb'_toNat, Nat.shiftRight_zero, fracOf]
  have hsign : signBit p = decide (isNegative p) := by
    rw [signBit, BitVec.getLsbD, Nat.testBit_eq_decide_div_mod_eq]
    have := p.isLt
    exact decide_eq_decide.2 (by omega)
  rw [binary64, hexp, hfrac, hsign, wordUnits_eq]
  split_ifs <;> rfl

/-! ### The operands `maxValue` and value (R264) -/

theorem validMax_iff : ValidMax b ↔ isFinite b ∧ ¬ isNegative b ∧ 0 < unitsOf b.toNat := by
  refine and_congr_right fun _ => ?_
  by_cases hneg : isNegative b
  · exact iff_of_false (realValue_nonpos hneg).not_gt fun h => h.1 hneg
  · rw [realValue_of_nonneg hneg, mul_pos_iff_of_pos_right unitValue_pos, Nat.cast_pos]
    exact (and_iff_right hneg).symm

theorem maxValueOf_of_valid (h : ValidMax b) : maxValueOf b = some (unitsOf b.toNat) := by
  obtain ⟨hfin, hpos, hunits⟩ := validMax_iff.1 h
  rw [maxValueOf, binary64_eq, if_neg hfin, decide_eq_false hpos, wordUnits_of_nonneg hpos]
  exact if_pos hunits

theorem maxValueOf_of_not_valid (h : ¬ ValidMax b) : maxValueOf b = none := by
  rw [validMax_iff] at h
  rw [maxValueOf, binary64_eq]
  by_cases hfin : isFinite b
  · rw [if_neg hfin]
    by_cases hneg : isNegative b
    · rw [decide_eq_true hneg]
    · rw [decide_eq_false hneg, wordUnits_of_nonneg hneg]
      exact if_neg fun hunits => h ⟨hfin, hneg, hunits⟩
  · rw [if_pos (not_not.1 hfin)]
    split_ifs <;> rfl

/-- Every value but NaN has a clamped value. -/
theorem exists_clampedTo (h : ¬ isNaN a) (b : Word) : ∃ c, ClampedTo a b c := by
  by_cases hfin : isFinite a
  · exact ⟨_, .inr (.inr ⟨hfin, rfl⟩)⟩
  · have hinf : isInfinite a := ⟨not_not.1 hfin, by_contra fun hfrac => h ⟨not_not.1 hfin, hfrac⟩⟩
    by_cases hneg : isNegative a
    · exact ⟨_, .inl ⟨hinf, hneg, rfl⟩⟩
    · exact ⟨_, .inr (.inl ⟨hinf, hneg, rfl⟩)⟩

theorem clampedValue_nan (h : isNaN a) (M : Nat) : clampedValue a M = none := by
  obtain ⟨hexp, hfrac⟩ := h
  rw [clampedValue, binary64_eq, if_pos hexp, if_neg hfrac]

theorem clampedValue_infinite (h : isInfinite a) (M : Nat) :
    clampedValue a M = some (if isNegative a then 0 else M) := by
  obtain ⟨hexp, hfrac⟩ := h
  rw [clampedValue, binary64_eq, if_pos hexp, if_pos hfrac]
  by_cases hneg : isNegative a
  · rw [decide_eq_true hneg, if_pos hneg]
  · rw [decide_eq_false hneg, if_neg hneg]

theorem clampedValue_finite (h : isFinite a) (M : Nat) :
    clampedValue a M = some (if isNegative a then 0 else min (unitsOf a.toNat) M) := by
  rw [clampedValue, binary64_eq, if_neg h]
  by_cases hneg : isNegative a
  · rw [decide_eq_true hneg, if_pos hneg]
  · rw [decide_eq_false hneg, if_neg hneg, wordUnits_of_nonneg hneg]

/-- The machine's clamped value is R264's, in units. -/
theorem clampedValue_of_clampedTo (hb : ValidMax b) (h : ClampedTo a b c) :
    ∃ C, clampedValue a (unitsOf b.toNat) = some C ∧ C ≤ unitsOf b.toNat ∧ c = C * unitValue := by
  obtain ⟨-, hpos, -⟩ := validMax_iff.1 hb
  have hM := realValue_of_nonneg hpos
  obtain ⟨hinf, hneg, rfl⟩ | ⟨hinf, hneg, rfl⟩ | ⟨hfin, rfl⟩ := h
  · rw [clampedValue_infinite hinf, if_pos hneg]
    exact ⟨0, rfl, Nat.zero_le _, by rw [Nat.cast_zero, zero_mul]⟩
  · rw [clampedValue_infinite hinf, if_neg hneg]
    exact ⟨_, rfl, le_rfl, hM⟩
  · rw [clampedValue_finite hfin]
    by_cases hneg : isNegative a
    · rw [if_pos hneg, max_eq_right (realValue_nonpos hneg), min_eq_left (realValue_nonneg hpos)]
      exact ⟨0, rfl, Nat.zero_le _, by rw [Nat.cast_zero, zero_mul]⟩
    · rw [if_neg hneg, max_eq_left (realValue_nonneg hneg), hM, realValue_of_nonneg hneg]
      refine ⟨_, rfl, min_le_right _ _, ?_⟩
      rw [Nat.cast_min, min_mul_of_nonneg _ _ unitValue_pos.le]

/-! ### `TOPREC` (R261, R264) -/

theorem quant_eq_floor (C : Nat) (hm : 0 < m) (n : Nat) :
    (quant C m n : Int) = ⌊(C : ℚ) / m * (2 ^ n - 1) + 1 / 2⌋ := by
  have hm' : (0 : ℚ) < m := Nat.cast_pos.2 hm
  have hquotient : (C : ℚ) / m * (2 ^ n - 1) + 1 / 2 =
      ((2 * C * (2 ^ n - 1) + m : Nat) : ℚ) / (2 * m : Nat) := by
    push_cast [Nat.one_le_two_pow]
    field_simp
  rw [hquotient, Rat.floor_natCast_div_natCast, quant]
  rfl

/-- A value up to the maximum quantizes to at most 2^n − 1. -/
theorem quant_le (hm : 0 < m) (h : k ≤ m) (n : Nat) : quant k m n ≤ 2 ^ n - 1 := by
  rw [quant, ← Nat.lt_succ_iff, Nat.div_lt_iff_lt_mul (by omega)]
  have := Nat.mul_le_mul_right (2 ^ n - 1) h
  linarith

theorem width_mem_iff (n : Nat) : ¬ (n < 1 ∨ Config.precMax < n) ↔ 1 ≤ n ∧ n ≤ 32 := by
  rw [not_or, Nat.not_lt, Nat.not_lt]
  rfl

theorem toPrecision_invalid (h : n < 1 ∨ 32 < n ∨ ¬ ValidMax b ∨ isNaN a) :
    toPrecision n a b = .error (.raise .invalidParameter) := by
  unfold toPrecision
  by_cases hn : n < 1 ∨ Config.precMax < n
  · exact if_pos hn
  · obtain ⟨hlo, hhi⟩ := (width_mem_iff n).1 hn
    have hoperand : ¬ ValidMax b ∨ isNaN a := (h.resolve_left (by omega)).resolve_left (by omega)
    rw [if_neg hn]
    by_cases hb : ValidMax b
    · have ha : isNaN a := hoperand.resolve_left (not_not.2 hb)
      simp only [maxValueOf_of_valid hb, clampedValue_nan ha]
    · simp only [maxValueOf_of_not_valid hb]

/-- What `TOPREC` returns for a value with a clamped value `c`. -/
theorem toPrecision_of_valid (hlo : 1 ≤ n) (hhi : n ≤ 32) (hb : ValidMax b) (hc : ClampedTo a b c) :
    ∃ q : Word, toPrecision n a b = .ok q ∧
      (q.toNat : Int) = ⌊c / realValue b * (2 ^ n - 1) + 1 / 2⌋ ∧ q.toNat ≤ 2 ^ n - 1 := by
  obtain ⟨-, hpos, hunits⟩ := validMax_iff.1 hb
  obtain ⟨C, hC, hle, rfl⟩ := clampedValue_of_clampedTo hb hc
  have hq := quant_le hunits hle n
  have hfits : quant C (unitsOf b.toNat) n < 2 ^ 64 := by
    have := Nat.pow_le_pow_right (n := 2) (by omega) hhi
    omega
  refine ⟨BitVec.ofNat 64 (quant C (unitsOf b.toNat) n), ?_, ?_, ?_⟩
  · simp only [toPrecision, if_neg ((width_mem_iff n).2 ⟨hlo, hhi⟩), maxValueOf_of_valid hb, hC]
  · rw [BitVec.toNat_ofNat, Nat.mod_eq_of_lt hfits, quant_eq_floor C hunits, realValue_of_nonneg hpos,
      mul_div_mul_right _ _ unitValue_pos.ne']
  · rwa [BitVec.toNat_ofNat, Nat.mod_eq_of_lt hfits]

/-! ### `FROMPREC` (R262, R263, R265) -/

theorem fromPrecision_invalid (h : n < 1 ∨ 32 < n ∨ ¬ ValidMax b) :
    fromPrecision n a b = .error (.raise .invalidParameter) := by
  unfold fromPrecision
  by_cases hn : n < 1 ∨ Config.precMax < n
  · exact if_pos hn
  · obtain ⟨hlo, hhi⟩ := (width_mem_iff n).1 hn
    have hb : ¬ ValidMax b := (h.resolve_left (by omega)).resolve_left (by omega)
    simp only [if_neg hn, maxValueOf_of_not_valid hb]

theorem fromPrecision_eq (hlo : 1 ≤ n) (hhi : n ≤ 32) (hb : ValidMax b) : fromPrecision n a b =
    if 2 ^ n - 1 < a.toNat then .error (.raise .overflow)
    else .ok (dequantWord a.toNat (unitsOf b.toNat) n) := by
  simp only [fromPrecision, if_neg ((width_mem_iff n).2 ⟨hlo, hhi⟩), maxValueOf_of_valid hb]

/-- The largest quantized integer as a rational number. -/
theorem cast_levels (n : Nat) : ((2 ^ n - 1 : Nat) : ℚ) = 2 ^ n - 1 := by
  push_cast [Nat.one_le_two_pow]
  rfl

theorem levels_pos (h : 1 ≤ n) : (0 : ℚ) < 2 ^ n - 1 :=
  sub_pos.2 (one_lt_pow₀ one_lt_two (by omega))

theorem dequant_le (hk : k ≤ 2 ^ n - 1) (m : Nat) : (k : ℚ) / (2 ^ n - 1) * m ≤ m := by
  rw [← cast_levels]
  exact mul_le_of_le_one_left (Nat.cast_nonneg m) (div_le_one_of_le₀ (Nat.cast_le.2 hk) (Nat.cast_nonneg _))

/-- What `FROMPREC` returns: the rounding of R262's value, a pattern not above that of the maximum. -/
theorem fromPrecision_of_le (hlo : 1 ≤ n) (hhi : n ≤ 32) (hb : ValidMax b) (ha : a.toNat ≤ 2 ^ n - 1) :
    ∃ q : Word, fromPrecision n a b = .ok q ∧ q.toNat ≤ b.toNat ∧
      RoundsTo ((a.toNat : ℚ) / (2 ^ n - 1) * unitsOf b.toNat) q.toNat := by
  have hlevels : 0 < 2 ^ n - 1 := by
    have := Nat.pow_le_pow_right (n := 2) (by omega) hlo
    omega
  obtain ⟨k, hk, hround⟩ := rne64_roundsTo (a.toNat * unitsOf b.toNat) hlevels
  rw [Nat.cast_mul, cast_levels, mul_div_right_comm] at hround
  have hle : k ≤ b.toNat := hround.le_of_le (dequant_le ha _)
  have hfits : (BitVec.ofNat 64 k).toNat = k := by
    rw [BitVec.toNat_ofNat, Nat.mod_eq_of_lt (hle.trans_lt b.isLt)]
  refine ⟨BitVec.ofNat 64 k, ?_, by rwa [hfits], by rwa [hfits]⟩
  rw [fromPrecision_eq hlo hhi hb, if_neg (Nat.not_lt.2 ha), dequantWord, hk]

/-- A pattern not above a finite one with sign 0 is finite and has sign 0. -/
theorem finite_of_le (hfin : isFinite b) (hpos : ¬ isNegative b) (h : p.toNat ≤ b.toNat) :
    isFinite p ∧ ¬ isNegative p := by
  unfold isFinite at hfin ⊢
  rw [expOf] at hfin ⊢
  omega

/-- The distance of two numbers given in units. -/
theorem abs_sub_units (x y : ℚ) : |x * unitValue - y * unitValue| = |x - y| * unitValue := by
  rw [← sub_mul, abs_mul, abs_of_pos unitValue_pos]

/-- The rounding among the patterns with sign 0 is the nearest of all finite patterns: a pattern with sign 1
is no nearer than +0. -/
theorem RoundsTo.isNearestEven (h : RoundsTo y p.toNat) (hy : 0 ≤ y) (hfin : isFinite p)
    (hpos : ¬ isNegative p) : IsNearestEven (y * unitValue) p := by
  refine ⟨hfin, hpos, fun r _ => ?_⟩
  have hu := unitValue_pos
  have hfrac : fracOf p % 2 = p.toNat % 2 := by
    unfold fracOf
    omega
  rw [realValue_of_nonneg hpos, abs_sub_units, hfrac]
  by_cases hneg : isNegative r
  · obtain ⟨hnear, heven⟩ := h.nearest 0
    rw [unitsOf_zero, Nat.cast_zero, zero_sub, abs_neg, abs_of_nonneg hy] at hnear heven
    have hr : (0 : ℚ) ≤ wordUnits r := Nat.cast_nonneg _
    have habs : |-(wordUnits r : ℚ) - y| = wordUnits r + y := by
      rw [abs_of_nonpos (by linarith), neg_sub, sub_neg_eq_add, add_comm]
    rw [realValue_of_negative hneg, ← neg_mul, abs_sub_units, habs,
      mul_le_mul_iff_left₀ hu, mul_left_inj' hu.ne']
    refine ⟨by linarith, fun heq hne => heven (by linarith) fun hzero => hne ?_⟩
    have hr0 : (wordUnits r : ℚ) = 0 := by linarith
    rw [hr0, ← hzero, Nat.cast_zero, neg_zero]
  · obtain ⟨hnear, heven⟩ := h.nearest r.toNat
    rw [realValue_of_nonneg hneg, abs_sub_units, mul_le_mul_iff_left₀ hu, mul_left_inj' hu.ne']
    exact ⟨hnear, fun heq hne => heven heq fun hsame => hne (by rw [hsame])⟩

/-! ### The round trip (R266) -/

/-- Rounding to the nearest integer, ties up, is off by at most one half. -/
theorem abs_floor_half_sub_le (x : ℚ) : |(⌊x + 1 / 2⌋ : ℚ) - x| ≤ 1 / 2 := by
  rw [abs_le]
  constructor <;> linarith [Int.floor_le (x + 1 / 2), Int.lt_floor_add_one (x + 1 / 2)]

/-- The quantized integer, scaled back, is within half a step of the value. -/
theorem dequant_error_le {M L : ℚ} (hM : 0 < M) (hL : 0 < L) (hq : (q : Int) = ⌊c / M * L + 1 / 2⌋) :
    |(q : ℚ) / L * M - c| ≤ M / (2 * L) := by
  have hfloor := abs_floor_half_sub_le (c / M * L)
  rw [← hq, Int.cast_natCast] at hfloor
  calc |(q : ℚ) / L * M - c| = |((q : ℚ) - c / M * L) * (M / L)| := by
        congr 1
        field_simp
    _ = |(q : ℚ) - c / M * L| * (M / L) := by rw [abs_mul, abs_of_pos (div_pos hM hL)]
    _ ≤ 1 / 2 * (M / L) := by gcongr
    _ = M / (2 * L) := by field_simp

/-- The rounding's error as a value: at most half a unit in the last place of the maximum. -/
theorem RoundsTo.value_error_le (h : RoundsTo y k) (hy : y ≤ m) :
    |unitsOf k * unitValue - y * unitValue| ≤ max (m * unitValue / 2 ^ 53) (1 / 2 ^ 1075) := by
  have hhalf : (1 / 2 ^ 1075 : ℚ) = 1 / 2 * unitValue := by
    rw [unitValue, pow_succ (2 : ℚ) 1074, one_div_mul_one_div, mul_comm]
  calc |unitsOf k * unitValue - y * unitValue| = |(unitsOf k : ℚ) - y| * unitValue := abs_sub_units _ _
    _ ≤ max ((m : ℚ) / 2 ^ 53) (1 / 2) * unitValue :=
        mul_le_mul_of_nonneg_right (h.error_le.trans (max_le_max_right _ (by gcongr))) unitValue_pos.le
    _ = max (m * unitValue / 2 ^ 53) (1 / 2 ^ 1075) := by
        rw [max_mul_of_nonneg _ _ unitValue_pos.le, hhalf, div_mul_eq_mul_div (m : ℚ)]

/-- With a maximum of at least 2^(−1042) the rounding's error is at most half a quantization step. -/
theorem rounding_le_half_step {M : ℚ} (hlo : 1 ≤ n) (hhi : n ≤ 32) (hM : 1 / 2 ^ 1042 ≤ M) :
    max (M / 2 ^ 53) (1 / 2 ^ 1075) ≤ M / (2 * (2 ^ n - 1)) := by
  have hL : (0 : ℚ) < 2 ^ n - 1 := levels_pos hlo
  have hL32 : (2 : ℚ) ^ n ≤ 2 ^ 32 := pow_le_pow_right₀ one_le_two hhi
  have hM0 : 0 < M := lt_of_lt_of_le (by positivity) hM
  have hsplit : (1 / 2 ^ 1075 : ℚ) = 1 / 2 ^ 1042 / 2 ^ 33 := by
    rw [div_div, ← pow_add]
  rw [hsplit]
  refine max_le (by gcongr; linarith) ?_
  gcongr
  linarith

end

section
variable {a b : Word} {p : Params} {w : Writer} {r : Reader} {s t : State} {n v : Nat} {x : Result Effect}
  {framed : Bool} {l : List Status}

/-! ### Fields that carry a quantized integer (R267) -/

/-- The host's command, issued, is executed with its operands (R7, R21). -/
theorem State.issue_commandOf (s : State) (i : Instr) (a b : Word) (pin : List Byte) :
    s.issue (commandOf i a b pin) = exec i (s.latch (commandOf i a b pin)) :=
  step_of_decoded rfl (decodeOfEncodeGivesTheCommand i)

/-- A command that ended `OK` answers the result of its rule. -/
theorem State.perform_result_of_ok (hx : Raises l x) (hl : .ok ∉ l) (h : s.perform framed x = .next t)
    (hok : t.status.last = .ok) : ∃ e, x = .ok e ∧ t.q = e.q := by
  obtain ⟨-, e, he, rfl⟩ | ⟨-, st, rfl, rfl⟩ | ⟨-, rfl⟩ := State.perform_next h
  · exact ⟨e, he, rfl⟩
  · cases hx with
    | raise hst => exact absurd (hok ▸ hst) hl
  · cases hok

/-- A command whose rule does not raise `Overflow` does not end in it. -/
theorem State.perform_last_ne_overflow (hx : Raises l x) (hl : .overflow ∉ l)
    (h : s.perform framed x = .next t) : t.status.last ≠ .overflow := by
  obtain ⟨-, e, -, rfl⟩ | ⟨-, st, rfl, rfl⟩ | ⟨-, rfl⟩ := State.perform_next h
  · exact nofun
  · cases hx with
    | raise hst => exact fun heq => hl (heq ▸ hst)
  · exact nofun

/-- A quantized integer fits its field. -/
theorem toPrecision_lt {q : Word} (h : toPrecision n a b = .ok q) : q.toNat < 2 ^ n := by
  have hvalid : ¬ (n < 1 ∨ 32 < n ∨ ¬ ValidMax b ∨ isNaN a) := fun hinvalid => by
    rw [toPrecision_invalid hinvalid] at h
    cases h
  obtain ⟨hlo, hhi, hb, ha⟩ := by simpa only [not_or, not_not, Nat.not_lt] using hvalid
  obtain ⟨c, hc⟩ := exists_clampedTo ha b
  obtain ⟨q', hq', -, hle⟩ := toPrecision_of_valid hlo hhi hb hc
  obtain rfl := Except.ok.inj (h.symm.trans hq')
  have := Nat.two_pow_pos n
  omega

/-- `WBITS` of a value that fits the field does not raise `Overflow`. -/
theorem Writer.writeBits_raises_of_lt (hv : v < 2 ^ n) :
    Raises [.invalidParameter, .noSpace] (w.writeBits p n v) := by
  rw [Writer.writeBits, if_neg (Nat.not_le.2 hv)]
  refine .unless (by decide) ?_
  split
  · rename_i e he
    split_ifs at he
    rw [Writer.ensure_error he]
    exact .raise (by decide)
  · split
    · rename_i e he
      rw [Memory.putBits_error he]
      exact .fault
    · exact .ok

/-- The reading loop appends `n` bits to `v`, in whatever memory. -/
theorem Memory.getBits_lt {m : Memory} {q u : Nat} (h : m.getBits q v n = some u) :
    u < (v + 1) * 2 ^ n := by
  induction n generalizing q v with
  | zero =>
    obtain rfl := Option.some.inj h
    omega
  | succ n ih =>
    rw [Memory.getBits] at h
    split at h
    · cases h
    · rename_i bit _
      have hbit : 2 * v + bit.toNat + 1 ≤ 2 * (v + 1) := by
        have := bit.toNat_le
        omega
      calc u < (2 * v + bit.toNat + 1) * 2 ^ n := ih h
        _ ≤ 2 * (v + 1) * 2 ^ n := Nat.mul_le_mul_right _ hbit
        _ = (v + 1) * 2 ^ (n + 1) := by rw [pow_succ]; ring

/-- A field read is less than 2^n. -/
theorem Reader.readBits_lt {d : Reading} (h : r.readBits n = .ok d) : d.q.toNat < 2 ^ n := by
  unfold Reader.readBits at h
  split_ifs at h
  split at h
  · cases h
  · rename_i u hu
    obtain rfl := Except.ok.inj h
    have hlt := Memory.getBits_lt hu
    rw [Nat.zero_add, Nat.one_mul] at hlt
    exact (BitVec.toNat_ofNat u 64 ▸ Nat.mod_le _ _).trans_lt hlt

/-- `FROMPREC` of an integer that fits the field does not raise `Overflow`. -/
theorem fromPrecision_raises_of_lt (ha : a.toNat < 2 ^ n) :
    Raises [.invalidParameter] (fromPrecision n a b) := by
  by_cases h : n < 1 ∨ 32 < n ∨ ¬ ValidMax b
  · rw [fromPrecision_invalid h]
    exact .raise (by decide)
  · obtain ⟨hlo, hhi, hb⟩ := by simpa only [not_or, not_not, Nat.not_lt] using h
    rw [fromPrecision_eq hlo hhi hb, if_neg (by omega)]
    exact .ok

end

end Sys2Proof.Machine

open Sys2Proof Sys2Proof.Machine

/-- Settles O52: the whole-number formula is R261's with the unit cancelled. -/
theorem toprecIsTheExactFormula : Obligations.ToprecIsTheExactFormula := by
  refine fun n s hpin => ⟨by simp [encode_toNat, Instr.opcode, Instr.count], fun h => ?_,
    fun c hlo hhi hb hc => ?_⟩
  · exact .of_computing rfl hpin (toPrecision_invalid h)
  · obtain ⟨q, hq, hfloor, hle⟩ := toPrecision_of_valid hlo hhi hb hc
    exact ⟨q, hfloor, hle, .of_computing rfl hpin hq⟩

/-- Settles O53: `rne64` decides between the two patterns about the exact value (`RoundsTo`), which are
nearer than every other finite pattern. -/
theorem fromprecIsTheNearestBinary64 : Obligations.FromprecIsTheNearestBinary64 := by
  refine fun n s hpin => ⟨by simp [encode_toNat, Instr.opcode, Instr.count], fun h => ?_,
    fun hlo hhi hb => ⟨fun ha => ?_, fun ha => ?_⟩⟩
  · exact .of_computing rfl hpin (fromPrecision_invalid h)
  · exact .of_computing rfl hpin ((fromPrecision_eq hlo hhi hb).trans (if_pos ha))
  · obtain ⟨hfin, hpos, -⟩ := validMax_iff.1 hb
    obtain ⟨q, hq, hle, hround⟩ := fromPrecision_of_le hlo hhi hb ha
    obtain ⟨hqfin, hqpos⟩ := finite_of_le hfin hpos hle
    have hlevels := levels_pos hlo
    refine ⟨q, .of_computing rfl hpin hq, ?_, ?_, fun hzero => ?_, fun hmax => ?_⟩
    · rw [realValue_of_nonneg hpos, ← mul_assoc]
      exact hround.isNearestEven (by positivity) hqfin hqpos
    · rw [realValue_of_nonneg hpos, realValue_of_nonneg hqpos]
      exact mul_le_mul_of_nonneg_right (unitsOf_cast_le hle) unitValue_pos.le
    · refine BitVec.eq_of_toNat_eq (hround.eq_of_eq ?_)
      rw [hzero]
      simp
    · refine BitVec.eq_of_toNat_eq (hround.eq_of_eq ?_)
      rw [hmax, cast_levels, div_self hlevels.ne', one_mul]

/-- Settles O54: the two roundings' errors, each at most half a step, add up to one step. -/
theorem precisionRoundTripIsWithinOneStep : Obligations.PrecisionRoundTripIsWithinOneStep := by
  intro n s hpin hlo hhi hb ha M L c
  obtain ⟨hfin, hpos, -⟩ := validMax_iff.1 hb
  have hM : 0 < M := hb.2
  have hL : 0 < L := levels_pos hlo
  have hunits : M = unitsOf s.op.b.toNat * unitValue := realValue_of_nonneg hpos
  obtain ⟨q, hq, hfloor, hqle⟩ := toPrecision_of_valid hlo hhi hb (.inr (.inr ⟨ha, rfl⟩))
  obtain ⟨r, hr, hrle, hround⟩ := fromPrecision_of_le hlo hhi hb hqle
  obtain ⟨-, hrpos⟩ := finite_of_le hfin hpos hrle
  have hquantized : |(q.toNat : ℚ) / L * M - c| ≤ M / (2 * L) := dequant_error_le hM hL hfloor
  have hrounded : |realValue r - (q.toNat : ℚ) / L * M| ≤ max (M / 2 ^ 53) (1 / 2 ^ 1075) := by
    rw [realValue_of_nonneg hrpos, hunits, ← mul_assoc]
    exact hround.value_error_le (dequant_le hqle _)
  refine ⟨q, r, .of_computing rfl hpin hq, .of_computing rfl rfl hr, hquantized, hrounded, fun hlarge => ?_⟩
  calc |realValue r - c| ≤ |realValue r - (q.toNat : ℚ) / L * M| + |(q.toNat : ℚ) / L * M - c| :=
        abs_sub_le _ _ _
    _ ≤ M / (2 * L) + M / (2 * L) :=
        add_le_add (hrounded.trans (rounding_le_half_step hlo hhi hlarge)) hquantized
    _ = M / L := by field_simp; ring

/-- Settles O55: what the first command returns fits the field of the second. -/
theorem quantizedFieldsNeverOverflow : Obligations.QuantizedFieldsNeverOverflow := by
  intro n x max p c₁ c₂ s t u hp hcommands h₁ hok h₂
  obtain rfl | rfl := hp <;> cases hcommands <;> rw [State.issue_commandOf] at h₁ h₂
  · obtain ⟨e, he, hq⟩ := State.perform_result_of_ok (toPrecision_raises _ _ _).computing (by decide) h₁ hok
    obtain ⟨q, hquant, rfl⟩ := State.computing_ok he
    have hfits : t.q.toNat < 2 ^ n.toNat := hq ▸ toPrecision_lt hquant
    exact State.perform_last_ne_overflow (Writer.writeBits_raises_of_lt hfits).writing (by decide) h₂
  · obtain ⟨e, he, hq⟩ := State.perform_result_of_ok (Reader.readBits_raises _).reading (by decide) h₁ hok
    obtain ⟨d, hread, rfl⟩ := State.reading_ok he
    have hfits : t.q.toNat < 2 ^ n.toNat := hq ▸ Reader.readBits_lt hread
    exact State.perform_last_ne_overflow (fromPrecision_raises_of_lt hfits).computing (by decide) h₂
end

section
/-! The system commands (spec/44_system.md R280 to R288).  A register is a field of a width (R28), and the
invariants hold every field below its width, so the truncation of `RDCSR` loses nothing
(`State.csr_readsAs`).  The buffer commands move the whole message: the bytes `WVIEW` and `HANDOFF` take are
what the Writer's memory reads as (`Writer.view_getElem?`), and a loaded Reader reads as its bytes
(`Reader.load_read`). -/

namespace Sys2Proof.Machine

variable {p : Params} {w : Writer} {r : Reader} {i : Instr} {s t : State} {n : Nat} {a : Word}

/-! ### How a system command's rule ends the command -/

section
variable {framed : Bool} {rule : Result Effect} {q : Word} {pout : List Byte} {e : Status}

/-- A command with good framing completes with the effect of its rule. -/
theorem EndsOk.of_rule (hexec : exec i s = s.perform framed rule) (hf : framed = true)
    (hrule : rule = .ok { state := t, q := q, pout := pout }) : EndsOk i s t q pout :=
  hexec.trans (State.perform_ok hf hrule)

/-- A command with good framing ends in the error its rule raises. -/
theorem EndsInError.of_rule (hexec : exec i s = s.perform framed rule) (hf : framed = true)
    (hrule : rule = .error (.raise e)) : EndsInError i s e :=
  hexec.trans (State.perform_raise hf hrule)

end

/-! ### `RDCSR` -/

/-- The register word is the number `v`, which fits the widest register (R28). -/
def ReadsAs (x : Option Word) (v : Nat) : Prop := v < 2 ^ 36 ∧ x = some (BitVec.ofNat 64 v)

/-- A field below its width reads as its value. -/
theorem ReadsAs.field {width v : Nat} (hwidth : width ≤ 36) (hv : v < 2 ^ width) :
    ReadsAs (some ((BitVec.ofNat width v).setWidth 64)) v :=
  ⟨hv.trans_le (Nat.pow_le_pow_right (by omega) hwidth),
    congrArg some (BitVec.setWidth_ofNat_of_le_of_lt (by omega) hv)⟩

/-- SEEN stands above the eight bits of LAST (R26). -/
theorem StatusReg.word_readsAs (x : StatusReg) :
    ReadsAs (some x.word) (256 * x.seen.toNat + x.last.code.toNat) := by
  have hlast := x.last.code.isLt
  have hseen := x.seen.toNat_le
  have hword : x.word = BitVec.ofNat 64 (256 * x.seen.toNat + x.last.code.toNat) := by
    apply BitVec.eq_of_toNat_eq
    rw [StatusReg.word, BitVec.toNat_setWidth, BitVec.toNat_append, BitVec.toNat_ofBool,
      BitVec.toNat_ofNat, ← Nat.shiftLeft_add_eq_or_of_lt hlast, Nat.shiftLeft_eq, Nat.mul_comm]
  exact ⟨by omega, congrArg some hword⟩

theorem ReadsAs.flag (b : Bool) : ReadsAs (some ((BitVec.ofBool b).setWidth 64)) b.toNat := by
  cases b
  · exact .field (width := 1) (v := 0) (by decide) (by decide)
  · exact .field (width := 1) (v := 1) (by decide) (by decide)

/-- The Writer's registers fit their widths (R28, R35). -/
theorem Writer.fields_lt (hp : p.wellFormed = true) (hi : w.Inv p) :
    w.offset < 2 ^ 32 ∧ w.bitOffset < 2 ^ 3 ∧ w.cap < 2 ^ 32 ∧ w.len < 2 ^ 32 := by
  obtain ⟨-, ⟨-, hmax⟩, -, -⟩ := Params.wellFormed_iff.1 hp
  obtain ⟨hbit, -, hcap, hlen, -, -⟩ := hi
  have hoffset : w.offset ≤ w.len := Nat.le_add_right _ _
  omega

/-- The Reader's registers fit their widths (R28, R40). -/
theorem Reader.fields_lt (hp : p.wellFormed = true) (hi : r.Inv p) :
    r.offset < 2 ^ 32 ∧ r.bitOffset < 2 ^ 3 ∧ r.len < 2 ^ 32 ∧ r.remainingBits < 2 ^ 36 := by
  obtain ⟨-, -, -, hmax⟩ := Params.wellFormed_iff.1 hp
  obtain ⟨hbit, hoffset, hlen, -, -⟩ := hi
  have hrem : r.remainingBits ≤ 8 * r.len := by unfold Reader.remainingBits; omega
  omega

/-- Under the invariants every register of the table reads as its value (R28). -/
theorem State.csr_readsAs (hs : s.Inv) (hn : n ≤ 9) : ReadsAs (s.csr n) (csrValue s n) := by
  obtain ⟨hp, hw, hr⟩ := hs
  obtain ⟨hwo, hwb, hwc, hwl⟩ := Writer.fields_lt hp hw
  obtain ⟨hro, hrb, hrl, hrr⟩ := Reader.fields_lt hp hr
  match n with
  | 0 => exact s.status.word_readsAs
  | 1 => exact .field (by decide) hwo
  | 2 => exact .field (by decide) hwb
  | 3 => exact .field (by decide) hwc
  | 4 => exact .flag _
  | 5 => exact .field (by decide) hwl
  | 6 => exact .field (by decide) hro
  | 7 => exact .field (by decide) hrb
  | 8 => exact .field (by decide) hrl
  | 9 => exact .field (by decide) hrr
  | _ + 10 => omega

theorem State.readCsr_of_csr {q : Word} (h : s.csr n = some q) : s.readCsr n = .ok q := by
  rw [State.readCsr, h]

/-- There is no register above index 9 (R28). -/
theorem State.readCsr_invalid (h : 9 < n) : s.readCsr n = .error (.raise .invalidParameter) := by
  obtain ⟨k, rfl⟩ := Nat.exists_eq_add_of_lt h
  rw [show 9 + k + 1 = k + 10 by omega]
  rfl

/-! ### `WINIT` -/

/-- The capacity `WINIT` asks for: A, or `W_CAP_INIT` for A = 0 (R280). -/
def initCap (p : Params) (a : Word) : Nat := if a.toNat = 0 then p.wCapInit else a.toNat

/-- The Writer of a new message with a capacity and the flag `n` (R280). -/
def Writer.empty (cap n : Nat) : Writer :=
  { offset := 0, bitOffset := 0, cap := cap, expand := n == 1, mem := [] }

theorem Writer.init_eq (p : Params) (n : Nat) (a : Word) :
    Writer.init p n a = if 1 < n then .error (.raise .invalidParameter)
      else if p.wCapMax < initCap p a then .error (.raise .invalidParameter)
      else .ok (.empty (initCap p a) n) := rfl

theorem Writer.init_invalid (h : 1 < n ∨ p.wCapMax < initCap p a) :
    Writer.init p n a = .error (.raise .invalidParameter) := by
  rw [Writer.init_eq]
  by_cases hn : 1 < n
  · rw [if_pos hn]
  · rw [if_neg hn, if_pos (h.resolve_left hn)]

theorem Writer.init_ok (hn : n ≤ 1) (hcap : initCap p a ≤ p.wCapMax) :
    Writer.init p n a = .ok (.empty (initCap p a) n) := by
  rw [Writer.init_eq, if_neg (Nat.not_lt.2 hn), if_neg (Nat.not_lt.2 hcap)]

/-! ### `WVIEW`, `HANDOFF`, `RLOAD` -/

/-- A list the memory holds from 0 on, as long as the memory's range, is what the memory reads as. -/
theorem Memory.Holds.getElem?_eq {m : Memory} {bs : List Byte} (h : m.Holds 0 bs)
    (hrange : m.map Prod.fst = List.range bs.length) (x : Nat) : bs[x]? = m.read x := by
  by_cases hx : x < bs.length
  · have hread := h x bs[x] (List.getElem?_eq_getElem hx)
    rw [Nat.zero_add] at hread
    rw [hread, List.getElem?_eq_getElem hx]
  · have hundefined := mt (Memory.isSome_of_range hrange x).1 hx
    rw [List.getElem?_eq_none (Nat.le_of_not_lt hx), Option.not_isSome_iff_eq_none.1 hundefined]

/-- The written bytes are what the Writer's memory reads as, at every address (R34, R281). -/
theorem Writer.view_getElem? (hi : w.Inv p) :
    ∃ bs, w.view = .ok bs ∧ bs.length = w.len ∧ ∀ x, bs[x]? = w.mem.read x := by
  obtain ⟨bs, hview, hlen, hholds⟩ := Writer.view_ok hi
  obtain ⟨-, -, -, -, hrange, -⟩ := hi
  exact ⟨bs, hview, hlen, hholds.getElem?_eq (hlen ▸ hrange)⟩

/-- A loaded Reader's memory reads as the bytes it was loaded with (R286). -/
theorem Reader.load_read (bs : List Byte) (x : Nat) : (Reader.load bs).mem.read x = bs[x]? := by
  rw [Reader.load_mem, Memory.read_ofBytesAt, if_pos (Nat.zero_le x), Nat.sub_zero]

theorem State.viewRule_ok {bs : List Byte} (h : s.w.view = .ok bs) :
    s.viewRule = .ok { state := s, q := BitVec.ofNat 64 s.w.len, pout := bs } := by
  rw [State.viewRule, h]

theorem State.handoffRule_noSpace (h : s.params.rCapMax < s.w.len) :
    s.handoffRule = .error (.raise .noSpace) := if_pos h

theorem State.handoffRule_ok {bs : List Byte} (hcap : s.w.len ≤ s.params.rCapMax)
    (h : s.w.view = .ok bs) : s.handoffRule = .ok
      { state := { s with r := Reader.load bs, w := s.w.restart }
        q := BitVec.ofNat 64 s.w.len
        pout := [] } := by
  rw [State.handoffRule, if_neg (Nat.not_lt.2 hcap), h]

theorem State.loadRule_noSpace (h : s.params.rCapMax < s.op.a.toNat) :
    s.loadRule = .error (.raise .noSpace) := if_pos h

theorem State.loadRule_ok (h : s.op.a.toNat ≤ s.params.rCapMax) :
    s.loadRule = .ok { state := { s with r := Reader.load s.op.pin }, q := 0, pout := [] } :=
  if_neg (Nat.not_lt.2 h)

end Sys2Proof.Machine

open Sys2Proof Sys2Proof.Machine

/-- Settles O46: the registers read as their values by `State.csr_readsAs`. -/
theorem rdcsrReturnsTheRegister : Obligations.RdcsrReturnsTheRegister := by
  refine fun n s hs hpin => ⟨by simp [encode_toNat, Instr.opcode, Instr.count],
    fun hn => ?_, fun hn => ?_⟩
  · exact .of_computing rfl hpin (State.readCsr_invalid hn)
  · obtain ⟨hfits, hcsr⟩ := State.csr_readsAs hs hn
    exact ⟨hfits, .of_computing rfl hpin (State.readCsr_of_csr hcsr)⟩

/-- Settles O47, by the rule of `CLRERR`, which cannot fail. -/
theorem clrerrClearsTheStickyBit : Obligations.ClrerrClearsTheStickyBit :=
  ⟨rfl, fun _ hpin => .of_rule rfl ((Operands.noPayload_iff _).2 hpin) rfl⟩

/-- Settles O48, by the two outcomes of `Writer.init`. -/
theorem winitStartsAnEmptyMessage : Obligations.WinitStartsAnEmptyMessage := by
  intro n s hpin
  have hf : s.op.noPayload = true := (Operands.noPayload_iff _).2 hpin
  refine ⟨by simp [encode_toNat, Instr.opcode, Instr.count], fun h => ?_, fun hn hcap => ?_⟩
  · exact State.perform_writing_raise hf (Writer.init_invalid h)
  · exact ⟨_, State.perform_writing hf (Writer.init_ok hn hcap), rfl, rfl, rfl, beq_iff_eq,
      Memory.read_nil⟩

/-- Settles O49, by the bytes of `Writer.view_ok`. -/
theorem wviewReturnsTheWrittenBytes : Obligations.WviewReturnsTheWrittenBytes := by
  refine ⟨rfl, fun s ⟨_, hw, _⟩ hpin => ?_⟩
  obtain ⟨bytes, hview, hlen, hholds⟩ := Writer.view_ok hw
  refine ⟨bytes, hlen, hholds, ?_⟩
  rw [hlen]
  exact .of_rule rfl ((Operands.noPayload_iff _).2 hpin) (State.viewRule_ok hview)

/-- Settles O50: the Reader is loaded with what the Writer's memory reads as. -/
theorem handoffCopiesTheMessageToTheReader : Obligations.HandoffCopiesTheMessageToTheReader := by
  refine ⟨rfl, fun s ⟨_, hw, _⟩ hpin => ?_⟩
  have hf : s.op.noPayload = true := (Operands.noPayload_iff _).2 hpin
  refine ⟨fun hlong => .of_rule rfl hf (State.handoffRule_noSpace hlong), fun hcap => ?_⟩
  obtain ⟨bytes, hview, hlen, hbytes⟩ := Writer.view_getElem? hw
  have hends := EndsOk.of_rule (i := .handoff) rfl hf (State.handoffRule_ok hcap hview)
  have hcopied (x : Nat) : (Reader.load bytes).mem.read x = s.w.mem.read x :=
    (Reader.load_read bytes x).trans (hbytes x)
  exact ⟨s.w.restart, Reader.load bytes, hends, hlen, rfl, rfl, hcopied, rfl, rfl, rfl, rfl,
    Memory.read_nil⟩

/-- Settles O51: the framing test, then the two outcomes of the rule of `RLOAD`. -/
theorem rloadLoadsThePayload : Obligations.RloadLoadsThePayload := by
  refine ⟨rfl, fun s => ⟨fun hne => ?_, fun hlen hlong => ?_, fun hlen hcap => ?_⟩⟩
  · exact State.perform_illegal _ (Bool.eq_false_iff.2 (mt (Operands.payloadOfLengthA_iff _).1 hne))
  · exact .of_rule rfl ((Operands.payloadOfLengthA_iff _).2 hlen) (State.loadRule_noSpace hlong)
  · exact ⟨Reader.load s.op.pin,
      .of_rule rfl ((Operands.payloadOfLengthA_iff _).2 hlen) (State.loadRule_ok hcap),
      hlen, rfl, rfl, Reader.load_read s.op.pin⟩
end

section
/-! Exceptions and completion (spec/60_exceptions.md R300 to R314).  How a command ends is read off
`exec_ends` and `step`'s equations.  The statuses of R308's table are the lists of `Raises`, made sharper
where a field or a varint domain of 64 bits leaves nothing that could overflow (`word_lt_two_pow`,
`word_inSignedRange`); `Raises.last_mem` takes such a list to the status after the command, and
`exec_last_mem` is the one split over the rows. -/

namespace Sys2Proof.Machine

variable {p : Params} {w : Writer} {i : Instr} {s t : State} {k : Nat}

/-! ### The two ways a command ends -/

/-- Every effect changes the block alone. -/
theorem CommandEffect.eq_withBlock {s' : State} (h : CommandEffect i s s') :
    s' = { s with toBlock := s'.toBlock } := by
  cases h <;> rfl

/-- A command ends in success from some block, or in an error from the block it began with (R304). -/
theorem exec_afterOk_or_afterError (h : exec i s = .next t) :
    (∃ (b : Block) (q : Word) (pout : List Byte), t = State.afterOk { s with toBlock := b } q pout) ∨
    (∃ e : Status, e ≠ .ok ∧ t = s.afterError e) := by
  obtain ⟨s', q, pout, he, rfl⟩ | ⟨e, hne, rfl⟩ := exec_next h
  · refine .inl ⟨s'.toBlock, q, pout, ?_⟩
    rw [State.complete_eq_afterOk, ← he.eq_withBlock]
  · exact .inr ⟨e, hne, s.raise_eq_afterError e⟩

/-! ### No refusal -/

/-- Every command of the opcode table has a meaning. -/
theorem exec_ne_refused (i : Instr) (s : State) (x : Refusal) : exec i s ≠ .refused x := by
  intro h
  have hends := exec_ends i s
  rw [h] at hends
  cases hends

/-- No step is refused: an event is idle, a reset, a rejected word or a command. -/
theorem step_ne_refused (s : State) (x : Refusal) : step s ≠ .refused x := by
  match hp : s.pending with
  | [] => rw [step_of_idle hp]; exact nofun
  | .reset :: rest => rw [step_of_reset hp]; exact nofun
  | .command c :: rest =>
    cases hd : decode c.cw with
    | error w => rw [step_of_badWord hp hd]; exact nofun
    | ok i => rw [step_of_decoded hp hd]; exact exec_ne_refused _ _ _

/-! ### Nothing overflows 64 bits -/

/-- An operand fits every unsigned field of 64 bits or more. -/
theorem word_lt_two_pow (a : Word) (h : 64 ≤ k) : a.toNat < 2 ^ k :=
  a.isLt.trans_le (Nat.pow_le_pow_right (by decide) h)

/-- An operand fits every signed field of 64 bits or more. -/
theorem word_inSignedRange (a : Word) (h : 64 ≤ k) : inSignedRange k a.toInt = true := by
  have hpow : (2 : Int) ^ 63 ≤ 2 ^ (k - 1) := pow_le_pow_right₀ (by decide) (by omega)
  have hlo := BitVec.le_toInt a
  have hhi := BitVec.toInt_lt (x := a)
  rw [inSignedRange_iff]
  omega

theorem Writer.writeUnsigned_raises_of_wide (hk : 64 ≤ 8 * k) (a : Word) :
    Raises [.noSpace] (w.writeUnsigned p k a) := by
  rw [Writer.writeUnsigned_of_lt (word_lt_two_pow a hk)]
  exact Writer.byteWrite_raises (by decide) _

theorem Writer.writeSigned_raises_of_wide (hk : 64 ≤ 8 * k) (a : Word) :
    Raises [.noSpace] (w.writeSigned p k a) := by
  rw [Writer.writeSigned_of_inRange (word_inSignedRange a hk)]
  exact Writer.byteWrite_raises (by decide) _

theorem Writer.writeVarUnsigned_raises_of_wide (hp : 64 ≤ p.varw) (a : Word) :
    Raises [.noSpace] (w.writeVarUnsigned p a) := by
  rw [Writer.writeVarUnsigned_of_lt (word_lt_two_pow a hp)]
  exact Writer.byteWrite_raises (by decide) _

theorem Writer.writeVarSigned_raises_of_wide (hp : 64 ≤ p.varw) (a : Word) :
    Raises [.noSpace] (w.writeVarSigned p a) := by
  rw [Writer.writeVarSigned, if_pos (word_inSignedRange a hp)]
  exact Writer.byteWrite_raises (by decide) _

theorem zigzagValue_raises_of_wide (hp : 64 ≤ p.varw) (a : Word) : Raises [] (zigzagValue p a) := by
  rw [zigzagValue, if_pos (word_inSignedRange a hp)]
  exact .ok

theorem unzigzagValue_raises_of_wide (hp : 64 ≤ p.varw) (a : Word) :
    Raises [] (unzigzagValue p a) := by
  rw [unzigzagValue_of_lt (word_lt_two_pow a hp)]
  exact .ok

/-! ### The table of statuses (R308) -/

section
variable {l l' l₁ l₂ : List Status} {framed : Bool} {x : Result Effect}

/-- A command ends `OK`, in `IllegalCommand` through its framing, or in an error its rule raises. -/
theorem Raises.last_mem (hx : Raises l x) (h : s.perform framed x = .next t)
    (hl : .ok :: .illegalCommand :: l ⊆ l') : t.status.last ∈ l' := by
  refine hl ?_
  obtain ⟨-, e, -, rfl⟩ | ⟨-, st, rfl, rfl⟩ | ⟨-, rfl⟩ := State.perform_next h
  · exact .head _
  · cases hx with
    | raise hst => exact .tail _ (.tail _ hst)
  · exact .tail _ (.head _)

/-- The rows marked (v): a varint domain of 64 bits has a list of its own. -/
theorem Raises.last_mem_varw (hx : Raises l x) (hwide : 64 ≤ p.varw → Raises l' x)
    (h : s.perform framed x = .next t) (h₁ : .ok :: .illegalCommand :: l ⊆ l₁)
    (h₂ : .ok :: .illegalCommand :: l' ⊆ l₂) :
    t.status.last ∈ if p.varw < 64 then l₁ else l₂ := by
  split_ifs with hp
  · exact hx.last_mem h h₁
  · exact (hwide (Nat.le_of_not_lt hp)).last_mem h h₂

end

/-- The status after a command is in its row of R308's table. -/
theorem exec_last_mem (h : exec i s = .next t) : t.status.last ∈ allowedStatuses s.params i := by
  cases i with
  | rdcsr => exact (State.readCsr_raises _).computing.last_mem h (by simp [allowedStatuses])
  | clrerr | walign | ralign =>
    exact Raises.last_mem (l := []) .ok h (by simp [allowedStatuses])
  | winit => exact (Writer.init_raises _ _).writing.last_mem h (by simp [allowedStatuses])
  | wbits => exact (Writer.writeBits_raises _ _).writing.last_mem h (by simp [allowedStatuses])
  | wbuf => exact (Writer.writeBuffer_raises _ _ _).writing.last_mem h (by simp [allowedStatuses])
  | wvaru =>
    exact (Writer.writeVarUnsigned_raises _).writing.last_mem_varw
      (fun hp => (Writer.writeVarUnsigned_raises_of_wide hp _).writing) h (by decide) (by decide)
  | wvars =>
    exact (Writer.writeVarSigned_raises _).writing.last_mem_varw
      (fun hp => (Writer.writeVarSigned_raises_of_wide hp _).writing) h (by decide) (by decide)
  | wview => exact (State.viewRule_raises (l := [])).last_mem h (by simp [allowedStatuses])
  | handoff => exact State.handoffRule_raises.last_mem h (by simp [allowedStatuses])
  | rload => exact State.loadRule_raises.last_mem h (by simp [allowedStatuses])
  | wu64 | wf64 =>
    exact (Writer.writeUnsigned_raises_of_wide le_rfl _).writing.last_mem h (by simp [allowedStatuses])
  | wi64 =>
    exact (Writer.writeSigned_raises_of_wide le_rfl _).writing.last_mem h (by simp [allowedStatuses])
  | wu8 | wu16 | wu32 | wf16 | wf32 =>
    exact (Writer.writeUnsigned_raises _ _).writing.last_mem h (by simp [allowedStatuses])
  | wi8 | wi16 | wi32 =>
    exact (Writer.writeSigned_raises _ _).writing.last_mem h (by simp [allowedStatuses])
  | rbits | pbits => exact (Reader.readBits_raises _).reading.last_mem h (by simp [allowedStatuses])
  | rbuf | pbuf => exact (Reader.readBuffer_raises _ _).reading.last_mem h (by simp [allowedStatuses])
  | rvaru | pvaru =>
    exact Reader.readVarUnsigned_raises.reading.last_mem h (by simp [allowedStatuses])
  | rvars | pvars =>
    exact Reader.readVarSigned_raises.reading.last_mem h (by simp [allowedStatuses])
  | ru8 | ru16 | ru32 | ru64 | rf16 | rf32 | rf64
  | pu8 | pu16 | pu32 | pu64 | pf16 | pf32 | pf64 =>
    exact (Reader.readUnsigned_raises _).reading.last_mem h (by simp [allowedStatuses])
  | ri8 | ri16 | ri32 | ri64 | pi8 | pi16 | pi32 | pi64 =>
    exact (Reader.readSigned_raises _).reading.last_mem h (by simp [allowedStatuses])
  | toprec => exact (toPrecision_raises _ _ _).computing.last_mem h (by simp [allowedStatuses])
  | fromprec => exact (fromPrecision_raises _ _ _).computing.last_mem h (by simp [allowedStatuses])
  | zigzag =>
    exact (zigzagValue_raises _).computing.last_mem_varw
      (fun hp => (zigzagValue_raises_of_wide hp _).computing) h (by decide) (by decide)
  | unzigzag =>
    exact (unzigzagValue_raises _).computing.last_mem_varw
      (fun hp => (unzigzagValue_raises_of_wide hp _).computing) h (by decide) (by decide)

end Sys2Proof.Machine

open Sys2Proof Sys2Proof.Machine

/-- Settles O9: a command from the port is a rejected word, which ends in `IllegalCommand`, or `exec` on
the latched state, which is the state without the operands every ending drops. -/
theorem commandsEndInOneOfTwoWays : Obligations.CommandsEndInOneOfTwoWays := by
  refine ⟨fun _ _ _ => exec_afterOk_or_afterError, fun s t c rest hp h => ?_⟩
  cases hd : decode c.cw with
  | error w =>
    rw [step_of_badWord hp hd] at h
    obtain rfl := Host.Outcome.next.inj h
    exact .inr ⟨.illegalCommand, nofun, rfl⟩
  | ok i =>
    rw [step_of_decoded hp hd] at h
    exact exec_afterOk_or_afterError h

/-- Settles O12, by the lists of errors the commands' rules raise. -/
theorem commandsEndWithAListedStatus : Obligations.CommandsEndWithAListedStatus :=
  fun _ _ _ => exec_last_mem

/-- Settles O18: of the three outcomes of a step the invariants exclude a fault, and no state is refused. -/
theorem invariantStatesAlwaysStep : Obligations.InvariantStatesAlwaysStep := by
  refine ⟨fun s hs => ?_, step_ne_refused⟩
  cases h : step s with
  | next t => exact ⟨t, rfl⟩
  | fault f => exact absurd h (step_ne_fault hs)
  | refused x => exact absurd h (step_ne_refused s x)

/-- Settles O7, by the step's equations for no event and for a reset. -/
theorem hostSideOfIdleAndReset : Obligations.HostSideOfIdleAndReset :=
  ⟨fun _ => step_of_idle, fun _ _ h => ⟨_, step_of_reset h, rfl, rfl, rfl, rfl⟩⟩
end
